-- ==== Sys2Proof/Word.lean ====
section
/-! DEFINITION. The word types of the bitio core: bytes (the unit of every stream transaction and of both
accumulators) and 32-bit command and response words. The names by which the host refers to things are naturals: a
handle is a unit's position in the order of creation (`00_scope.md` R14, D19; log 2), and a byte buffer or boolean
sequence is named by its position among the host's (`20_memory.md` R44; log 10). -/

namespace Sys2Proof

/-- One byte: an accumulator, a stream byte, a response's data (`00_scope.md` R7). -/
abbrev Byte := BitVec 8

/-- One command word or response word (`30_encoding.md` R56, R61). -/
abbrev Word := BitVec 32

end Sys2Proof
end

