-- ==== Sys2Proof/Config.lean ====
section
/-! DEFINITION. What the spec leaves open by name: the set of error codes (`00_scope.md` R8, D7), the stream oracles
(D10, D11), the map of error codes to STATUS values (`30_encoding.md` R62), and the values of buffer and sequence
elements that a failed operation leaves unspecified (D17). Nothing here can be evaluated: no proof can see a
value of an opaque constant. -/

namespace Sys2Proof

/-- How many error codes there are beyond the two named ones: none, some number of them, or, where this is `none`, one
for every natural. ExtErr is an argument of the model (`00_scope.md` R8), so this is a FREE VALUE (log 7): that further
codes exist can be proved no more than that none does. -/
opaque Config.furtherCodes : Option Nat

/-- The number `code` names a further error code: the further codes are numbered from 0. DESIGN CHOICE, log 7. -/
def isFurtherCode (code : Nat) : Bool :=
  match Config.furtherCodes with
  | none => true
  | some n => code < n

/-- The error codes beyond the two named ones, whichever there are (R8, D7, 93-5). -/
abbrev FurtherCode := { code : Nat // isFurtherCode code = true }

/-- ExtErr, the error codes a source or sink can report (R8, D7): the two named ones, and the further ones of the set
that Config leaves open. The core never looks inside. -/
inductive ExtErr where
  | exhausted
  | ioFailure
  | other (code : FurtherCode)
deriving DecidableEq, Repr, Inhabited

/-- What one SrcRead answers: `Byte(b)` or `Err(e)` (`20_memory.md` R40). -/
inductive SrcReply where
  | byte (b : Byte)
  | err (e : ExtErr)
deriving DecidableEq, Repr, Inhabited

/-- What one SinkWrite answers: `Ok` or `Err(e)` (`20_memory.md` R41). -/
inductive SinkReply where
  | ok
  | err (e : ExtErr)
deriving DecidableEq, Repr, Inhabited

/-- The source oracle (R40, D10): the answer of source `stream` to its transaction number `index`, where State
settles none. A FREE VALUE (log 3). -/
opaque Config.sourceOracle (stream index : Nat) : SrcReply

/-- The sink oracle (R41, D11): the answer of sink `stream` to its transaction number `index`, where State
settles none. A FREE VALUE (log 3). -/
opaque Config.sinkOracle (stream index : Nat) : SinkReply

/-- The open parameter `ErrCode` of R62, before the constraint that R62 puts on it (see
`Sys2Proof.Machine.errCode`). A FREE VALUE (log 8). -/
opaque Config.errCodeParameter (code : Nat) : Byte

/-- The value of a byte buffer element that a failed operation leaves unspecified (D17, 93-4): draw number
`index`. A FREE VALUE (log 9). -/
opaque Config.freeByte (index : Nat) : Byte

/-- The value of a boolean sequence element that a failed operation leaves unspecified (D17, 93-4): draw number
`index`. A FREE VALUE (log 9). -/
opaque Config.freeBool (index : Nat) : Bool

end Sys2Proof
end

