-- ==== Sys2Proof/Syntax.lean ====
section
/-! DEFINITION. The instruction set as the host writes it: one constructor per row of spec/opcode_table.json. The
five commands and their four aliases carry the operands of their assembler line (`30_encoding.md` R65, R66): the
line's `<handle>:` is not part of the word, so it is not part of the instruction (see `HostOp`). The eight host
operations are calls and carry their operands (R67). -/

namespace Sys2Proof

/-- The two kinds of unit (`00_scope.md` R1). OPC[7] of a command word names one: 0 reader, 1 writer (R56). -/
inductive UnitKind where
  | reader
  | writer
deriving DecidableEq, Repr

/-- What the host can hand to `wrap` (`40_reader.md` R69, `41_writer.md` R79): an external stream; a unit; or an
adapter, an external stream that serves each one-byte transaction by a byte-stream operation on a unit
(`10_state.md` R33, `70_reset_and_hazards.md` R118). -/
inductive StreamHandle where
  | external (stream : Nat)
  | unit (h : Nat)
  | adapter (h : Nat)
deriving DecidableEq, Repr

/-- The instructions: rows of spec/opcode_table.json, in the table's order. Operands that a word carries are
numbers as the assembler reads them (R65); `WellFormed` says which of them fit their field. -/
inductive Instr where
  /-- `RD.BITS N` (R70). -/
  | rdBits (N : Nat)
  /-- `RD.COUNT` (R77). -/
  | rdCount
  /-- `WR.BITS V, N`: value first, then width (R80). -/
  | wrBits (V N : Nat)
  /-- `WR.FLUSH` (R82). -/
  | wrFlush
  /-- `WR.COUNT` (R88). -/
  | wrCount
  /-- `RD.BIT`, an alias (R72). -/
  | rdBit
  /-- `RD.BOOL`, an alias whose data the host reads as a boolean (R73). -/
  | rdBool
  /-- `WR.BIT b`, an alias; `b` is 0 or 1 (R85). -/
  | wrBit (b : Nat)
  /-- `WR.BOOL t`, an alias (R86). -/
  | wrBool (t : Bool)
  /-- `wrap_reader(s)` (R69). -/
  | wrapReader (s : StreamHandle)
  /-- `readBoolSequence(r, n)` (R74). -/
  | readBoolSequence (r : Nat) (n : Nat)
  /-- `readByteStream(r, buf)` (R75). -/
  | readByteStream (r : Nat) (buf : Nat)
  /-- `readBitSequenceInto(r, buf, totalBits)` (R76). -/
  | readBitSequenceInto (r : Nat) (buf : Nat) (totalBits : Nat)
  /-- `wrap_writer(k)` (R79). -/
  | wrapWriter (k : StreamHandle)
  /-- `writeByteStream(w, buf)` (R83). -/
  | writeByteStream (w : Nat) (buf : Nat)
  /-- `writeBitSequenceFrom(w, buf, totalBits)` (R84). -/
  | writeBitSequenceFrom (w : Nat) (buf : Nat) (totalBits : Nat)
  /-- `writeBoolSequence(w, seq)` (R87). -/
  | writeBoolSequence (w : Nat) (seq : Nat)
deriving DecidableEq, Repr

end Sys2Proof
end

