-- ==== Sys2Proof/WellFormed.lean ====
section
/-! DEFINITION. Which instructions the assembler accepts (`30_encoding.md` R65, R66, 93-16): a number fits its
8-bit field, and WR.BIT's operand is 0 or 1. The calls of R67 have no field to overflow. -/

namespace Sys2Proof

/-- A number fits an 8-bit field of the command word (R65). -/
def fitsField (x : Nat) : Bool := decide (x < 256)

/-- The assembler accepts the instruction (R65, R66). -/
def Instr.wellFormed (i : Instr) : Bool :=
  match i with
  | .rdBits N => fitsField N
  | .rdCount => true
  | .wrBits V N => fitsField V && fitsField N
  | .wrFlush => true
  | .wrCount => true
  | .rdBit => true
  | .rdBool => true
  | .wrBit b => decide (b ≤ 1)
  | .wrBool _ => true
  | .wrapReader _ => true
  | .readBoolSequence _ _ => true
  | .readByteStream _ _ => true
  | .readBitSequenceInto _ _ _ => true
  | .wrapWriter _ => true
  | .writeByteStream _ _ => true
  | .writeBitSequenceFrom _ _ _ => true
  | .writeBoolSequence _ _ => true

end Sys2Proof
end

