-- ==== Sys2Proof/Decode.lean ====
section
/-! DEFINITION. The CMD32 command word (`30_encoding.md` R56): decoding, total and rejecting by name (R58, R64), and
after it the encoder, written from the opcode map (R57) and the table of aliases (R66). -/

namespace Sys2Proof

/-- Why a word is refused (R64). -/
inductive DecodeError where
  /-- RSV is not 0x00. -/
  | reservedField
  /-- OPC is none of the five defined values (0x00 is not a no-op). -/
  | unknownOpcode
  /-- A V field marked "must be 0x00" is not zero. -/
  | nonzeroValue
  /-- An N field marked "must be 0x00" is not zero. -/
  | nonzeroWidth
deriving DecidableEq, Repr

/-- What decoding a word gives: a command, or the word refused (R58). -/
inductive Decoded where
  | command (i : Instr)
  | refused (why : DecodeError)
deriving DecidableEq, Repr

/-- OPC, bits 31:24 (R56). -/
def opcField (w : Word) : Byte := w.extractLsb' 24 8
/-- RSV, bits 23:16 (R56). -/
def rsvField (w : Word) : Byte := w.extractLsb' 16 8
/-- N, bits 15:8 (R56). -/
def widthField (w : Word) : Byte := w.extractLsb' 8 8
/-- V, bits 7:0 (R56). -/
def valueField (w : Word) : Byte := w.extractLsb' 0 8

/-- A command whose N and V fields must both be 0x00 (R57). -/
def bareCommand (w : Word) (i : Instr) : Decoded :=
  if widthField w ≠ 0 then .refused .nonzeroWidth
  else if valueField w ≠ 0 then .refused .nonzeroValue
  else .command i

/-- R58, `decode(w)`. -/
def decode (w : Word) : Decoded :=
  if rsvField w ≠ 0 then .refused .reservedField
  else if opcField w = 0x01 then
    if valueField w = 0 then .command (.rdBits (widthField w).toNat) else .refused .nonzeroValue
  else if opcField w = 0x02 then bareCommand w .rdCount
  else if opcField w = 0x81 then .command (.wrBits (valueField w).toNat (widthField w).toNat)
  else if opcField w = 0x82 then bareCommand w .wrFlush
  else if opcField w = 0x83 then bareCommand w .wrCount
  else .refused .unknownOpcode

/-- The word with the given OPC, N and V and with RSV 0x00 (R56). -/
def cmd32 (opc : Byte) (n v : Nat) : Word :=
  opc ++ (0 : Byte) ++ BitVec.ofNat 8 n ++ BitVec.ofNat 8 v

/-- The command word of an instruction (R57, R66); the calls of R67 have none. -/
def encode (i : Instr) : Option Word :=
  match i with
  | .rdBits N => some (cmd32 0x01 N 0)
  | .rdCount => some (cmd32 0x02 0 0)
  | .wrBits V N => some (cmd32 0x81 N V)
  | .wrFlush => some (cmd32 0x82 0 0)
  | .wrCount => some (cmd32 0x83 0 0)
  | .rdBit => some (cmd32 0x01 1 0)
  | .rdBool => some (cmd32 0x01 1 0)
  | .wrBit b => some (cmd32 0x81 1 b)
  | .wrBool t => some (cmd32 0x81 1 (if t then 1 else 0))
  | .wrapReader _ => none
  | .readBoolSequence _ _ => none
  | .readByteStream _ _ => none
  | .readBitSequenceInto _ _ _ => none
  | .wrapWriter _ => none
  | .writeByteStream _ _ => none
  | .writeBitSequenceFrom _ _ _ => none
  | .writeBoolSequence _ _ => none

/-- An alias's canonical command (R66: "its semantics are the canonical command's"); any other instruction is
its own. -/
def Instr.canonical (i : Instr) : Instr :=
  match i with
  | .rdBits N => .rdBits N
  | .rdCount => .rdCount
  | .wrBits V N => .wrBits V N
  | .wrFlush => .wrFlush
  | .wrCount => .wrCount
  | .rdBit => .rdBits 1
  | .rdBool => .rdBits 1
  | .wrBit b => .wrBits b 1
  | .wrBool t => .wrBits (if t then 1 else 0) 1
  | .wrapReader s => .wrapReader s
  | .readBoolSequence r n => .readBoolSequence r n
  | .readByteStream r buf => .readByteStream r buf
  | .readBitSequenceInto r buf totalBits => .readBitSequenceInto r buf totalBits
  | .wrapWriter k => .wrapWriter k
  | .writeByteStream w buf => .writeByteStream w buf
  | .writeBitSequenceFrom w buf totalBits => .writeBitSequenceFrom w buf totalBits
  | .writeBoolSequence w seq => .writeBoolSequence w seq

/-- The kind of unit a command word goes to: OPC[7], which is bit 31 of the word (R56). -/
def kindOfWord (w : Word) : UnitKind := if w.getLsbD 31 then .writer else .reader

/-- The instruction the decoder reads from the word whose bits are `w`, bit 0 the least significant bit of the
command word. A command word is one number, not bytes in a memory (`20_memory.md` R54), so no byte order arises
(log 21); a number of more than `nbits` bits, or of more than 32, is no command word. -/
def decodeTableWord (nbits w : Nat) : Option Instr :=
  if nbits ≤ 32 ∧ w < 2 ^ nbits then
    match decode (BitVec.ofNat 32 w) with
    | .command i => some i
    | .refused _ => none
  else none

end Sys2Proof
end

