-- ==== Sys2Proof/Machine/State.lean ====
section
/-! DEFINITION. The state of the machine as plain data: the units, the external streams, the host's buffers, the
operations the host has still to issue and what it has received. Also the reasons a step can stop. -/

namespace Sys2Proof.Machine

/-! ## Streams (`20_memory.md`) -/

/-- What a source does with one request. `reply` is an answer of R40; the others are a source that never answers
(R55; neither this request nor any later one, log 4) and the two answers outside the protocol (93-10). -/
inductive SrcEvent where
  | reply (r : SrcReply)
  | never
  | zeroBytes
  | byteWithError (b : Byte) (e : ExtErr)
deriving DecidableEq, Repr

/-- What a source does once its script is used up: the same thing for ever, or the oracle's answers (log 3). -/
inductive SrcTail where
  | always (e : SrcEvent)
  | oracle
deriving DecidableEq, Repr

/-- An external byte source: what it will do with the requests to come, and the answers it has given, oldest
first. -/
structure Source where
  script : List SrcEvent
  tail   : SrcTail
  log    : List SrcReply
deriving DecidableEq, Repr

/-- What a sink does with one offered byte: an answer of R41, no answer ever (R55; neither to this offer nor to any
later one, log 4), or an answer outside the protocol, a partial write (93-10). -/
inductive SinkEvent where
  | reply (r : SinkReply)
  | never
  | partialWrite
deriving DecidableEq, Repr

/-- What a sink does once its script is used up (log 3). -/
inductive SinkTail where
  | always (e : SinkEvent)
  | oracle
deriving DecidableEq, Repr

/-- An external byte sink: what it will do with the offers to come, and the bytes offered to it with its answers,
oldest first. -/
structure Sink where
  script : List SinkEvent
  tail   : SinkTail
  log    : List (Byte × SinkReply)
deriving DecidableEq, Repr

/-- A source nothing has asked yet and about which State says nothing: what an unlisted stream number means. -/
def Source.untouched : Source := { script := [], tail := .oracle, log := [] }

/-- A sink nothing has been offered to and about which State says nothing. -/
def Sink.untouched : Sink := { script := [], tail := .oracle, log := [] }

/-- What an instance is bound to (`R.src`, `W.snk`): an external stream, or an adapter over an older instance of
the same kind (`70_reset_and_hazards.md` R118; log 6). -/
inductive Binding where
  | external (stream : Nat)
  | adapter (h : Nat)
deriving DecidableEq, Repr

/-! ## Units (`10_state.md`) -/

/-- The micro-states of a reader (`42_stream_sync.md` R93): between commands; a source request outstanding; taking
a chunk. `need` and `result` belong to the command in progress (`40_reader.md` R70). -/
inductive ReaderMicro where
  | idle
  | waitSrc (need : Nat) (result : Byte)
  | extract (need : Nat) (result : Byte)
deriving DecidableEq, Repr

/-- A reader instance (R16). `delivered` holds the bytes its source has delivered to it since creation, `byte[0]`
first (`20_memory.md` R35; log 13). -/
structure Reader where
  acc       : Byte
  count     : Nat
  src       : Binding
  micro     : ReaderMicro
  delivered : List Byte
deriving DecidableEq, Repr

/-- The micro-states of a writer (`42_stream_sync.md` R97). `v` and `need` belong to the command in progress
(`41_writer.md` R80); a flush has `need = 0`. -/
inductive WriterMicro where
  | idle
  | fill (v : Byte) (need : Nat)
  | waitSnk (v : Byte) (need : Nat)
deriving DecidableEq, Repr

/-- A writer instance (R19). `accepted` holds the bytes its sink has accepted from it since creation, oldest first
(`41_writer.md` R81; log 13). -/
structure Writer where
  acc      : Byte
  filled   : Nat
  snk      : Binding
  micro    : WriterMicro
  accepted : List Byte
deriving DecidableEq, Repr

/-- A reader at creation (R32, R111). -/
def Reader.fresh (src : Binding) : Reader :=
  { acc := 0x00, count := 0, src := src, micro := .idle, delivered := [] }

/-- A writer at creation (R32, R111). -/
def Writer.fresh (snk : Binding) : Writer :=
  { acc := 0x00, filled := 0, snk := snk, micro := .idle, accepted := [] }

/-- An instance: one reader or one writer. -/
inductive BitUnit where
  | reader (r : Reader)
  | writer (w : Writer)
deriving DecidableEq, Repr

/-! ## Responses and what the host holds -/

/-- The status of a response (`30_encoding.md` R61). -/
inductive Status where
  | ok
  | err (e : ExtErr)
deriving DecidableEq, Repr

/-- A response: the record `(status, data)` (R61). -/
structure Response where
  status : Status
  data   : Byte
deriving DecidableEq, Repr

/-- What a host operation returns to the host: a handle (R69, R79), a command's response (R61), a boolean with its
status (R73), a new boolean sequence with its status (R74), a count of elements with a status (R75, R76, R83,
R84), or a status alone (R87). -/
inductive Returned where
  | handle (h : Nat)
  | response (r : Response)
  | boolean (b : Bool) (st : Status)
  | sequence (q : Nat) (st : Status)
  | count (k : Nat) (st : Status)
  | status (st : Status)
deriving DecidableEq, Repr

/-- One operation of the host's program: a command word issued to an instance, or a line or call for the
assembler (R65). `h` is the line's `<handle>:`; a call names its handles itself and does not use it. -/
inductive HostOp where
  | word (h : Nat) (w : Word)
  | line (h : Nat) (i : Instr)
deriving DecidableEq, Repr

/-- The machine. INVENTORY.md, '## State', names the rule behind each field. -/
structure State where
  units     : List BitUnit
  sources   : List (Nat × Source)
  sinks     : List (Nat × Sink)
  buffers   : List (List Byte)
  boolSeqs  : List (List Bool)
  queue     : List HostOp
  target    : Nat
  responses : List (Nat × Response)
  returned  : Option Returned
  freeDraws : Nat
deriving DecidableEq, Repr

/-- The machine before the host has created anything (`70_reset_and_hazards.md` R111, R113): creation is the only
reset (`10_state.md` R32), so the values R32 gives are those of `Reader.fresh` and `Writer.fresh`. Logs 1, 9, 10,
12. -/
def State.reset : State :=
  { units := [], sources := [], sinks := [], buffers := [], boolSeqs := [], queue := [], target := 0,
    responses := [], returned := none, freeDraws := 0 }

/-! ## Stops -/

/-- Why the machine stops with a modelling error. -/
inductive Fault where
  /-- A source answered a request outside the protocol of R40 (93-10: "an oracle must not produce one"). Raised by
  the source transaction of RD.BITS. Safe. -/
  | sourceProtocol
  /-- A sink answered an offer outside the protocol of R41 (93-10). Raised by the sink transaction of WR.BITS and
  WR.FLUSH. Safe. -/
  | sinkProtocol
  /-- An adapter that does not stand over an older instance; no `wrap` makes one (log 6). Raised by stream
  transactions. Safe. -/
  | adapterOrder
  /-- A chunk loop not finished after two passes, which R43 rules out in every state that keeps the counts' ranges
  (log 14). Raised by RD.BITS and WR.BITS. Safe. -/
  | chunkLoop
deriving DecidableEq, Repr

/-- Why an operation gets no step: the run is refused (`60_exceptions.md` R104). -/
inductive Refusal where
  /-- The instruction has no meaning in the model yet. Raised by `exec`'s refused arms only. Safe. -/
  | notModelled (mnemonic : String)
  /-- A word that does not decode (R64). Raised by fetching it. Safe. -/
  | undecodable (why : DecodeError)
  /-- A line the assembler refuses (R65, R66, 93-16). Raised by fetching it. Safe. -/
  | notAssembled
  /-- The handle names no instance (log 15). Raised by every command and by `wrap`. Safe. -/
  | noSuchUnit (h : Nat)
  /-- A command sent to an instance of the other kind (R58, R64). Raised by every command. Safe. -/
  | wrongKind (h : Nat)
  /-- A command issued to an instance that is inside another command (R116, 93-8). Raised by every command.
  Safe. -/
  | busy (h : Nat)
  /-- A handle of the wrong kind given to `wrap` (R69, R79, 93-15). Raised by `wrap_reader` and `wrap_writer`.
  Safe. -/
  | wrapKind (h : Nat)
deriving DecidableEq, Repr

end Sys2Proof.Machine
end

