-- ==== Sys2Proof/Machine/Operands.lean ====
section
/-! DEFINITION. Operand forms (`30_encoding.md` R59, R60), the operators on data values (`00_scope.md` R10) and bit
groups (`20_memory.md` R35 to R37). -/

namespace Sys2Proof.Machine

/-- `mask(k) = 2^k - 1`, for k at most 8 (R10). -/
def mask (k : Nat) : Byte := BitVec.ofNat 8 (2 ^ k - 1)

/-- `clamp8(N) = min(N, 8)` (R10), the effective width of a raw width (R59). -/
def clamp8 (N : Nat) : Nat := min N 8

/-- The effective value of WR.BITS: the low `n` bits of V (R60). -/
def valueOperand (V n : Nat) : Byte := BitVec.ofNat 8 V &&& mask n

/-- `zext_8` of a count (R10, R63). -/
def zext8 (k : Nat) : Byte := BitVec.ofNat 8 k

/-- The low `n` bits of a byte in stream order, the most significant first (`00_scope.md` R9). -/
def bitsOf (v : Byte) : Nat → List Bool
  | 0 => []
  | n + 1 => v.getLsbD n :: bitsOf v n

/-- The bit stream of a sequence of bytes: the bytes in order, each with bit 7 first (R35, R36). -/
def streamOf (bytes : List Byte) : List Bool :=
  bytes.flatMap (bitsOf · 8)

/-- `srcbit(k) = byte[k // 8][7 - (k % 8)]` (R35). -/
def srcbit (bytes : List Byte) (k : Nat) : Bool :=
  (bytes.getD (k / 8) 0).getLsbD (7 - k % 8)

/-- The numeric value of a bit group, its first bit the most significant (R37). -/
def groupValue : List Bool → Nat
  | [] => 0
  | b :: bs => b.toNat * 2 ^ bs.length + groupValue bs

/-- A reader's position in its source's bit stream, `pos = 8 * B - R.count` (`40_reader.md` R71). -/
def Reader.position (r : Reader) : Nat := 8 * r.delivered.length - r.count

/-- The bits a writer has put into its sink or still holds, in stream order (R36). -/
def Writer.stream (w : Writer) : List Bool :=
  streamOf w.accepted ++ bitsOf w.acc w.filled

end Sys2Proof.Machine
end

