-- ==== Sys2Proof/Machine/Flags.lean ====
section
/-! DEFINITION. The core has no flags (`10_state.md` R23): the status of a response is the only indication of a
command's outcome. This file gives its wire form (`30_encoding.md` R61, R62). -/

namespace Sys2Proof.Machine

/-- What R62 asks of the map `ErrCode`: its values are 0x03 to 0xFF, and it is injective on as many codes as there
are such values. -/
abbrev ErrCodeAllowed (f : Nat → Byte) : Prop :=
  (∀ k : Fin 253, 3 ≤ (f k).toNat) ∧ ∀ i j : Fin 253, f i = f j → i = j

/-- The map `ErrCode` (R62): the open parameter of Config where that meets R62, and the map `k ↦ 3 + k` where it does
not; so it is some map that R62 allows, and nothing says which (log 8). It is a map of the numbers of the further codes,
whether or not a number names one. Codes past the 253rd repeat. -/
def errCode (k : Nat) : Byte :=
  if ErrCodeAllowed Config.errCodeParameter then Config.errCodeParameter (k % 253)
  else BitVec.ofNat 8 (3 + k % 253)

/-- STATUS (R62). -/
def Status.code : Status → Byte
  | .ok => 0x00
  | .err .exhausted => 0x01
  | .err .ioFailure => 0x02
  | .err (.other c) => errCode c.val

/-- The response word: STATUS in bits 31:24, zeros in 23:8, DATA in 7:0 (R61). -/
def Response.word (r : Response) : Word :=
  r.status.code ++ (0 : BitVec 16) ++ r.data

/-- The host reads the data of a response as a boolean (`40_reader.md` R73: "1=true, 0=false"). -/
def Response.asBool (r : Response) : Bool := r.data == 0x01

end Sys2Proof.Machine
end

