-- ==== Sys2Proof/Machine/Ops.lean ====
section
/-! DEFINITION. The named operations over State: the stream tables, the units, the host's buffers, and how a
command ends. A command that meets an error ends by `respondError`, the one operation the whole model uses for it
(`60_exceptions.md` R99): errors are responses, and there is no trap entry or return (R105). -/

namespace Sys2Proof.Machine

/-! ## Tables of streams, in one canonical form (log 3) -/

/-- The entry under `k`, or `d` where none is listed. -/
def portGet {α : Type} (d : α) : List (Nat × α) → Nat → α
  | [], _ => d
  | (j, a) :: l, k => if j = k then a else portGet d l k

/-- The table with `v` under `k`; an entry equal to `d` is not listed. -/
def portSet {α : Type} [DecidableEq α] (d : α) : List (Nat × α) → Nat → α → List (Nat × α)
  | [], k, v => if v = d then [] else [(k, v)]
  | (j, a) :: l, k, v =>
    if k < j then (if v = d then (j, a) :: l else (k, v) :: (j, a) :: l)
    else if j = k then (if v = d then l else (k, v) :: l)
    else (j, a) :: portSet d l k v

/-- The canonical form: numbers strictly rising, and no entry equal to what an unlisted number means. -/
abbrev portWf {α : Type} (d : α) (l : List (Nat × α)) : Prop :=
  l.Pairwise (fun p q => p.1 < q.1) ∧ ∀ p ∈ l, p.2 ≠ d

/-- The external source number `k`. -/
def State.source (s : State) (k : Nat) : Source := portGet Source.untouched s.sources k

/-- The state with source number `k` replaced. -/
def State.setSource (s : State) (k : Nat) (x : Source) : State :=
  { s with sources := portSet Source.untouched s.sources k x }

/-- The external sink number `k`. -/
def State.sink (s : State) (k : Nat) : Sink := portGet Sink.untouched s.sinks k

/-- The state with sink number `k` replaced. -/
def State.setSink (s : State) (k : Nat) (x : Sink) : State :=
  { s with sinks := portSet Sink.untouched s.sinks k x }

/-! ## Units -/

/-- The state with the unit at handle `h` replaced; no effect where `h` names none. -/
def State.setUnit (s : State) (h : Nat) (u : BitUnit) : State :=
  { s with units := s.units.set h u }

/-- The state with one more unit, whose handle is the number of units before (log 2). -/
def State.addUnit (s : State) (u : BitUnit) : State :=
  { s with units := s.units ++ [u] }

/-- The kind of a unit (`00_scope.md` R1). -/
def BitUnit.kind : BitUnit → UnitKind
  | .reader _ => .reader
  | .writer _ => .writer

/-- The reader at `h`; a fresh one where there is none (used only after `asReader` has checked the handle). -/
def State.readerAt (s : State) (h : Nat) : Reader :=
  match s.units[h]? with
  | some (.reader r) => r
  | _ => Reader.fresh (.external 0)

/-- The writer at `h`; a fresh one where there is none (used only after `asWriter` has checked the handle). -/
def State.writerAt (s : State) (h : Nat) : Writer :=
  match s.units[h]? with
  | some (.writer w) => w
  | _ => Writer.fresh (.external 0)

/-! ## Host buffers (`20_memory.md` R44) -/

/-- A byte buffer; the empty one where the host has none of that name (log 10). -/
def State.buffer (s : State) (b : Nat) : List Byte := s.buffers.getD b []

/-- `BufWrite(buf, i, v)` (R44). -/
def State.bufWrite (s : State) (b : Nat) (i : Nat) (v : Byte) : State :=
  { s with buffers := s.buffers.set b ((s.buffer b).set i v) }

/-- The elements of a buffer from index `i` on become unspecified (D17, 93-4): each a free value of its own
(log 9). -/
def State.spoilBuffer (s : State) (b : Nat) (i : Nat) : State :=
  let rest := (s.buffer b).length - i
  { s with
    buffers := s.buffers.set b ((s.buffer b).take i ++
      (List.range rest).map fun j => Config.freeByte (s.freeDraws + j))
    freeDraws := s.freeDraws + rest }

/-- A boolean sequence; the empty one where the host has none of that name (log 10). -/
def State.boolSeq (s : State) (q : Nat) : List Bool := s.boolSeqs.getD q []

/-- The host gets a new boolean sequence of length `n` that holds `got` and, from there on, unspecified elements
(`40_reader.md` R74, D17, 93-4; log 9). -/
def State.newSequence (s : State) (got : List Bool) (n : Nat) : State :=
  let rest := n - got.length
  { s with
    boolSeqs := s.boolSeqs ++ [got ++ (List.range rest).map fun j => Config.freeBool (s.freeDraws + j)]
    freeDraws := s.freeDraws + rest }

/-! ## How far an operation runs -/

/-- What becomes of an operation of the host inside one step: it is done, with a value; a stream it waits for never
answers, so that it is not done and never will be (`20_memory.md` R55); a modelling error; or it is refused. -/
inductive Ran (α : Type) where
  | done (a : α) (s : State)
  | blocked (s : State)
  | fault (f : Fault)
  | refused (r : Refusal)
deriving DecidableEq, Repr

/-- Go on with the value and the state of an operation that is done. -/
def Ran.bind {α β : Type} (m : Ran α) (f : α → State → Ran β) : Ran β :=
  match m with
  | .done a s => f a s
  | .blocked s => .blocked s
  | .fault e => .fault e
  | .refused r => .refused r

/-- The outcome of a step that performs an operation: the host gets the value an operation that is done returns,
and nothing from one that waits for ever. -/
def Ran.finish {α : Type} (ret : α → Returned) (m : Ran α) : Host.Outcome State Fault Refusal :=
  match m with
  | .done a s => .next { s with returned := some (ret a) }
  | .blocked s => .next { s with returned := none }
  | .fault e => .fault e
  | .refused r => .refused r

/-! ## Responses (`30_encoding.md` R61) -/

/-- The state after the unit at `h` has delivered a response. -/
def State.addResponse (s : State) (h : Nat) (r : Response) : State :=
  { s with responses := s.responses ++ [(h, r)] }

/-- `respond (status, data)`: the command ends with its one response (R61). -/
def respond (h : Nat) (st : Status) (data : Byte) (s : State) : Ran Response :=
  .done { status := st, data := data } (s.addResponse h { status := st, data := data })

/-- A command that meets an error ends with `(ERR(e), 0x00)`, and nothing else happens (`60_exceptions.md` R99,
`30_encoding.md` R63). -/
def respondError (h : Nat) (e : ExtErr) (s : State) : Ran Response :=
  respond h (.err e) 0x00 s

/-! ## Whom a command reaches -/

/-- A command for a reader: refused where the handle names no unit (log 15), a writer (R58, R64) or a reader that is
inside another command (`70_reset_and_hazards.md` R116). -/
def asReader {α : Type} (h : Nat) (s : State) (command : Reader → Ran α) : Ran α :=
  match s.units[h]? with
  | none => .refused (.noSuchUnit h)
  | some (.writer _) => .refused (.wrongKind h)
  | some (.reader r) => if r.micro = .idle then command r else .refused (.busy h)

/-- A command for a writer, likewise. -/
def asWriter {α : Type} (h : Nat) (s : State) (command : Writer → Ran α) : Ran α :=
  match s.units[h]? with
  | none => .refused (.noSuchUnit h)
  | some (.reader _) => .refused (.wrongKind h)
  | some (.writer w) => if w.micro = .idle then command w else .refused (.busy h)

end Sys2Proof.Machine
end

