-- ==== Sys2Proof/Machine/Sync.lean ====
section
/-! DEFINITION. Stream transactions (`20_memory.md` R40, R41) with external streams, and the two procedures that
synchronise a unit with its stream (`42_stream_sync.md`): Refill (R90) and Emit (R94). What the stream behind a
binding does is passed in: Reader.lean and Writer.lean give it for every binding. -/

namespace Sys2Proof.Machine

/-- What source number `k` does with its next request: its script first, then its tail (log 3). -/
def Source.next (x : Source) (k : Nat) : SrcEvent :=
  match x.script with
  | e :: _ => e
  | [] =>
    match x.tail with
    | .always e => e
    | .oracle => .reply (Config.sourceOracle k x.log.length)

/-- The source after it has given an answer. -/
def Source.advance (x : Source) (r : SrcReply) : Source :=
  { x with script := x.script.tail, log := x.log ++ [r] }

/-- `SrcRead()` on an external source: one blocking transaction for one byte (R40). A source that never answers
blocks it (R55); an answer outside the protocol is a modelling error (93-10). DESIGN CHOICE, log 4: the spec does not say
whether a stream that has left one request unanswered can still answer another, of a second instance bound to it. Here it
cannot: `never` stays the source's next event, so every later request to it blocks too, and what its script lists after
`never` is not reached. -/
def pullSource (k : Nat) (s : State) : Ran SrcReply :=
  match (s.source k).next k with
  | .reply r => .done r (s.setSource k ((s.source k).advance r))
  | .never => .blocked s
  | .zeroBytes => .fault .sourceProtocol
  | .byteWithError _ _ => .fault .sourceProtocol

/-- What sink number `k` does with its next offer. -/
def Sink.next (x : Sink) (k : Nat) : SinkEvent :=
  match x.script with
  | e :: _ => e
  | [] =>
    match x.tail with
    | .always e => e
    | .oracle => .reply (Config.sinkOracle k x.log.length)

/-- The sink after it has answered the offer of `b`. -/
def Sink.advance (x : Sink) (b : Byte) (r : SinkReply) : Sink :=
  { x with script := x.script.tail, log := x.log ++ [(b, r)] }

/-- The bytes a sink has accepted, oldest first (`70_reset_and_hazards.md` R115). What it did with a byte it answered
`Err` to is not said (93-11). -/
def Sink.accepted (x : Sink) : List Byte :=
  x.log.filterMap fun p => if p.2 = .ok then some p.1 else none

/-- `SinkWrite(b)` on an external sink: one blocking transaction (R41, R55, 93-10). DESIGN CHOICE, log 4: as with a
source, a sink that has left one offer unanswered answers no later offer either, of any instance bound to it. -/
def offerSink (k : Nat) (b : Byte) (s : State) : Ran SinkReply :=
  match (s.sink k).next k with
  | .reply r => .done r (s.setSink k ((s.sink k).advance b r))
  | .never => .blocked s
  | .partialWrite => .fault .sinkProtocol

/-- What an adapter over a reader answers: the byte its one-element readByteStream filled, or the error it met
(`40_reader.md` R75). -/
def Response.asSrcReply (r : Response) : SrcReply :=
  match r.status with
  | .ok => .byte r.data
  | .err e => .err e

/-- What an adapter over a writer answers (`41_writer.md` R83). -/
def Response.asSinkReply (r : Response) : SinkReply :=
  match r.status with
  | .ok => .ok
  | .err e => .err e

/-- The state in which the reader at `h` has taken byte `b` from its source (R90). -/
def State.fillReader (s : State) (h : Nat) (b : Byte) : State :=
  let r := s.readerAt h
  s.setUnit h (.reader { r with acc := b, count := 8, delivered := r.delivered ++ [b] })

/-- The state in which the reader at `h` waits for its source with `need` bits still to read (R93, R_WAIT_SRC). -/
def State.holdReader (s : State) (h : Nat) (need : Nat) (result : Byte) : State :=
  s.setUnit h (.reader { s.readerAt h with micro := .waitSrc need result })

/-- `Refill()` for the reader at `h`, whose source does `srcRead` (R90). `need` and `result` belong to the command in
progress; they are kept where the source never answers. -/
def refill (srcRead : Binding → State → Ran SrcReply) (h : Nat) (need : Nat) (result : Byte) (s : State) :
    Ran Status :=
  match srcRead (s.readerAt h).src s with
  | .done (.byte b) s1 => .done .ok (s1.fillReader h b)
  | .done (.err e) s1 => .done (.err e) s1
  | .blocked s1 => .blocked (s1.holdReader h need result)
  | .fault f => .fault f
  | .refused r => .refused r

/-- The state after the writer at `h` has had its answer for byte `b`: EMPTY, whatever the answer (R95). -/
def State.emptyWriter (s : State) (h : Nat) (b : Byte) (answer : SinkReply) : State :=
  let w := s.writerAt h
  s.setUnit h (.writer { w with
    acc := 0x00, filled := 0
    accepted := match answer with
      | .ok => w.accepted ++ [b]
      | .err _ => w.accepted })

/-- The state in which the writer at `h` waits for its sink with `need` bits of `v` still to place (R97,
W_WAIT_SNK). -/
def State.holdWriter (s : State) (h : Nat) (v : Byte) (need : Nat) : State :=
  s.setUnit h (.writer { s.writerAt h with micro := .waitSnk v need })

/-- `Emit(b)` for the writer at `h`, whose sink does `sinkWrite` (R94, R95). -/
def emit (sinkWrite : Binding → Byte → State → Ran SinkReply) (h : Nat) (b v : Byte) (need : Nat) (s : State) :
    Ran Status :=
  match sinkWrite (s.writerAt h).snk b s with
  | .done .ok s1 => .done .ok (s1.emptyWriter h b .ok)
  | .done (.err e) s1 => .done (.err e) (s1.emptyWriter h b (.err e))
  | .blocked s1 => .blocked (s1.holdWriter h v need)
  | .fault f => .fault f
  | .refused r => .refused r

end Sys2Proof.Machine
end

