-- ==== Sys2Proof/Machine/Reader.lean ====
section
/-! DEFINITION. The reader's operations (`40_reader.md`), in the order of that file: wrap_reader, RD.BITS with its
aliases, the sequence and byte-stream reads, RD.COUNT. -/

namespace Sys2Proof.Machine

/-! ## Shared operations -/

/-- One chunk of RD.BITS (the loop body of R70 after its step 1): the reader after it and the chunk's bits,
right-aligned. -/
def Reader.take (r : Reader) (need : Nat) : Reader × Byte :=
  let k := min need r.count
  ({ r with acc := r.acc &&& mask (r.count - k), count := r.count - k },
    (r.acc >>> (r.count - k)) &&& mask k)

/-- Step 1 of the loop of R70: refill only when the accumulator is empty. -/
def refillIfEmpty (srcRead : Binding → State → Ran SrcReply) (h : Nat) (need : Nat) (result : Byte)
    (s : State) : Ran Status :=
  if (s.readerAt h).count = 0 then refill srcRead h need result s else .done .ok s

/-- The loop of R70. `passes` bounds it: R43 says that two passes are enough (log 14). -/
def readChunks (srcRead : Binding → State → Ran SrcReply) (h : Nat) :
    (passes need : Nat) → (result : Byte) → State → Ran Response
  | 0, _, _, _ => .fault .chunkLoop
  | passes + 1, need, result, s =>
    (refillIfEmpty srcRead h need result s).bind fun st s1 =>
      match st with
      | .err e => respondError h e s1
      | .ok =>
        let r := s1.readerAt h
        let k := min need r.count
        let taken := r.take need
        let s2 := s1.setUnit h (.reader taken.1)
        let result' := (result <<< k) ||| taken.2
        if need - k = 0 then respond h .ok result' s2
        else readChunks srcRead h passes (need - k) result' s2

/-- RD.BITS N on the reader at `h`, whose source does `srcRead` (R70). -/
def rdBitsVia (srcRead : Binding → State → Ran SrcReply) (h : Nat) (N : Nat) (s : State) : Ran Response :=
  asReader h s fun _ => readChunks srcRead h 2 (clamp8 N) 0x00 s

/-- `SrcRead()` on the source behind a binding of the reader at `owner` (`20_memory.md` R40): an external source, or
an adapter over a reader older than `owner`, which serves the transaction by `readByteStream(h, buf[1])`, that is by
`RD.BITS 8` on `h` (R75, R118; log 6). `depth` bounds how many adapters can stand in series; `owner` itself is
enough, since each stands over an older reader. -/
def srcRead : (depth : Nat) → (owner : Nat) → Binding → State → Ran SrcReply
  | _, _, .external k, s => pullSource k s
  | 0, _, .adapter _, _ => .fault .adapterOrder
  | depth + 1, owner, .adapter h, s =>
    if h < owner then
      (rdBitsVia (srcRead depth h) h 8 s).bind fun resp s1 => .done resp.asSrcReply s1
    else .fault .adapterOrder

/-- RD.BITS N on the instance at `h` (R70). -/
def rdBits (h : Nat) (N : Nat) (s : State) : Ran Response := rdBitsVia (srcRead h h) h N s

/-- RD.COUNT on the instance at `h` (R77). -/
def rdCount (h : Nat) (s : State) : Ran Response :=
  asReader h s fun r => respond h .ok (zext8 r.count) s

/-- The loop of readBoolSequence (R74), with `m` elements still to read: the booleans read and how it ended. -/
def readBools (r : Nat) : (m : Nat) → State → Ran (List Bool × Status)
  | 0, s => .done ([], .ok) s
  | m + 1, s =>
    (rdBits r 1 s).bind fun resp s1 =>
      match resp.status with
      | .err e => .done ([], .err e) s1
      | .ok => (readBools r m s1).bind fun p s2 => .done (resp.asBool :: p.1, p.2) s2

/-- The loop of readByteStream (R75), from element `i` with `m` elements still to fill: the count of elements filled
and how it ended. On a failure the elements from the failing one to the end of the buffer are unspecified (D17;
log 9). -/
def readBytes (r : Nat) (b : Nat) : (m i : Nat) → State → Ran (Nat × Status)
  | 0, i, s => .done (i, .ok) s
  | m + 1, i, s =>
    (rdBits r 8 s).bind fun resp s1 =>
      match resp.status with
      | .err e => .done (i, .err e) (s1.spoilBuffer b i)
      | .ok => readBytes r b m (i + 1) (s1.bufWrite b i resp.data)

/-- How the bit-sequence operations split a length: whole elements and a remainder, after clamping to the buffer's
capacity (R76, R84, D18). -/
def splitBits (totalBits len : Nat) : Nat × Nat :=
  (min totalBits (8 * len) / 8, min totalBits (8 * len) % 8)

/-- readBitSequenceInto (R76): whole elements first, then the remainder where it is not 0 (D16). -/
def readBitsInto (r : Nat) (b : Nat) (totalBits : Nat) (s : State) : Ran (Nat × Status) :=
  let split := splitBits totalBits (s.buffer b).length
  (readBytes r b split.1 0 s).bind fun p s1 =>
    match p.2 with
    | .err e => .done (p.1, .err e) s1
    | .ok =>
      if split.2 = 0 then .done (split.1, .ok) s1
      else
        (rdBits r split.2 s1).bind fun resp s2 =>
          match resp.status with
          | .err e => .done (split.1, .err e) (s2.spoilBuffer b split.1)
          | .ok => .done (split.1 + 1, .ok) (s2.bufWrite b split.1 resp.data)

/-- wrap_reader (R69): an existing reader is returned as it is; anything else that can be a byte source gets a new
reader; a writer cannot. -/
def wrapReader (src : StreamHandle) (s : State) : Ran Nat :=
  match src with
  | .external k => .done s.units.length (s.addUnit (.reader (Reader.fresh (.external k))))
  | .unit h =>
    match s.units[h]? with
    | none => .refused (.noSuchUnit h)
    | some (.reader _) => .done h s
    | some (.writer _) => .refused (.wrapKind h)
  | .adapter h =>
    match s.units[h]? with
    | none => .refused (.noSuchUnit h)
    | some (.reader _) => .done s.units.length (s.addUnit (.reader (Reader.fresh (.adapter h))))
    | some (.writer _) => .refused (.wrapKind h)

/-! ## Meanings -/

/-- wrap_reader(s) (R69). -/
def execWrapReader (src : StreamHandle) (s : State) : Host.Outcome State Fault Refusal :=
  (wrapReader src s).finish .handle

/-- RD.BITS N (R70). -/
def execRdBits (N : Nat) (s : State) : Host.Outcome State Fault Refusal :=
  (rdBits s.target N s).finish .response

/-- RD.BIT (R72). -/
def execRdBit (s : State) : Host.Outcome State Fault Refusal :=
  (rdBits s.target 1 s).finish .response

/-- RD.BOOL (R73): the unit does what it does for RD.BIT; the host reads the data as a boolean. -/
def execRdBool (s : State) : Host.Outcome State Fault Refusal :=
  (rdBits s.target 1 s).finish fun r => .boolean r.asBool r.status

/-- readBoolSequence(r, n) (R74). -/
def execReadBoolSequence (r : Nat) (n : Nat) (s : State) : Host.Outcome State Fault Refusal :=
  ((readBools r n s).bind fun p s1 => .done p.2 (s1.newSequence p.1 n)).finish (.sequence s.boolSeqs.length)

/-- readByteStream(r, buf) (R75). -/
def execReadByteStream (r : Nat) (b : Nat) (s : State) : Host.Outcome State Fault Refusal :=
  (readBytes r b (s.buffer b).length 0 s).finish fun p => .count p.1 p.2

/-- readBitSequenceInto(r, buf, totalBits) (R76). -/
def execReadBitSequenceInto (r : Nat) (b : Nat) (totalBits : Nat) (s : State) :
    Host.Outcome State Fault Refusal :=
  (readBitsInto r b totalBits s).finish fun p => .count p.1 p.2

/-- RD.COUNT (R77). -/
def execRdCount (s : State) : Host.Outcome State Fault Refusal :=
  (rdCount s.target s).finish .response

end Sys2Proof.Machine
end

