-- ==== Sys2Proof/Machine/Writer.lean ====
section
/-! DEFINITION. The writer's operations (`41_writer.md`), in the order of that file: wrap_writer, WR.BITS with its
aliases, WR.FLUSH, the byte-stream and sequence writes, WR.COUNT. -/

namespace Sys2Proof.Machine

/-! ## Shared operations -/

/-- One chunk of WR.BITS (the first half of the loop body of R80): the writer after the most significant unconsumed
bits of the field `v`, `need` of them left, have been shifted in at the low end. -/
def Writer.place (w : Writer) (v : Byte) (need : Nat) : Writer :=
  let k := min need (8 - w.filled)
  { w with
    acc := (w.acc <<< k) ||| ((v >>> (need - k)) &&& mask k)
    filled := w.filled + k }

/-- The loop of R80. `passes` bounds it: R43 says that two passes are enough (log 14). -/
def writeChunks (sinkWrite : Binding → Byte → State → Ran SinkReply) (h : Nat) (v : Byte) :
    (passes need : Nat) → State → Ran Response
  | _, 0, s => respond h .ok 0x00 s
  | 0, _ + 1, _ => .fault .chunkLoop
  | passes + 1, need + 1, s =>
    let w := s.writerAt h
    let k := min (need + 1) (8 - w.filled)
    let placed := w.place v (need + 1)
    let s1 := s.setUnit h (.writer placed)
    if placed.filled = 8 then
      (emit sinkWrite h placed.acc v (need + 1 - k) s1).bind fun st s2 =>
        match st with
        | .err e => respondError h e s2
        | .ok => writeChunks sinkWrite h v passes (need + 1 - k) s2
    else writeChunks sinkWrite h v passes (need + 1 - k) s1

/-- WR.BITS V, N on the writer at `h`, whose sink does `sinkWrite` (R80). -/
def wrBitsVia (sinkWrite : Binding → Byte → State → Ran SinkReply) (h : Nat) (V N : Nat) (s : State) :
    Ran Response :=
  asWriter h s fun _ => writeChunks sinkWrite h (valueOperand V (clamp8 N)) 2 (clamp8 N) s

/-- `SinkWrite(b)` on the sink behind a binding of the writer at `owner` (`20_memory.md` R41): an external sink, or an
adapter over a writer older than `owner`, which serves the transaction by `writeByteStream(h, [b])`, that is by
`WR.BITS b, 8` on `h` (R83, R118; log 6). `depth` bounds how many adapters can stand in series. -/
def sinkWrite : (depth : Nat) → (owner : Nat) → Binding → Byte → State → Ran SinkReply
  | _, _, .external k, b, s => offerSink k b s
  | 0, _, .adapter _, _, _ => .fault .adapterOrder
  | depth + 1, owner, .adapter h, b, s =>
    if h < owner then
      (wrBitsVia (sinkWrite depth h) h b.toNat 8 s).bind fun resp s1 => .done resp.asSinkReply s1
    else .fault .adapterOrder

/-- WR.BITS V, N on the instance at `h` (R80). -/
def wrBits (h : Nat) (V N : Nat) (s : State) : Ran Response := wrBitsVia (sinkWrite h h) h V N s

/-- The byte WR.FLUSH emits: the buffered bits left-justified, the low bits zero (R82). -/
def Writer.flushByte (w : Writer) : Byte := w.acc <<< (8 - w.filled)

/-- WR.FLUSH on the instance at `h` (R82). -/
def wrFlush (h : Nat) (s : State) : Ran Response :=
  asWriter h s fun w =>
    if w.filled = 0 then respond h .ok 0x00 s
    else
      (emit (sinkWrite h h) h w.flushByte 0x00 0 s).bind fun st s1 =>
        match st with
        | .err e => respondError h e s1
        | .ok => respond h .ok 0x00 s1

/-- WR.COUNT on the instance at `h` (R88). -/
def wrCount (h : Nat) (s : State) : Ran Response :=
  asWriter h s fun w => respond h .ok (zext8 w.filled) s

/-- The V operand by which WR.BOOL writes a boolean (R86). -/
def boolOperand (t : Bool) : Nat := if t then 1 else 0

/-- The loop of writeByteStream (R83), from element `i` on: the count of elements written and how it ended. -/
def writeBytes (w : Nat) : (bytes : List Byte) → (i : Nat) → State → Ran (Nat × Status)
  | [], i, s => .done (i, .ok) s
  | b :: bytes, i, s =>
    (wrBits w b.toNat 8 s).bind fun resp s1 =>
      match resp.status with
      | .err e => .done (i, .err e) s1
      | .ok => writeBytes w bytes (i + 1) s1

/-- writeBitSequenceFrom (R84): whole elements first, then the low bits of the next one where the remainder is not 0
(D16). -/
def writeBitsFrom (w : Nat) (b : Nat) (totalBits : Nat) (s : State) : Ran (Nat × Status) :=
  let buf := s.buffer b
  let split := splitBits totalBits buf.length
  (writeBytes w (buf.take split.1) 0 s).bind fun p s1 =>
    match p.2 with
    | .err e => .done (p.1, .err e) s1
    | .ok =>
      if split.2 = 0 then .done (split.1, .ok) s1
      else
        (wrBits w (buf.getD split.1 0).toNat split.2 s1).bind fun resp s2 =>
          match resp.status with
          | .err e => .done (split.1, .err e) s2
          | .ok => .done (split.1 + 1, .ok) s2

/-- The loop of writeBoolSequence (R87): how it ended. -/
def writeBools (w : Nat) : List Bool → State → Ran Status
  | [], s => .done .ok s
  | t :: seq, s =>
    (wrBits w (boolOperand t) 1 s).bind fun resp s1 =>
      match resp.status with
      | .err e => .done (.err e) s1
      | .ok => writeBools w seq s1

/-- wrap_writer (R79): an existing writer is returned as it is; anything else that can be a byte sink gets a new
writer; a reader cannot. -/
def wrapWriter (snk : StreamHandle) (s : State) : Ran Nat :=
  match snk with
  | .external k => .done s.units.length (s.addUnit (.writer (Writer.fresh (.external k))))
  | .unit h =>
    match s.units[h]? with
    | none => .refused (.noSuchUnit h)
    | some (.writer _) => .done h s
    | some (.reader _) => .refused (.wrapKind h)
  | .adapter h =>
    match s.units[h]? with
    | none => .refused (.noSuchUnit h)
    | some (.writer _) => .done s.units.length (s.addUnit (.writer (Writer.fresh (.adapter h))))
    | some (.reader _) => .refused (.wrapKind h)

/-! ## Meanings -/

/-- wrap_writer(k) (R79). -/
def execWrapWriter (snk : StreamHandle) (s : State) : Host.Outcome State Fault Refusal :=
  (wrapWriter snk s).finish .handle

/-- WR.BITS V, N (R80). -/
def execWrBits (V N : Nat) (s : State) : Host.Outcome State Fault Refusal :=
  (wrBits s.target V N s).finish .response

/-- WR.FLUSH (R82). -/
def execWrFlush (s : State) : Host.Outcome State Fault Refusal :=
  (wrFlush s.target s).finish .response

/-- writeByteStream(w, buf) (R83). -/
def execWriteByteStream (w : Nat) (b : Nat) (s : State) : Host.Outcome State Fault Refusal :=
  (writeBytes w (s.buffer b) 0 s).finish fun p => .count p.1 p.2

/-- writeBitSequenceFrom(w, buf, totalBits) (R84). -/
def execWriteBitSequenceFrom (w : Nat) (b : Nat) (totalBits : Nat) (s : State) :
    Host.Outcome State Fault Refusal :=
  (writeBitsFrom w b totalBits s).finish fun p => .count p.1 p.2

/-- WR.BIT b (R85). -/
def execWrBit (b : Nat) (s : State) : Host.Outcome State Fault Refusal :=
  (wrBits s.target b 1 s).finish .response

/-- WR.BOOL t (R86). -/
def execWrBool (t : Bool) (s : State) : Host.Outcome State Fault Refusal :=
  (wrBits s.target (boolOperand t) 1 s).finish .response

/-- writeBoolSequence(w, seq) (R87). -/
def execWriteBoolSequence (w : Nat) (q : Nat) (s : State) : Host.Outcome State Fault Refusal :=
  (writeBools w (s.boolSeq q) s).finish .status

/-- WR.COUNT (R88). -/
def execWrCount (s : State) : Host.Outcome State Fault Refusal :=
  (wrCount s.target s).finish .response

end Sys2Proof.Machine
end

