-- ==== Sys2Proof/Machine/Dispatch.lean ====
section
/-! DEFINITION. The meaning of every instruction: one arm for each constructor of `Instr`. -/

namespace Sys2Proof.Machine

def exec (i : Instr) (s : State) : Host.Outcome State Fault Refusal :=
  match i with
  | .rdBits N => Sys2Proof.Machine.execRdBits N s
  | .rdCount => Sys2Proof.Machine.execRdCount s
  | .wrBits V N => Sys2Proof.Machine.execWrBits V N s
  | .wrFlush => Sys2Proof.Machine.execWrFlush s
  | .wrCount => Sys2Proof.Machine.execWrCount s
  | .rdBit => Sys2Proof.Machine.execRdBit s
  | .rdBool => Sys2Proof.Machine.execRdBool s
  | .wrBit b => Sys2Proof.Machine.execWrBit b s
  | .wrBool t => Sys2Proof.Machine.execWrBool t s
  | .wrapReader src => Sys2Proof.Machine.execWrapReader src s
  | .readBoolSequence r n => Sys2Proof.Machine.execReadBoolSequence r n s
  | .readByteStream r b => Sys2Proof.Machine.execReadByteStream r b s
  | .readBitSequenceInto r b totalBits => Sys2Proof.Machine.execReadBitSequenceInto r b totalBits s
  | .wrapWriter snk => Sys2Proof.Machine.execWrapWriter snk s
  | .writeByteStream w b => Sys2Proof.Machine.execWriteByteStream w b s
  | .writeBitSequenceFrom w b totalBits => Sys2Proof.Machine.execWriteBitSequenceFrom w b totalBits s
  | .writeBoolSequence w q => Sys2Proof.Machine.execWriteBoolSequence w q s

end Sys2Proof.Machine
end

