-- ==== Sys2Proof/Machine/Fetch.lean ====
section
/-! DEFINITION. How the machine comes by its next instruction. There is no program counter and no fetch from memory
(`10_state.md` R25, `20_memory.md` R54): the host issues its operations one at a time, in order (R50), so the machine
takes the first operation of State's queue. -/

namespace Sys2Proof.Machine

/-- What the head of the queue gives: nothing to do, an instruction with the state it runs in, or a refusal. -/
inductive Fetched where
  | idle
  | run (i : Instr) (s : State)
  | refused (why : Refusal)
deriving DecidableEq, Repr

/-- The state in which the operation at the head of the queue has been taken, addressed to `h`. -/
def State.takeOp (s : State) (h : Nat) (rest : List HostOp) : State :=
  { s with queue := rest, target := h }

/-- Take the next operation: decode a command word (`30_encoding.md` R58; a refused word gets no step, R64), or let
the assembler check a line (R65, R66). -/
def State.fetch (s : State) : Fetched :=
  match s.queue with
  | [] => .idle
  | .word h w :: rest =>
    match decode w with
    | .command i => .run i (s.takeOp h rest)
    | .refused why => .refused (.undecodable why)
  | .line h i :: rest =>
    if i.wellFormed then .run i (s.takeOp h rest) else .refused .notAssembled

/-- The unit is of kind `k` and between commands. -/
def BitUnit.ready (k : UnitKind) : BitUnit → Bool
  | .reader r => k = .reader && r.micro = .idle
  | .writer w => k = .writer && w.micro = .idle

/-- A stream number above every listed one. -/
def unlistedStream {α : Type} (l : List (Nat × α)) : Nat :=
  l.foldl (fun m p => max m (p.1 + 1)) 0

/-- What the host must do before its first command to an instance (`70_reset_and_hazards.md` R113), where no instance of
kind `k` is ready: have a stream that answers, and create the instance over it (log 24). -/
def State.bootUnit (s : State) (k : UnitKind) : State :=
  match k with
  | .reader =>
    let n := unlistedStream s.sources
    (s.setSource n { script := [], tail := .always (.reply (.byte 0x00)), log := [] }).addUnit
      (.reader (Reader.fresh (.external n)))
  | .writer =>
    let n := unlistedStream s.sinks
    (s.setSink n { script := [], tail := .always (.reply .ok), log := [] }).addUnit
      (.writer (Writer.fresh (.external n)))

/-- The state with the command word `w` next in the queue, addressed to the first ready instance of the kind its OPC[7]
names; where there is none, one is created first (log 24). -/
def State.placeWord (s : State) (w : Word) : State :=
  match s.units.findIdx? (BitUnit.ready (kindOfWord w)) with
  | some h => { s with queue := .word h w :: s.queue }
  | none =>
    let booted := s.bootUnit (kindOfWord w)
    { booted with queue := .word s.units.length w :: booted.queue }

end Sys2Proof.Machine
end

