-- ==== Sys2Proof/Machine/Step.lean ====
section
/-! DEFINITION. One step: the host's next operation, whole (`20_memory.md` R45, R50). -/

namespace Sys2Proof.Machine

/-- One step of the machine. With nothing queued it idles: neither unit moves unless a command drives it
(`42_stream_sync.md` R98; log 16). -/
def step (s : State) : Host.Outcome State Fault Refusal :=
  match s.fetch with
  | .idle => .next s
  | .run i s1 => exec i s1
  | .refused why => .refused why

/-- `s` with the command word `w` placed so that the next step runs it (log 24); `nbits` bits of it are given, the
others are 0. -/
def State.withFetchWord (s : State) (nbits w : Nat) : State :=
  s.placeWord (BitVec.ofNat 32 (w % 2 ^ nbits))

end Sys2Proof.Machine
end

