-- ==== Sys2Proof/Machine/Assembler.lean ====
section
/-! DEFINITION. The assembler's text (`30_encoding.md` R65, R66): a line `<handle>: <MNEMONIC> <operands>` for the five
commands and their aliases, and the calls of R67, such as `r0 = wrap_reader(src0)`. What the host's names stand for is
given beside the text (log 17). -/

namespace Sys2Proof.Machine

/-- The value of a digit character, for bases up to 16. -/
def digitValue (c : Char) : Option Nat :=
  if '0' ≤ c ∧ c ≤ '9' then some (c.toNat - '0'.toNat)
  else if 'a' ≤ c ∧ c ≤ 'f' then some (c.toNat - 'a'.toNat + 10)
  else if 'A' ≤ c ∧ c ≤ 'F' then some (c.toNat - 'A'.toNat + 10)
  else none

/-- The number whose digits follow those already read into `n`. -/
def readDigits (base : Nat) : (n : Nat) → List Char → Option Nat
  | n, [] => some n
  | n, c :: cs =>
    match digitValue c with
    | some d => if d < base then readDigits base (n * base + d) cs else none
    | none => none

/-- A number in decimal, `0x` hexadecimal or `0b` binary (R65). -/
def parseNumber : List Char → Option Nat
  | [] => none
  | '0' :: 'x' :: c :: cs => readDigits 16 0 (c :: cs)
  | '0' :: 'b' :: c :: cs => readDigits 2 0 (c :: cs)
  | c :: cs => readDigits 10 0 (c :: cs)

/-- The pieces of a text between the characters `sep`. -/
def splitAt (sep : Char) : List Char → List (List Char)
  | [] => [[]]
  | c :: cs =>
    if c = sep then [] :: splitAt sep cs
    else
      match splitAt sep cs with
      | [] => [[c]]
      | p :: ps => (c :: p) :: ps

/-- A text without the spaces around it. -/
def trimSpaces (cs : List Char) : List Char :=
  ((cs.dropWhile (· = ' ')).reverse.dropWhile (· = ' ')).reverse

/-- The operands of a line: the texts between commas; none where nothing is written. -/
def operandTexts (cs : List Char) : List (List Char) :=
  if trimSpaces cs = [] then [] else (splitAt ',' cs).map trimSpaces

/-- The instruction a mnemonic and its operand texts stand for (R65, R66), before the operands are checked to fit. -/
def parseCommand (mnemonic : List Char) (operands : List (List Char)) : Option Instr :=
  match operands with
  | [] =>
    if mnemonic = ['R', 'D', '.', 'C', 'O', 'U', 'N', 'T'] then some .rdCount
    else if mnemonic = ['W', 'R', '.', 'F', 'L', 'U', 'S', 'H'] then some .wrFlush
    else if mnemonic = ['W', 'R', '.', 'C', 'O', 'U', 'N', 'T'] then some .wrCount
    else if mnemonic = ['R', 'D', '.', 'B', 'I', 'T'] then some .rdBit
    else if mnemonic = ['R', 'D', '.', 'B', 'O', 'O', 'L'] then some .rdBool
    else none
  | [x] =>
    if mnemonic = ['R', 'D', '.', 'B', 'I', 'T', 'S'] then (parseNumber x).map .rdBits
    else if mnemonic = ['W', 'R', '.', 'B', 'I', 'T'] then (parseNumber x).map .wrBit
    else if mnemonic = ['W', 'R', '.', 'B', 'O', 'O', 'L'] then
      if x = ['t', 'r', 'u', 'e'] then some (.wrBool true)
      else if x = ['f', 'a', 'l', 's', 'e'] then some (.wrBool false)
      else none
    else none
  | [x, y] =>
    if mnemonic = ['W', 'R', '.', 'B', 'I', 'T', 'S'] then
      match parseNumber x, parseNumber y with
      | some V, some N => some (.wrBits V N)
      | _, _ => none
    else none
  | _ => none

/-- A line of the assembler: the name before the colon, and the instruction; `none` where the assembler refuses it
(R65, R66). -/
def assembleLine (line : List Char) : Option (List Char × Instr) :=
  match splitAt ':' line with
  | [name, rest] =>
    let text := trimSpaces rest
    let mnemonic := text.takeWhile (· ≠ ' ')
    match parseCommand mnemonic (operandTexts (text.drop mnemonic.length)) with
    | some i => if i.wellFormed then some (trimSpaces name, i) else none
    | none => none
  | _ => none

/-! ## Calls, and whole lines of the host's program -/

/-- What a name in the host's program stands for. -/
inductive HostName where
  | unit (h : Nat)
  | stream (k : Nat)
  | adapter (h : Nat)
  | buffer (b : Nat)
  | sequence (q : Nat)
deriving DecidableEq, Repr

/-- What a name stands for in the host's table of names. -/
def lookupName : List (List Char × HostName) → List Char → Option HostName
  | [], _ => none
  | (n, x) :: names, name => if n = name then some x else lookupName names name

/-- A name as an instance's handle. -/
def HostName.asUnit : HostName → Option Nat
  | .unit h => some h
  | .stream _ => none
  | .adapter _ => none
  | .buffer _ => none
  | .sequence _ => none

/-- A name as a byte buffer. -/
def HostName.asBuffer : HostName → Option Nat
  | .unit _ => none
  | .stream _ => none
  | .adapter _ => none
  | .buffer b => some b
  | .sequence _ => none

/-- A name as a boolean sequence. -/
def HostName.asSequence : HostName → Option Nat
  | .unit _ => none
  | .stream _ => none
  | .adapter _ => none
  | .buffer _ => none
  | .sequence q => some q

/-- A name as what `wrap` takes (`40_reader.md` R69, `41_writer.md` R79). -/
def HostName.asStream : HostName → Option StreamHandle
  | .unit h => some (.unit h)
  | .stream k => some (.external k)
  | .adapter h => some (.adapter h)
  | .buffer _ => none
  | .sequence _ => none

/-- The instruction a call stands for (R67). -/
def parseCall (names : List (List Char × HostName)) (op : List Char) (operands : List (List Char)) : Option Instr :=
  let unit (x : List Char) := (lookupName names x).bind HostName.asUnit
  let buffer (x : List Char) := (lookupName names x).bind HostName.asBuffer
  match operands with
  | [x] =>
    if op = "wrap_reader".toList then ((lookupName names x).bind HostName.asStream).map .wrapReader
    else if op = "wrap_writer".toList then ((lookupName names x).bind HostName.asStream).map .wrapWriter
    else none
  | [x, y] =>
    if op = "readBoolSequence".toList then
      (unit x).bind fun r => (parseNumber y).map fun n => .readBoolSequence r n
    else if op = "readByteStream".toList then (unit x).bind fun r => (buffer y).map fun b => .readByteStream r b
    else if op = "writeByteStream".toList then (unit x).bind fun w => (buffer y).map fun b => .writeByteStream w b
    else if op = "writeBoolSequence".toList then
      (unit x).bind fun w => ((lookupName names y).bind HostName.asSequence).map fun q => .writeBoolSequence w q
    else none
  | [x, y, z] =>
    if op = "readBitSequenceInto".toList then
      (unit x).bind fun r => (buffer y).bind fun b => (parseNumber z).map fun t => .readBitSequenceInto r b t
    else if op = "writeBitSequenceFrom".toList then
      (unit x).bind fun w => (buffer y).bind fun b => (parseNumber z).map fun t => .writeBitSequenceFrom w b t
    else none
  | _ => none

/-- A text without a closing parenthesis at its end. -/
def dropClosing (cs : List Char) : Option (List Char) :=
  match cs.reverse with
  | ')' :: rest => some rest.reverse
  | _ => none

/-- A call written `op(operands)`. -/
def assembleCall (names : List (List Char × HostName)) (text : List Char) : Option Instr :=
  match splitAt '(' (trimSpaces text) with
  | [op, rest] => (dropClosing rest).bind fun inner => parseCall names op (operandTexts inner)
  | _ => none

/-- A line of the host's program (R65): a command addressed to an instance by its name, a call, or a call whose result
gets a name. The name, where there is one, is the host's to remember. -/
def assembleOp (names : List (List Char × HostName)) (line : List Char) : Option (Option (List Char) × HostOp) :=
  if ':' ∈ line then
    (assembleLine line).bind fun p =>
      ((lookupName names p.1).bind HostName.asUnit).map fun h => (none, .line h p.2)
  else
    match splitAt '=' line with
    | [text] => (assembleCall names text).map fun i => (none, .line 0 i)
    | [name, text] => (assembleCall names text).map fun i => (some (trimSpaces name), .line 0 i)
    | _ => none

end Sys2Proof.Machine
end

