-- ==== Sys2Proof/Machine/Handshake.lean ====
section
/-! DEFINITION. The handshake machines of `42_stream_sync.md`: the reader's (R93) and the writer's (R97), one
micro-step at a time, on one instance. `none` is an event the micro-state does not accept. The meanings of
Reader.lean and Writer.lean run a whole command in one step; obligations relate the two. -/

namespace Sys2Proof.Machine

/-- What can happen to a reader: a command word, an answer of its source, or its own next micro-step. -/
inductive ReaderEvent where
  | bits (N : Nat)
  | count
  | answer (a : SrcReply)
  | tick
deriving DecidableEq, Repr

/-- What a reader puts out: nothing, one source request, or the command's response. -/
inductive ReaderOutput where
  | quiet
  | request
  | respond (r : Response)
deriving DecidableEq, Repr

/-- One row of R93. -/
def Reader.handshake (r : Reader) (ev : ReaderEvent) : Option (Reader × ReaderOutput) :=
  match r.micro, ev with
  | .idle, .count => some (r, .respond { status := .ok, data := zext8 r.count })
  | .idle, .bits N =>
    if r.count = 0 then some ({ r with micro := .waitSrc (clamp8 N) 0x00 }, .request)
    else some ({ r with micro := .extract (clamp8 N) 0x00 }, .quiet)
  | .waitSrc need result, .answer (.byte b) =>
    some ({ r with acc := b, count := 8, micro := .extract need result, delivered := r.delivered ++ [b] }, .quiet)
  | .waitSrc _ _, .answer (.err e) =>
    some ({ r with micro := .idle }, .respond { status := .err e, data := 0x00 })
  | .extract need result, .tick =>
    let k := min need r.count
    let taken := r.take need
    let result' := (result <<< k) ||| taken.2
    if need - k = 0 then some ({ taken.1 with micro := .idle }, .respond { status := .ok, data := result' })
    else some ({ taken.1 with micro := .waitSrc (need - k) result' }, .request)
  | _, _ => none

/-- A sequence of micro-steps, with everything they put out. -/
def Reader.handshakes : Reader → List ReaderEvent → Option (Reader × List ReaderOutput)
  | r, [] => some (r, [])
  | r, ev :: evs =>
    match r.handshake ev with
    | none => none
    | some (r1, out) =>
      match r1.handshakes evs with
      | none => none
      | some (r2, outs) => some (r2, out :: outs)

/-- The answers of the source among a reader's events. -/
def sourceAnswers (evs : List ReaderEvent) : List SrcReply :=
  evs.filterMap fun
    | .answer a => some a
    | _ => none

/-- What can happen to a writer. -/
inductive WriterEvent where
  | bits (V N : Nat)
  | flush
  | count
  | answer (a : SinkReply)
  | tick
deriving DecidableEq, Repr

/-- What a writer puts out: nothing, one sink request with its byte, or the command's response. -/
inductive WriterOutput where
  | quiet
  | offer (b : Byte)
  | respond (r : Response)
deriving DecidableEq, Repr

/-- One row of R97. The byte on offer in W_WAIT_SNK is the held bits left-justified: all eight after WR.BITS, the flush
byte after WR.FLUSH; on `Ok` the sink has accepted it. -/
def Writer.handshake (w : Writer) (ev : WriterEvent) : Option (Writer × WriterOutput) :=
  match w.micro, ev with
  | .idle, .count => some (w, .respond { status := .ok, data := zext8 w.filled })
  | .idle, .flush =>
    if w.filled = 0 then some (w, .respond { status := .ok, data := 0x00 })
    else some ({ w with micro := .waitSnk 0x00 0 }, .offer w.flushByte)
  | .idle, .bits V N =>
    if clamp8 N = 0 then some (w, .respond { status := .ok, data := 0x00 })
    else some ({ w with micro := .fill (valueOperand V (clamp8 N)) (clamp8 N) }, .quiet)
  | .fill v need, .tick =>
    let placed := w.place v need
    let need' := need - min need (8 - w.filled)
    if placed.filled = 8 then some ({ placed with micro := .waitSnk v need' }, .offer placed.acc)
    else some ({ placed with micro := .idle }, .respond { status := .ok, data := 0x00 })
  | .waitSnk _ _, .answer (.err e) =>
    some ({ w with acc := 0x00, filled := 0, micro := .idle }, .respond { status := .err e, data := 0x00 })
  | .waitSnk v need, .answer .ok =>
    let emptied := { w with acc := 0x00, filled := 0, accepted := w.accepted ++ [w.flushByte] }
    if need = 0 then some ({ emptied with micro := .idle }, .respond { status := .ok, data := 0x00 })
    else some ({ emptied with micro := .fill v need }, .quiet)
  | _, _ => none

/-- A sequence of micro-steps, with everything they put out. -/
def Writer.handshakes : Writer → List WriterEvent → Option (Writer × List WriterOutput)
  | w, [] => some (w, [])
  | w, ev :: evs =>
    match w.handshake ev with
    | none => none
    | some (w1, out) =>
      match w1.handshakes evs with
      | none => none
      | some (w2, outs) => some (w2, out :: outs)

/-- The bytes offered among a writer's outputs. -/
def bytesOffered (outs : List WriterOutput) : List Byte :=
  outs.filterMap fun
    | .offer b => some b
    | _ => none

/-- The answers of the sink among a writer's events. -/
def sinkAnswers (evs : List WriterEvent) : List SinkReply :=
  evs.filterMap fun
    | .answer a => some a
    | _ => none

end Sys2Proof.Machine
end

