-- ==== Sys2Proof/Safety.lean ====
section
/-! DEFINITION. What claims say of states and runs: the invariants the spec states of a unit, streams that answer, the
end of a run. -/

namespace Sys2Proof.Machine

/-- The unit at handle `h` is a reader. -/
def hasReader (units : List BitUnit) (h : Nat) : Bool :=
  match units[h]? with
  | some (.reader _) => true
  | _ => false

/-- The unit at handle `h` is a writer. -/
def hasWriter (units : List BitUnit) (h : Nat) : Bool :=
  match units[h]? with
  | some (.writer _) => true
  | _ => false

/-- A binding of the unit at `h` is one that wrap_reader can set: an external source, or an adapter over an older
reader (R69; log 6). -/
def readerBindingOk (units : List BitUnit) (h : Nat) : Binding → Bool
  | .external _ => true
  | .adapter g => decide (g < h) && hasReader units g

/-- A binding of the unit at `h` is one that wrap_writer can set (R79; log 6). -/
def writerBindingOk (units : List BitUnit) (h : Nat) : Binding → Bool
  | .external _ => true
  | .adapter g => decide (g < h) && hasWriter units g

/-- Between steps a reader is idle, or waits for a source that never answers, and is then EMPTY (R90, R93). -/
def Reader.restsOk (r : Reader) : Bool :=
  match r.micro with
  | .idle => true
  | .waitSrc need _ => decide (need ≤ 8) && decide (r.count = 0)
  | .extract _ _ => false

/-- The invariant of a reader: R17 (count and layout), R18 (the valid bits are the low bits of the last byte
delivered), and where it can rest. -/
abbrev Reader.Ok (r : Reader) : Prop :=
  r.count ≤ 8 ∧ r.acc >>> r.count = 0 ∧
  (r.count ≠ 0 → r.delivered.getLast?.map (· &&& mask r.count) = some r.acc) ∧
  r.restsOk = true

/-- At a command boundary a writer's `filled` is 0 to 7 (R30); a writer that waits for a sink that never answers holds
at least one bit (R97). -/
def Writer.restsOk (w : Writer) : Bool :=
  match w.micro with
  | .idle => decide (w.filled ≤ 7)
  | .fill _ _ => false
  | .waitSnk _ need => decide (need ≤ 7) && decide (1 ≤ w.filled) && decide (w.filled ≤ 8)

/-- The invariant of a writer: R20 (layout), R30 (range), and where it can rest. -/
abbrev Writer.Ok (w : Writer) : Prop :=
  w.acc >>> w.filled = 0 ∧ w.restsOk = true

/-- The invariant of the unit at `h`. -/
def unitOk (units : List BitUnit) (h : Nat) : BitUnit → Bool
  | .reader r => decide r.Ok && readerBindingOk units h r.src
  | .writer w => decide w.Ok && writerBindingOk units h w.snk

/-- The invariant of the machine: every unit keeps its own, and the stream tables are in their canonical form. -/
abbrev State.Ok (s : State) : Prop :=
  (∀ h, (hh : h < s.units.length) → unitOk s.units h s.units[h] = true) ∧
  portWf Source.untouched s.sources ∧ portWf Sink.untouched s.sinks

/-- Every unit is between commands: none is inside one (`70_reset_and_hazards.md` R115). -/
def State.allIdle (s : State) : Bool :=
  s.units.all fun
    | .reader r => r.micro = .idle
    | .writer w => w.micro = .idle

/-- The host program's run has ended (R115): every operation has been issued and no unit is inside a command. -/
def State.runEnded (s : State) : Bool := s.queue.isEmpty && s.allIdle

/-- What a source does is an answer within the protocol of `20_memory.md` R40. -/
def SrcEvent.answers : SrcEvent → Bool
  | .reply _ => true
  | .never => false
  | .zeroBytes => false
  | .byteWithError _ _ => false

/-- The source answers every request, within the protocol: the fairness R121 asks a claim to state. -/
def Source.answers (x : Source) : Bool :=
  x.script.all SrcEvent.answers &&
  match x.tail with
  | .always e => e.answers
  | .oracle => true

/-- What a sink does is an answer within the protocol of `20_memory.md` R41. -/
def SinkEvent.answers : SinkEvent → Bool
  | .reply _ => true
  | .never => false
  | .partialWrite => false

/-- The sink answers every offer, within the protocol. -/
def Sink.answers (x : Sink) : Bool :=
  x.script.all SinkEvent.answers &&
  match x.tail with
  | .always e => e.answers
  | .oracle => true

/-- Every external stream answers every transaction, within the protocol (R40, R41, R121). -/
abbrev State.StreamsAnswer (s : State) : Prop :=
  (∀ p ∈ s.sources, p.2.answers = true) ∧ ∀ p ∈ s.sinks, p.2.answers = true

/-- A step that is safe: it does not stop with a modelling error. -/
def Safe (o : Host.Outcome State Fault Refusal) : Prop :=
  ∀ f, o ≠ .fault f

/-- States from which every operation runs to its end: the invariant holds, no unit is inside a command, and every
external stream answers. -/
abbrev State.Fair (s : State) : Prop :=
  s.Ok ∧ s.allIdle = true ∧ s.StreamsAnswer

/-- The unit at `h`, if there is one, is bound to an external stream, not to an adapter. -/
def boundOutside (s : State) (h : Nat) : Bool :=
  match s.units[h]? with
  | none => true
  | some (.reader r) =>
    match r.src with
    | .external _ => true
    | .adapter _ => false
  | some (.writer w) =>
    match w.snk with
    | .external _ => true
    | .adapter _ => false

/-- The responses delivered by the instance at `h`, oldest first. -/
def State.responsesOf (s : State) (h : Nat) : List Response :=
  s.responses.filterMap fun p => if p.1 = h then some p.2 else none

/-- The unit at `j` and the responses it has delivered are as they were. -/
def SameAt (s t : State) (j : Nat) : Prop :=
  t.units[j]? = s.units[j]? ∧ t.responsesOf j = s.responsesOf j

/-- What reading from the reader at `h` leaves as it was: the units after it, and all others where its source is an
external stream, with their responses; the sources but its own; the sinks, the host's queue and the address of the command. -/
def ReadingLeaves (s t : State) (h : Nat) : Prop :=
  t.units.length = s.units.length ∧
  (∀ j, h < j → SameAt s t j) ∧
  (boundOutside s h = true → ∀ j, j ≠ h → SameAt s t j) ∧
  (∀ r k, s.units[h]? = some (.reader r) → r.src = .external k → ∀ j, j ≠ k → t.source j = s.source j) ∧
  (∀ (j : Nat) (w : Writer), s.units[j]? = some (BitUnit.writer w) → t.units[j]? = some (BitUnit.writer w)) ∧
  t.sinks = s.sinks ∧ t.queue = s.queue ∧ t.target = s.target

/-- What writing to the writer at `h` leaves as it was, likewise, and the host's buffers and sequences. -/
def WritingLeaves (s t : State) (h : Nat) : Prop :=
  t.units.length = s.units.length ∧
  (∀ j, h < j → SameAt s t j) ∧
  (boundOutside s h = true → ∀ j, j ≠ h → SameAt s t j) ∧
  (∀ w k, s.units[h]? = some (.writer w) → w.snk = .external k → ∀ j, j ≠ k → t.sink j = s.sink j) ∧
  (∀ (j : Nat) (r : Reader), s.units[j]? = some (BitUnit.reader r) → t.units[j]? = some (BitUnit.reader r)) ∧
  t.sources = s.sources ∧ t.queue = s.queue ∧ t.target = s.target ∧
  t.buffers = s.buffers ∧ t.boolSeqs = s.boolSeqs ∧ t.freeDraws = s.freeDraws

/-! ## What the host sees -/

/-- The state after a command of the host has ended with a response: the response delivered and returned. -/
def State.answers (s : State) (h : Nat) (r : Response) : State :=
  { s.addResponse h r with returned := some (.response r) }

/-- The unit at `h` is inside a command (R116). -/
def State.insideCommand (s : State) (h : Nat) : Bool :=
  match s.units[h]? with
  | none => false
  | some (.reader r) => r.micro ≠ .idle
  | some (.writer w) => w.micro ≠ .idle

/-- The source behind a reader's binding never answers (R55): an external source whose next event is `never`, or, through
an adapter (log 6), a reader that is inside a command because the source behind its own binding never answers. -/
inductive State.SilentSource (s : State) : Binding → Prop where
  | external (k : Nat) : (s.source k).next k = .never → s.SilentSource (.external k)
  | adapter (g : Nat) (r : Reader) : s.units[g]? = some (.reader r) → r.micro ≠ .idle → s.SilentSource r.src →
      s.SilentSource (.adapter g)

/-- The sink behind a writer's binding never answers, likewise. -/
inductive State.SilentSink (s : State) : Binding → Prop where
  | external (k : Nat) : (s.sink k).next k = .never → s.SilentSink (.external k)
  | adapter (g : Nat) (w : Writer) : s.units[g]? = some (.writer w) → w.micro ≠ .idle → s.SilentSink w.snk →
      s.SilentSink (.adapter g)

/-- The unit at `h` is inside a command that its stream never answers. -/
def State.waitsForEver (s : State) (h : Nat) : Prop :=
  (∃ r, s.units[h]? = some (.reader r) ∧ r.micro ≠ .idle ∧ s.SilentSource r.src) ∨
  (∃ w, s.units[h]? = some (.writer w) ∧ w.micro ≠ .idle ∧ s.SilentSink w.snk)

/-- The status that a host operation returns. -/
def Returned.status? : Returned → Option Status
  | .handle _ => none
  | .response r => some r.status
  | .boolean _ st => some st
  | .sequence _ st => some st
  | .count _ st => some st
  | .status st => some st

/-- A state changed in what follows a step; a stop stays what it is. -/
def mapNext (f : State → State) : Host.Outcome State Fault Refusal → Host.Outcome State Fault Refusal
  | .next s => .next (f s)
  | .fault e => .fault e
  | .refused r => .refused r

/-- The host reads a returned response as a boolean (`40_reader.md` R73). -/
def Returned.asBoolean : Returned → Returned
  | .response r => .boolean (r.data = 0x01) r.status
  | .handle h => .handle h
  | .boolean b st => .boolean b st
  | .sequence q st => .sequence q st
  | .count k st => .count k st
  | .status st => .status st

/-- The command words that read groups of the given widths from the reader at `h`. -/
def readWords (h : Nat) (widths : List Nat) : List HostOp :=
  widths.map fun n => .word h (cmd32 0x01 n 0)

/-- The command words that write the given (value, width) groups to the writer at `h`. -/
def writeWords (h : Nat) (groups : List (Nat × Nat)) : List HostOp :=
  groups.map fun g => .word h (cmd32 0x81 g.2 g.1)

/-- The bits that WR.BITS commands with the given (value, width) operands write, in stream order
(`41_writer.md` R81). -/
def fieldBits (groups : List (Nat × Nat)) : List Bool :=
  groups.flatMap fun g => bitsOf (valueOperand g.1 (clamp8 g.2)) (clamp8 g.2)

end Sys2Proof.Machine

namespace Sys2Proof

open Machine

/-! ## What an instruction does, for claims about all of them -/

/-- The handle of the instance an instruction works on; `wrap` works on none. -/
def Instr.addressed (i : Instr) (s : State) : Option Nat :=
  match i with
  | .rdBits _ => some s.target
  | .rdCount => some s.target
  | .wrBits _ _ => some s.target
  | .wrFlush => some s.target
  | .wrCount => some s.target
  | .rdBit => some s.target
  | .rdBool => some s.target
  | .wrBit _ => some s.target
  | .wrBool _ => some s.target
  | .wrapReader _ => none
  | .readBoolSequence r _ => some r
  | .readByteStream r _ => some r
  | .readBitSequenceInto r _ _ => some r
  | .wrapWriter _ => none
  | .writeByteStream w _ => some w
  | .writeBitSequenceFrom w _ _ => some w
  | .writeBoolSequence w _ => some w

/-- The instruction reads bits: it is RD.BITS or a sequence of RD.BITS (R67). -/
def Instr.readsBits (i : Instr) : Bool :=
  match i with
  | .rdBits _ => true
  | .rdCount => false
  | .wrBits _ _ => false
  | .wrFlush => false
  | .wrCount => false
  | .rdBit => true
  | .rdBool => true
  | .wrBit _ => false
  | .wrBool _ => false
  | .wrapReader _ => false
  | .readBoolSequence _ _ => true
  | .readByteStream _ _ => true
  | .readBitSequenceInto _ _ _ => true
  | .wrapWriter _ => false
  | .writeByteStream _ _ => false
  | .writeBitSequenceFrom _ _ _ => false
  | .writeBoolSequence _ _ => false

/-- The instruction can emit: it is WR.BITS, WR.FLUSH or a sequence of WR.BITS (R67, `42_stream_sync.md` R94). -/
def Instr.emitsBytes (i : Instr) : Bool :=
  match i with
  | .rdBits _ => false
  | .rdCount => false
  | .wrBits _ _ => true
  | .wrFlush => true
  | .wrCount => false
  | .rdBit => false
  | .rdBool => false
  | .wrBit _ => true
  | .wrBool _ => true
  | .wrapReader _ => false
  | .readBoolSequence _ _ => false
  | .readByteStream _ _ => false
  | .readBitSequenceInto _ _ _ => false
  | .wrapWriter _ => false
  | .writeByteStream _ _ => true
  | .writeBitSequenceFrom _ _ _ => true
  | .writeBoolSequence _ _ => true

/-- What the instruction addresses exists and is of the kind it needs. -/
def Instr.applies (i : Instr) (s : State) : Bool :=
  match i with
  | .rdBits _ => hasReader s.units s.target
  | .rdCount => hasReader s.units s.target
  | .wrBits _ _ => hasWriter s.units s.target
  | .wrFlush => hasWriter s.units s.target
  | .wrCount => hasWriter s.units s.target
  | .rdBit => hasReader s.units s.target
  | .rdBool => hasReader s.units s.target
  | .wrBit _ => hasWriter s.units s.target
  | .wrBool _ => hasWriter s.units s.target
  | .wrapReader (.external _) => true
  | .wrapReader (.unit h) => hasReader s.units h
  | .wrapReader (.adapter h) => hasReader s.units h
  | .readBoolSequence r _ => hasReader s.units r
  | .readByteStream r _ => hasReader s.units r
  | .readBitSequenceInto r _ _ => hasReader s.units r
  | .wrapWriter (.external _) => true
  | .wrapWriter (.unit h) => hasWriter s.units h
  | .wrapWriter (.adapter h) => hasWriter s.units h
  | .writeByteStream w _ => hasWriter s.units w
  | .writeBitSequenceFrom w _ _ => hasWriter s.units w
  | .writeBoolSequence w _ => hasWriter s.units w

end Sys2Proof
end

