-- ==== Sys2Proof/Certificates/Slice0/Obligations.lean ====
section
/-! DEFINITION. The statements for the provers, in the order of the spec's files. A statement about a next state of a
command writes it with `State.answers h r`: the response `r` delivered from `h` and returned to the host, everything
else as in the state before it. -/

open Sys2Proof Sys2Proof.Machine

/-! ## Encoding (`30_encoding.md`) -/

/-- R56 to R58: a word decodes to a command exactly when it is the word of that command, fields in range; so no bit of
a word is dropped and no two words decode alike. -/
def Obligations.DecodeInvertsEncode : Prop :=
  ∀ (w : Word) (i : Instr),
    decode w = .command i ↔ i.wellFormed = true ∧ i.canonical = i ∧ encode i = some w

/-- R64: exactly the listed words are refused, and a refused word, or a command sent to an instance of the wrong kind,
gets no step and no response. -/
def Obligations.RefusedWordsGetNoStep : Prop :=
  (∀ w : Word, (∃ why, decode w = .refused why) ↔
    opcField w ∉ ([0x01, 0x02, 0x81, 0x82, 0x83] : List Byte) ∨ rsvField w ≠ 0 ∨
    (opcField w = 0x01 ∧ valueField w ≠ 0) ∨
    (opcField w ∈ ([0x02, 0x82, 0x83] : List Byte) ∧ (widthField w ≠ 0 ∨ valueField w ≠ 0))) ∧
  (∀ (s : State) h w rest why, s.queue = .word h w :: rest → decode w = .refused why →
    step s = .refused (.undecodable why)) ∧
  (∀ (s : State) h w rest i u, s.queue = .word h w :: rest → decode w = .command i →
    s.units[h]? = some u → u.kind ≠ kindOfWord w → step s = .refused (.wrongKind h))

/-- R66: the words of the aliases, which operands the assembler takes for WR.BIT, and that an alias does what its
canonical command does; RD.BOOL's data is returned as a boolean. -/
def Obligations.AliasesAreTheirCanonicalCommands : Prop :=
  encode .rdBit = some 0x01000100 ∧ encode .rdBool = some 0x01000100 ∧
  encode (.wrBit 0) = some 0x81000100 ∧ encode (.wrBit 1) = some 0x81000101 ∧
  encode (.wrBool true) = some 0x81000101 ∧ encode (.wrBool false) = some 0x81000100 ∧
  (∀ b, (Instr.wrBit b).wellFormed = true ↔ b = 0 ∨ b = 1) ∧
  (∀ (i : Instr) (w : Word), i.wellFormed = true → encode i = some w → decode w = .command i.canonical) ∧
  ∀ s : State,
    exec .rdBit s = exec (.rdBits 1) s ∧
    exec .rdBool s = mapNext (fun t => { t with returned := t.returned.map Returned.asBoolean }) (exec (.rdBits 1) s) ∧
    (∀ b, exec (.wrBit b) s = exec (.wrBits b 1) s) ∧
    exec (.wrBool true) s = exec (.wrBits 1 1) s ∧ exec (.wrBool false) s = exec (.wrBits 0 1) s

/-- R68: the encoding examples, decoded and encoded, and the refused ones. -/
def Obligations.EncodingExamples : Prop :=
  (∀ p ∈ ([(.rdBits 0, 0x01000000), (.rdBits 3, 0x01000300), (.rdBits 8, 0x01000800), (.rdBits 42, 0x01002A00),
      (.rdCount, 0x02000000), (.wrBits 0b110011 6, 0x81000633), (.wrBits 0b001111 6, 0x8100060F),
      (.wrBits 0b1 1, 0x81000101), (.wrBits 0b11110000 8, 0x810008F0), (.wrBits 0xFF 42, 0x81002AFF),
      (.wrFlush, 0x82000000), (.wrCount, 0x83000000)] : List (Instr × Word)),
    encode p.1 = some p.2 ∧ decode p.2 = .command p.1) ∧
  (∀ s : State, exec (.rdBits 42) s = exec (.rdBits 8) s ∧ exec (.wrBits 0xFF 42) s = exec (.wrBits 0xFF 8) s) ∧
  decode 0x00000000 = .refused .unknownOpcode ∧ decode 0x01010300 = .refused .reservedField ∧
  decode 0x01000301 = .refused .nonzeroValue ∧ decode 0x82000100 = .refused .nonzeroWidth

/-- R59 and R60: a raw width above 8 behaves as 8, and WR.BITS uses the low n bits of V alone. -/
def Obligations.WidthsClampAndValuesMask : Prop :=
  ∀ (s : State) (N V : Nat),
    (8 ≤ N → exec (.rdBits N) s = exec (.rdBits 8) s ∧ exec (.wrBits V N) s = exec (.wrBits V 8) s) ∧
    (∀ V', V % 2 ^ min N 8 = V' % 2 ^ min N 8 → exec (.wrBits V N) s = exec (.wrBits V' N) s)

/-- R61 and R62: the fields of the response word; STATUS is 0x00, 0x01 or 0x02 for the named outcomes, and for a further
code, whichever there are (log 7), the value of a map that is 0x03 or more and is one to one on as many codes as there are
such values (log 8). -/
def Obligations.ResponseWordFields : Prop :=
  (∀ r : Response, r.word.extractLsb' 24 8 = r.status.code ∧ r.word.extractLsb' 8 16 = 0 ∧
    r.word.extractLsb' 0 8 = r.data) ∧
  Status.code .ok = 0x00 ∧ Status.code (.err .exhausted) = 0x01 ∧ Status.code (.err .ioFailure) = 0x02 ∧
  (∀ c : FurtherCode, Status.code (.err (.other c)) = errCode c.val) ∧
  (∀ k, 3 ≤ (errCode k).toNat) ∧ (∀ j k, j < 253 → k < 253 → errCode j = errCode k → j = k)

/-! ## The machine's step (`20_memory.md`, `30_encoding.md`) -/

/-- R50, R58, R65: a step runs the decoded instruction of the word at the head of the queue, or the line there that the
assembler accepts, addressed to its handle, with the queue moved past it. -/
def Obligations.StepRunsDecodedInstruction : Prop :=
  (∀ (s : State) h w rest i, s.queue = .word h w :: rest → decode w = .command i →
    step s = exec i { s with queue := rest, target := h }) ∧
  (∀ (s : State) h i rest, s.queue = .line h i :: rest → i.wellFormed = true →
    step s = exec i { s with queue := rest, target := h }) ∧
  (∀ (s : State) h i rest, s.queue = .line h i :: rest → i.wellFormed = false → step s = .refused .notAssembled)

/-- R65, R66: an assembled line runs as its word does (RD.BOOL, whose word is RD.BITS 1, returns a boolean instead). -/
def Obligations.AssembledLineRunsAsItsWord : Prop :=
  ∀ (s : State) (h : Nat) (i : Instr) (w : Word) (rest : List HostOp),
    i.wellFormed = true → encode i = some w → i ≠ .rdBool →
    step { s with queue := .line h i :: rest } = step { s with queue := .word h w :: rest }

/-- R98: with no command, nothing moves. -/
def Obligations.IdleMachineStays : Prop :=
  ∀ s : State, s.queue = [] → step s = .next s

/-- R61, R55: a command that is not refused delivers exactly one response of its instance, or leaves the instance inside
the command, without a response, waiting for a stream that never answers. That the stuck command is a next state is log 4;
through adapters, log 6. That the instance stays so is `InstancesInsideACommandStayThere`. -/
def Obligations.OneResponsePerCommand : Prop :=
  ∀ (i : Instr) (s t : State), (encode i).isSome = true → exec i s = .next t →
    (∃ r, t.responsesOf s.target = s.responsesOf s.target ++ [r] ∧ t.insideCommand s.target = false) ∨
    (t.responsesOf s.target = s.responsesOf s.target ∧ t.returned = none ∧ t.waitsForEver s.target)

/-- R55: an instance inside a command stays as it is, and delivers no response, whatever the host does next, in every
operation and every step (log 4: the queue goes on; log 6: through adapters too). -/
def Obligations.InstancesInsideACommandStayThere : Prop :=
  ∀ (s t : State) (j : Nat), s.insideCommand j = true →
    (∀ i, exec i s = .next t → SameAt s t j) ∧ (step s = .next t → SameAt s t j)

/-- R63: the data of each command's response, on OK and on ERR. -/
def Obligations.ResponseDataByCommand : Prop :=
  ∀ (s t : State) (r : Response), t.returned = some (.response r) →
    (∀ N, exec (.rdBits N) s = .next t →
      (r.status = .ok → r.data >>> min N 8 = 0) ∧ (r.status ≠ .ok → r.data = 0x00)) ∧
    (exec .rdCount s = .next t →
      ∃ rd, s.units[s.target]? = some (.reader rd) ∧ r = { status := .ok, data := BitVec.ofNat 8 rd.count }) ∧
    (∀ V N, exec (.wrBits V N) s = .next t → r.data = 0x00) ∧
    (exec .wrFlush s = .next t → r.data = 0x00) ∧
    (exec .wrCount s = .next t →
      ∃ w, s.units[s.target]? = some (.writer w) ∧ r = { status := .ok, data := BitVec.ofNat 8 w.filled })

/-- R43: RD.BITS performs at most one SrcRead and no SinkWrite, WR.BITS and WR.FLUSH at most one SinkWrite and no SrcRead,
the COUNT commands neither. An instance bound to an external stream uses that one (R40, R41); through adapters, which are
log 6, it is one external stream too. -/
def Obligations.AtMostOneTransactionPerCommand : Prop :=
  ∀ (i : Instr) (s t : State), s.Ok → (encode i).isSome = true → exec i s = .next t →
    (∃ k, (∀ r j, s.units[s.target]? = some (.reader r) → r.src = .external j → j = k) ∧
      (∀ j, j ≠ k → t.source j = s.source j) ∧
      (t.source k = s.source k ∨ i.readsBits = true ∧ ∃ a, t.source k = (s.source k).advance a)) ∧
    (∃ k, (∀ w j, s.units[s.target]? = some (.writer w) → w.snk = .external j → j = k) ∧
      (∀ j, j ≠ k → t.sink j = s.sink j) ∧
      (t.sink k = s.sink k ∨ i.emitsBytes = true ∧ ∃ b a, t.sink k = (s.sink k).advance b a))

/-! ## Stream transactions (`20_memory.md`) -/

/-- R40, R41, R55, 93-10: what a transaction with an external stream does. That what a stream does next is data in State is
log 3. That a request left unanswered leaves the state as it was, so that the event `never` is not used up and every later
request to that stream blocks too, is the model's choice (log 4). -/
def Obligations.ExternalTransactions : Prop :=
  ∀ (s : State) (h k : Nat) (b : Byte),
    (∀ a, (s.source k).next k = .reply a →
      srcRead h h (.external k) s = .done a (s.setSource k ((s.source k).advance a))) ∧
    ((s.source k).next k = .never → srcRead h h (.external k) s = .blocked s) ∧
    ((s.source k).next k = .zeroBytes → srcRead h h (.external k) s = .fault .sourceProtocol) ∧
    (∀ c e, (s.source k).next k = .byteWithError c e → srcRead h h (.external k) s = .fault .sourceProtocol) ∧
    (∀ a, (s.sink k).next k = .reply a →
      sinkWrite h h (.external k) b s = .done a (s.setSink k ((s.sink k).advance b a))) ∧
    ((s.sink k).next k = .never → sinkWrite h h (.external k) b s = .blocked s) ∧
    ((s.sink k).next k = .partialWrite → sinkWrite h h (.external k) b s = .fault .sinkProtocol)

/-- R33, R75, R83, R118, as log 6 reads them: an adapter serves a transaction by one whole-byte command on the older unit
under it, and passes on what that answers. -/
def Obligations.AdapterTransactions : Prop :=
  ∀ (s : State) (h g : Nat), g < h →
    (∀ resp t, rdBits g 8 s = .done resp t →
      srcRead h h (.adapter g) s =
        .done (match resp.status with | .ok => .byte resp.data | .err e => .err e) t) ∧
    (∀ t, rdBits g 8 s = .blocked t → srcRead h h (.adapter g) s = .blocked t) ∧
    (∀ (b : Byte) resp t, wrBits g b.toNat 8 s = .done resp t →
      sinkWrite h h (.adapter g) b s = .done (match resp.status with | .ok => .ok | .err e => .err e) t) ∧
    (∀ (b : Byte) t, wrBits g b.toNat 8 s = .blocked t → sinkWrite h h (.adapter g) b s = .blocked t)

/-! ## The reader (`40_reader.md`, `42_stream_sync.md`) -/

/-- R69: wrap_reader returns an existing reader as it is, makes a fresh reader over anything else that can be a byte
source, and is refused a writer. -/
def Obligations.WrapReader : Prop :=
  ∀ (s : State) (k h : Nat),
    exec (.wrapReader (.external k)) s =
      .next { s with
        units := s.units ++ [.reader { acc := 0x00, count := 0, src := .external k, micro := .idle, delivered := [] }]
        returned := some (.handle s.units.length) } ∧
    (∀ r, s.units[h]? = some (.reader r) →
      exec (.wrapReader (.unit h)) s = .next { s with returned := some (.handle h) } ∧
      exec (.wrapReader (.adapter h)) s =
        .next { s with
          units := s.units ++ [.reader { acc := 0x00, count := 0, src := .adapter h, micro := .idle, delivered := [] }]
          returned := some (.handle s.units.length) }) ∧
    (∀ w, s.units[h]? = some (.writer w) →
      exec (.wrapReader (.unit h)) s = .refused (.wrapKind h) ∧
      exec (.wrapReader (.adapter h)) s = .refused (.wrapKind h))

/-- R92: the reader's logical transitions, row by row. `acc` and `count` after each row give the state it goes to. -/
def Obligations.ReaderTransitions : Prop :=
  ∀ (s : State) (r : Reader) (N : Nat), s.units[s.target]? = some (.reader r) → r.micro = .idle → r.Ok →
    let h := s.target
    let c := r.count
    let n := min N 8
    let emptied : Reader := { r with acc := 0x00, count := 0 }
    (c = 0 → ∀ b s1, srcRead h h r.src s = .done (.byte b) s1 →
      exec (.rdBits N) s =
        .next ((s1.setUnit h (.reader { r with
          acc := b &&& mask (8 - n), count := 8 - n, delivered := r.delivered ++ [b] })).answers h
            { status := .ok, data := b >>> (8 - n) })) ∧
    (c = 0 → ∀ e s1, srcRead h h r.src s = .done (.err e) s1 →
      exec (.rdBits N) s = .next (s1.answers h { status := .err e, data := 0x00 }) ∧
      s1.units[h]? = some (.reader r)) ∧
    (1 ≤ c → n ≤ c →
      exec (.rdBits N) s =
        .next ((s.setUnit h (.reader { r with acc := r.acc &&& mask (c - n), count := c - n })).answers h
          { status := .ok, data := r.acc >>> (c - n) })) ∧
    (1 ≤ c → c < n → ∀ b s1, srcRead h h r.src (s.setUnit h (.reader emptied)) = .done (.byte b) s1 →
      exec (.rdBits N) s =
        .next ((s1.setUnit h (.reader { r with
          acc := b &&& mask (8 - (n - c)), count := 8 - (n - c), delivered := r.delivered ++ [b] })).answers h
            { status := .ok, data := (r.acc <<< (n - c)) ||| (b >>> (8 - (n - c))) })) ∧
    (1 ≤ c → c < n → ∀ e s1, srcRead h h r.src (s.setUnit h (.reader emptied)) = .done (.err e) s1 →
      exec (.rdBits N) s = .next (s1.answers h { status := .err e, data := 0x00 }) ∧
      s1.units[h]? = some (.reader emptied)) ∧
    exec .rdCount s = .next (s.answers h { status := .ok, data := BitVec.ofNat 8 c }) ∧
    (1 ≤ c → c < n → 1 ≤ n - c ∧ n - c ≤ 7)

/-- R72, R73: RD.BIT and RD.BOOL: one bit, which never straddles; RD.BOOL's boolean is whether the data is 0x01; a
failed one changes no state of the reader. -/
def Obligations.ReadBitAndReadBool : Prop :=
  ∀ (s : State) (r : Reader), s.units[s.target]? = some (.reader r) → r.micro = .idle → r.Ok →
    let h := s.target
    (1 ≤ r.count →
      let bit := r.acc.getLsbD (r.count - 1)
      let data : Byte := if bit then 0x01 else 0x00
      let t := s.setUnit h (.reader { r with acc := r.acc &&& mask (r.count - 1), count := r.count - 1 })
      exec .rdBit s = .next (t.answers h { status := .ok, data := data }) ∧
      exec .rdBool s =
        .next { t.answers h { status := .ok, data := data } with returned := some (.boolean bit .ok) }) ∧
    (r.count = 0 → ∀ b s1, srcRead h h r.src s = .done (.byte b) s1 →
      let bit := b.getLsbD 7
      let data : Byte := if bit then 0x01 else 0x00
      let t := s1.setUnit h (.reader { r with acc := b &&& mask 7, count := 7, delivered := r.delivered ++ [b] })
      exec .rdBit s = .next (t.answers h { status := .ok, data := data }) ∧
      exec .rdBool s =
        .next { t.answers h { status := .ok, data := data } with returned := some (.boolean bit .ok) }) ∧
    (r.count = 0 → ∀ e s1, srcRead h h r.src s = .done (.err e) s1 →
      exec .rdBit s = .next (s1.answers h { status := .err e, data := 0x00 }) ∧
      exec .rdBool s =
        .next { s1.answers h { status := .err e, data := 0x00 } with returned := some (.boolean false (.err e)) } ∧
      s1.units[h]? = some (.reader r))

/-- R71: a successful RD.BITS returns the group value of the next n bits of the source's bit stream and moves the position
on by n; one that fails at its first refill leaves the position, one that fails at a continuation moves it past the bits
held at entry, which are lost. -/
def Obligations.ReaderStreamCorrectness : Prop :=
  ∀ (s t : State) (r : Reader) (N : Nat) (resp : Response),
    s.units[s.target]? = some (.reader r) → r.Ok →
    exec (.rdBits N) s = .next t → t.returned = some (.response resp) →
    ∃ r', t.units[s.target]? = some (.reader r') ∧ r.delivered <+: r'.delivered ∧
      (resp.status = .ok →
        resp.data.toNat = groupValue ((List.range (min N 8)).map fun i => srcbit r'.delivered (r.position + i)) ∧
        r'.position = r.position + min N 8) ∧
      (resp.status ≠ .ok → r'.position = r.position + r.count)

/-- R55: where the source never answers, RD.BITS leaves the reader waiting for it, without a response, and from then on
every command to that reader is refused (R116). That this is a next state, with the source as it was, is log 4. -/
def Obligations.SilentSourceBlocksReader : Prop :=
  ∀ (s : State) (r : Reader) (N k : Nat), s.units[s.target]? = some (.reader r) → r.micro = .idle → r.Ok →
    r.src = .external k → (s.source k).next k = .never → (r.count = 0 ∨ r.count < min N 8) →
    ∃ t, exec (.rdBits N) s = .next t ∧
      t = { s.setUnit s.target (.reader { r with
              acc := 0x00, count := 0, micro := .waitSrc (min N 8 - r.count) r.acc }) with returned := none } ∧
      ∀ M, exec (.rdBits M) t = .refused (.busy s.target) ∧ exec .rdCount t = .refused (.busy s.target) ∧
        exec .rdBit t = .refused (.busy s.target) ∧ exec .rdBool t = .refused (.busy s.target)

/-- R93: the reader's handshake machine, driven by the command, the source's answers and its own micro-steps, does what
RD.BITS does: the same response or wait, the same reader after it, at most one source request, and the answers are
those the source gave. That a wait for ever is a next state is log 4. -/
def Obligations.ReaderHandshakeRunsRdBits : Prop :=
  ∀ (s t : State) (r : Reader) (N : Nat), s.units[s.target]? = some (.reader r) → r.micro = .idle → r.count ≤ 8 →
    exec (.rdBits N) s = .next t →
    ∃ evs outs r', r.handshakes (.bits N :: evs) = some (r', outs) ∧
      t.units[s.target]? = some (.reader r') ∧
      (∀ ev ∈ evs, ev = .tick ∨ ∃ a, ev = .answer a) ∧
      outs.count .request ≤ 1 ∧
      ((∃ resp, t.returned = some (.response resp) ∧ outs.getLast? = some (.respond resp)) ∨
        (t.returned = none ∧ outs.getLast? = some .request)) ∧
      (∀ k, r.src = .external k → portWf Source.untouched s.sources →
        (t.source k).log = (s.source k).log ++ sourceAnswers evs)

/-- R91: a source of exactly N full bytes serves exactly 8N bits, in any split into groups of 1 to 8; the bit after them
fails with exhausted-input. -/
def Obligations.ExactlyTheBitsOfTheSource : Prop :=
  ∀ (s : State) (h k : Nat) (r : Reader) (bytes : List Byte) (widths : List Nat),
    s.units[h]? = some (.reader r) → r.micro = .idle → r.acc = 0x00 → r.count = 0 → r.src = .external k →
    portWf Source.untouched s.sources →
    (s.source k).script = bytes.map (fun b => .reply (.byte b)) →
    (s.source k).tail = .always (.reply (.err .exhausted)) →
    (∀ n ∈ widths, 1 ≤ n ∧ n ≤ 8) → widths.sum = 8 * bytes.length →
    s.queue = readWords h widths ++ [.word h 0x01000100] →
    ∃ t t' datas, Host.Core.run Sys2Proof.core widths.length s = .next t ∧
      t.responses = s.responses ++ datas.map (fun d => (h, { status := .ok, data := d })) ∧
      datas.length = widths.length ∧
      (List.zipWith bitsOf datas widths).flatten = streamOf bytes ∧
      step t = .next t' ∧ t'.returned = some (.response { status := .err .exhausted, data := 0x00 })

/-- R74: readBoolSequence, over streams that answer: the sequence of the next n bits, or, on the first error, the bits
read before it with the error; nothing else of the host's changes. -/
def Obligations.ReadBoolSequence : Prop :=
  ∀ (s : State) (h n : Nat) (r : Reader), s.Fair → s.units[h]? = some (.reader r) →
    ∃ t r' seq st, exec (.readBoolSequence h n) s = .next t ∧
      t.units[h]? = some (.reader r') ∧ t.returned = some (.sequence s.boolSeqs.length st) ∧
      r.delivered <+: r'.delivered ∧ t.boolSeqs = s.boolSeqs ++ [seq] ∧ seq.length = n ∧
      (st = .ok →
        seq = (List.range n).map (fun i => srcbit r'.delivered (r.position + i)) ∧
        r'.position = r.position + n ∧ (t.responsesOf h).length = (s.responsesOf h).length + n ∧
        t.freeDraws = s.freeDraws) ∧
      (∀ e, st = .err e → ∃ m, m < n ∧
        seq.take m = (List.range m).map (fun i => srcbit r'.delivered (r.position + i)) ∧
        r'.position = r.position + m ∧ (t.responsesOf h).length = (s.responsesOf h).length + m + 1) ∧
      ReadingLeaves s t h ∧ t.buffers = s.buffers

/-- R75: readByteStream, over streams that answer: the buffer filled with the next bits of the stream, or the elements
filled before the first error with their count; no other buffer changes. -/
def Obligations.ReadByteStream : Prop :=
  ∀ (s : State) (h b : Nat) (r : Reader), s.Fair → s.units[h]? = some (.reader r) →
    ∃ t r' i st, exec (.readByteStream h b) s = .next t ∧
      t.units[h]? = some (.reader r') ∧ t.returned = some (.count i st) ∧
      r.delivered <+: r'.delivered ∧ (t.buffer b).length = (s.buffer b).length ∧
      streamOf ((t.buffer b).take i) = (List.range (8 * i)).map (fun j => srcbit r'.delivered (r.position + j)) ∧
      (st = .ok → i = (s.buffer b).length ∧ r'.position = r.position + 8 * i ∧
        (t.responsesOf h).length = (s.responsesOf h).length + i ∧ t.freeDraws = s.freeDraws) ∧
      (∀ e, st = .err e → i < (s.buffer b).length ∧ r'.count = 0 ∧
        r.position + 8 * i ≤ r'.position ∧ r'.position ≤ r.position + 8 * i + r.count ∧
        (t.responsesOf h).length = (s.responsesOf h).length + i + 1) ∧
      (∀ c, c ≠ b → t.buffer c = s.buffer c) ∧
      ReadingLeaves s t h ∧ t.boolSeqs = s.boolSeqs

/-- R76: readBitSequenceInto, over streams that answer: T = min(totalBits, 8 * len) bits into whole elements and one
right-aligned remainder; the elements after them are untouched; or the elements filled before the first error. -/
def Obligations.ReadBitSequenceInto : Prop :=
  ∀ (s : State) (h b totalBits : Nat) (r : Reader), s.Fair → s.units[h]? = some (.reader r) →
    let T := min totalBits (8 * (s.buffer b).length)
    ∃ t r' i st, exec (.readBitSequenceInto h b totalBits) s = .next t ∧
      t.units[h]? = some (.reader r') ∧ t.returned = some (.count i st) ∧
      r.delivered <+: r'.delivered ∧ (t.buffer b).length = (s.buffer b).length ∧
      (st = .ok → i = (T + 7) / 8 ∧ r'.position = r.position + T ∧
        streamOf ((t.buffer b).take (T / 8)) ++ bitsOf ((t.buffer b).getD (T / 8) 0) (T % 8) =
          (List.range T).map (fun j => srcbit r'.delivered (r.position + j)) ∧
        (T % 8 ≠ 0 → (t.buffer b).getD (T / 8) 0 >>> (T % 8) = 0) ∧
        (t.buffer b).drop i = (s.buffer b).drop i ∧ t.freeDraws = s.freeDraws ∧
        (t.responsesOf h).length = (s.responsesOf h).length + i) ∧
      (∀ e, st = .err e → i < (T + 7) / 8 ∧ r'.count = 0 ∧
        streamOf ((t.buffer b).take i) = (List.range (8 * i)).map (fun j => srcbit r'.delivered (r.position + j)) ∧
        (t.responsesOf h).length = (s.responsesOf h).length + i + 1) ∧
      (∀ c, c ≠ b → t.buffer c = s.buffer c) ∧
      ReadingLeaves s t h ∧ t.boolSeqs = s.boolSeqs

/-- R74 to R76 over a source that delivers enough bytes: the operation ends with OK and the full count. -/
def Obligations.EnoughInputLetsReadsSucceed : Prop :=
  ∀ (s : State) (h k b n : Nat) (r : Reader) (bytes : List Byte) (rest : List SrcEvent),
    s.units[h]? = some (.reader r) → r.micro = .idle → r.Ok → r.src = .external k → portWf Source.untouched s.sources →
    (s.source k).script = bytes.map (fun v => .reply (.byte v)) ++ rest →
    let len := (s.buffer b).length
    let T := min n (8 * len)
    (n ≤ r.count + 8 * bytes.length →
      ∃ t, exec (.readBoolSequence h n) s = .next t ∧ t.returned = some (.sequence s.boolSeqs.length .ok)) ∧
    (8 * len ≤ r.count + 8 * bytes.length →
      ∃ t, exec (.readByteStream h b) s = .next t ∧ t.returned = some (.count len .ok)) ∧
    (T ≤ r.count + 8 * bytes.length →
      ∃ t, exec (.readBitSequenceInto h b n) s = .next t ∧ t.returned = some (.count ((T + 7) / 8) .ok))

/-! ## The writer (`41_writer.md`, `42_stream_sync.md`) -/

/-- R79: wrap_writer returns an existing writer as it is, makes a fresh writer over anything else that can be a byte sink,
and is refused a reader. -/
def Obligations.WrapWriter : Prop :=
  ∀ (s : State) (k h : Nat),
    exec (.wrapWriter (.external k)) s =
      .next { s with
        units := s.units ++ [.writer { acc := 0x00, filled := 0, snk := .external k, micro := .idle, accepted := [] }]
        returned := some (.handle s.units.length) } ∧
    (∀ w, s.units[h]? = some (.writer w) →
      exec (.wrapWriter (.unit h)) s = .next { s with returned := some (.handle h) } ∧
      exec (.wrapWriter (.adapter h)) s =
        .next { s with
          units := s.units ++ [.writer { acc := 0x00, filled := 0, snk := .adapter h, micro := .idle, accepted := [] }]
          returned := some (.handle s.units.length) }) ∧
    (∀ r, s.units[h]? = some (.reader r) →
      exec (.wrapWriter (.unit h)) s = .refused (.wrapKind h) ∧
      exec (.wrapWriter (.adapter h)) s = .refused (.wrapKind h))

/-- R96: the writer's logical transitions, row by row, with the byte each row offers. -/
def Obligations.WriterTransitions : Prop :=
  ∀ (s : State) (w : Writer) (V N : Nat), s.units[s.target]? = some (.writer w) → w.micro = .idle → w.Ok →
    let h := s.target
    let f := w.filled
    let n := min N 8
    let v : Byte := BitVec.ofNat 8 V &&& mask n
    let emptied : Writer := { w with acc := 0x00, filled := 0 }
    (f + n < 8 →
      exec (.wrBits V N) s =
        .next ((s.setUnit h (.writer { w with acc := (w.acc <<< n) ||| v, filled := f + n })).answers h
          { status := .ok, data := 0x00 })) ∧
    (f + n = 8 →
      let b := (w.acc <<< n) ||| v
      let full := s.setUnit h (.writer { w with acc := b, filled := 8 })
      (∀ s1, sinkWrite h h w.snk b full = .done .ok s1 →
        exec (.wrBits V N) s =
          .next ((s1.setUnit h (.writer { emptied with accepted := w.accepted ++ [b] })).answers h
            { status := .ok, data := 0x00 })) ∧
      (∀ e s1, sinkWrite h h w.snk b full = .done (.err e) s1 →
        exec (.wrBits V N) s =
          .next ((s1.setUnit h (.writer emptied)).answers h { status := .err e, data := 0x00 }))) ∧
    (8 < f + n →
      let b := (w.acc <<< (8 - f)) ||| (v >>> (f + n - 8))
      let full := s.setUnit h (.writer { w with acc := b, filled := 8 })
      (∀ s1, sinkWrite h h w.snk b full = .done .ok s1 →
        exec (.wrBits V N) s =
          .next ((s1.setUnit h (.writer { w with
            acc := v &&& mask (f + n - 8), filled := f + n - 8, accepted := w.accepted ++ [b] })).answers h
            { status := .ok, data := 0x00 })) ∧
      (∀ e s1, sinkWrite h h w.snk b full = .done (.err e) s1 →
        exec (.wrBits V N) s =
          .next ((s1.setUnit h (.writer emptied)).answers h { status := .err e, data := 0x00 }))) ∧
    (f = 0 → exec .wrFlush s = .next (s.answers h { status := .ok, data := 0x00 })) ∧
    (1 ≤ f →
      let b := w.acc <<< (8 - f)
      (∀ s1, sinkWrite h h w.snk b s = .done .ok s1 →
        exec .wrFlush s =
          .next ((s1.setUnit h (.writer { emptied with accepted := w.accepted ++ [b] })).answers h
            { status := .ok, data := 0x00 })) ∧
      (∀ e s1, sinkWrite h h w.snk b s = .done (.err e) s1 →
        exec .wrFlush s =
          .next ((s1.setUnit h (.writer emptied)).answers h { status := .err e, data := 0x00 }))) ∧
    exec .wrCount s = .next (s.answers h { status := .ok, data := BitVec.ofNat 8 f })

/-- R85, R86: WR.BIT and WR.BOOL shift one bit in; only the eighth emits. -/
def Obligations.WriteBitAndWriteBool : Prop :=
  ∀ (s : State) (w : Writer) (t : Bool), s.units[s.target]? = some (.writer w) → w.micro = .idle → w.Ok →
    let h := s.target
    let bit : Byte := if t then 0x01 else 0x00
    let b := (w.acc <<< 1) ||| bit
    let emptied : Writer := { w with acc := 0x00, filled := 0 }
    ∀ i, i = Instr.wrBool t ∨ i = Instr.wrBit (if t then 1 else 0) →
      (w.filled < 7 →
        exec i s =
          .next ((s.setUnit h (.writer { w with acc := b, filled := w.filled + 1 })).answers h
            { status := .ok, data := 0x00 })) ∧
      (w.filled = 7 →
        let full := s.setUnit h (.writer { w with acc := b, filled := 8 })
        (∀ s1, sinkWrite h h w.snk b full = .done .ok s1 →
          exec i s =
            .next ((s1.setUnit h (.writer { emptied with accepted := w.accepted ++ [b] })).answers h
              { status := .ok, data := 0x00 })) ∧
        (∀ e s1, sinkWrite h h w.snk b full = .done (.err e) s1 →
          exec i s = .next ((s1.setUnit h (.writer emptied)).answers h { status := .err e, data := 0x00 })))

/-- R81: in a run of WR.BITS without an error from an EMPTY writer (such as every error leaves), with S the bits of all
the fields: byte j accepted is the group value of bits 8j to 8j + 7 of S, the writer holds the last |S| % 8 bits, and a
WR.FLUSH then emits those followed by zeros. -/
def Obligations.WriterStreamCorrectness : Prop :=
  ∀ (s t : State) (h : Nat) (w w' : Writer) (groups : List (Nat × Nat)) (rest : List HostOp),
    s.units[h]? = some (.writer w) → w.micro = .idle → w.acc = 0x00 → w.filled = 0 →
    (∀ g ∈ groups, g.1 < 256 ∧ g.2 < 256) → s.queue = writeWords h groups ++ rest →
    Host.Core.run Sys2Proof.core groups.length s = .next t →
    t.units[h]? = some (.writer w') → w'.micro = .idle →
    (∀ r ∈ (t.responsesOf h).drop (s.responsesOf h).length, r.status = .ok) →
    let S := fieldBits groups
    w.accepted <+: w'.accepted ∧
    w'.accepted.length = w.accepted.length + S.length / 8 ∧
    (∀ j, j < S.length / 8 →
      (w'.accepted.getD (w.accepted.length + j) 0).toNat = groupValue ((S.drop (8 * j)).take 8)) ∧
    w'.filled = S.length % 8 ∧
    w'.acc.toNat = groupValue (S.drop (8 * (S.length / 8))) ∧
    (∀ t1, w'.filled ≠ 0 → exec .wrFlush { t with target := h } = .next t1 →
      t1.returned = some (.response { status := .ok, data := 0x00 }) →
      ∃ w1 b, t1.units[h]? = some (.writer w1) ∧ w1.accepted = w'.accepted ++ [b] ∧
        bitsOf b 8 = S.drop (8 * (S.length / 8)) ++ List.replicate (8 - w'.filled) false)

/-- R55: where the sink never answers, a WR.BITS that completes a byte, and a WR.FLUSH of held bits, leave the writer
waiting for it, without a response, and from then on every command to that writer is refused (R116). That this is a next
state, with the sink as it was, is log 4. -/
def Obligations.SilentSinkBlocksWriter : Prop :=
  ∀ (s : State) (w : Writer) (V N k : Nat), s.units[s.target]? = some (.writer w) → w.micro = .idle → w.Ok →
    w.snk = .external k → (s.sink k).next k = .never →
    let f := w.filled
    let n := min N 8
    let v : Byte := BitVec.ofNat 8 V &&& mask n
    ∀ i, (i = .wrBits V N ∧ 8 ≤ f + n) ∨ (i = .wrFlush ∧ 1 ≤ f) →
    ∃ t w', exec i s = .next t ∧ t = { s.setUnit s.target (.writer w') with returned := none } ∧
      (i = .wrBits V N → w' = { w with
        acc := (w.acc <<< (8 - f)) ||| (v >>> (f + n - 8)), filled := 8, micro := .waitSnk v (f + n - 8) }) ∧
      (i = .wrFlush → w' = { w with micro := .waitSnk 0x00 0 }) ∧
      ∀ V' N', exec (.wrBits V' N') t = .refused (.busy s.target) ∧ exec .wrFlush t = .refused (.busy s.target) ∧
        exec .wrCount t = .refused (.busy s.target)

/-- R97: the writer's handshake machine, driven by the command, the sink's answers and its own micro-steps, does what
WR.BITS and WR.FLUSH do: the same response or wait, the same writer after it, at most one offer, and the offers and
answers are those the sink saw and gave. That a wait for ever is a next state is log 4. -/
def Obligations.WriterHandshakeRunsCommands : Prop :=
  ∀ (s t : State) (w : Writer) (V N : Nat), s.units[s.target]? = some (.writer w) → w.micro = .idle → w.Ok →
    ∀ ev i, (ev = WriterEvent.bits V N ∧ i = Instr.wrBits V N) ∨ (ev = .flush ∧ i = .wrFlush) →
    exec i s = .next t →
    ∃ evs outs w', w.handshakes (ev :: evs) = some (w', outs) ∧
      t.units[s.target]? = some (.writer w') ∧
      (∀ e ∈ evs, e = .tick ∨ ∃ a, e = .answer a) ∧
      (bytesOffered outs).length ≤ 1 ∧
      ((∃ resp, t.returned = some (.response resp) ∧ outs.getLast? = some (.respond resp)) ∨
        (t.returned = none ∧ ∃ b, outs.getLast? = some (.offer b))) ∧
      (∀ k, w.snk = .external k → portWf Sink.untouched s.sinks →
        (t.sink k).log = (s.sink k).log ++ (bytesOffered outs).zip (sinkAnswers evs))

/-- R83: writeByteStream, over streams that answer: every element written, or the count of elements written before the
first error; the buffer is only read. -/
def Obligations.WriteByteStream : Prop :=
  ∀ (s : State) (h b : Nat) (w : Writer), s.Fair → s.units[h]? = some (.writer w) →
    let buf := s.buffer b
    ∃ t w' i st, exec (.writeByteStream h b) s = .next t ∧
      t.units[h]? = some (.writer w') ∧ t.returned = some (.count i st) ∧ w.accepted <+: w'.accepted ∧
      (st = .ok → i = buf.length ∧ w'.stream = w.stream ++ streamOf buf ∧
        (t.responsesOf h).length = (s.responsesOf h).length + i) ∧
      (∀ e, st = .err e → i < buf.length ∧ w'.acc = 0x00 ∧ w'.filled = 0 ∧
        w'.accepted.length = w.accepted.length + i ∧
        streamOf w'.accepted <+: w.stream ++ streamOf (buf.take i) ∧
        (t.responsesOf h).length = (s.responsesOf h).length + i + 1) ∧
      WritingLeaves s t h

/-- R84: writeBitSequenceFrom, over streams that answer: T = min(totalBits, 8 * len) bits from whole elements and the low
bits of the next; it does not flush; on an error the count of elements consumed before it. -/
def Obligations.WriteBitSequenceFrom : Prop :=
  ∀ (s : State) (h b totalBits : Nat) (w : Writer), s.Fair → s.units[h]? = some (.writer w) →
    let buf := s.buffer b
    let T := min totalBits (8 * buf.length)
    let bits := streamOf (buf.take (T / 8)) ++ bitsOf (buf.getD (T / 8) 0) (T % 8)
    ∃ t w' i st, exec (.writeBitSequenceFrom h b totalBits) s = .next t ∧
      t.units[h]? = some (.writer w') ∧ t.returned = some (.count i st) ∧ w.accepted <+: w'.accepted ∧
      (st = .ok → i = (T + 7) / 8 ∧ w'.stream = w.stream ++ bits ∧
        (t.responsesOf h).length = (s.responsesOf h).length + i) ∧
      (∀ e, st = .err e → i < (T + 7) / 8 ∧ w'.acc = 0x00 ∧ w'.filled = 0 ∧
        w'.accepted.length = w.accepted.length + i ∧
        streamOf w'.accepted <+: w.stream ++ streamOf (buf.take i) ∧
        (t.responsesOf h).length = (s.responsesOf h).length + i + 1) ∧
      WritingLeaves s t h

/-- R87: writeBoolSequence, over streams that answer: every boolean written as one bit, or stopped at the first error,
which is returned alone; it does not flush. -/
def Obligations.WriteBoolSequence : Prop :=
  ∀ (s : State) (h q : Nat) (w : Writer), s.Fair → s.units[h]? = some (.writer w) →
    let seq := s.boolSeq q
    ∃ t w' st, exec (.writeBoolSequence h q) s = .next t ∧
      t.units[h]? = some (.writer w') ∧ t.returned = some (.status st) ∧ w.accepted <+: w'.accepted ∧
      (st = .ok → w'.stream = w.stream ++ seq ∧
        (t.responsesOf h).length = (s.responsesOf h).length + seq.length) ∧
      (∀ e, st = .err e → w'.acc = 0x00 ∧ w'.filled = 0 ∧ ∃ m, m < seq.length ∧
        w'.accepted.length = w.accepted.length + (w.filled + m) / 8 ∧
        streamOf w'.accepted <+: w.stream ++ seq.take m ∧
        (t.responsesOf h).length = (s.responsesOf h).length + m + 1) ∧
      WritingLeaves s t h

/-- R83, R84, R87 over a sink that accepts enough bytes: the operation ends with OK and the full count. -/
def Obligations.AcceptingSinksLetWritesSucceed : Prop :=
  ∀ (s : State) (h k b q n m : Nat) (w : Writer) (rest : List SinkEvent),
    s.units[h]? = some (.writer w) → w.micro = .idle → w.Ok → w.snk = .external k → portWf Sink.untouched s.sinks →
    (s.sink k).script = List.replicate m (.reply .ok) ++ rest →
    let len := (s.buffer b).length
    let T := min n (8 * len)
    (len ≤ m → ∃ t, exec (.writeByteStream h b) s = .next t ∧ t.returned = some (.count len .ok)) ∧
    ((w.filled + T) / 8 ≤ m →
      ∃ t, exec (.writeBitSequenceFrom h b n) s = .next t ∧ t.returned = some (.count ((T + 7) / 8) .ok)) ∧
    ((w.filled + (s.boolSeq q).length) / 8 ≤ m →
      ∃ t, exec (.writeBoolSequence h q) s = .next t ∧ t.returned = some (.status .ok))

/-! ## Errors (`60_exceptions.md`) -/

/-- R101: after an error response the instance is EMPTY and idle, a reader has lost the bits it held at entry, and its
next command executes normally (shown on the COUNT command). -/
def Obligations.StateAfterAnError : Prop :=
  ∀ (i : Instr) (s t : State) (e : ExtErr) (d : Byte), s.Ok → exec i s = .next t →
    t.returned = some (.response { status := .err e, data := d }) →
    d = 0x00 ∧
    ((i.readsBits = true ∧ ∃ r r', s.units[s.target]? = some (.reader r) ∧ t.units[s.target]? = some (.reader r') ∧
        r'.acc = 0x00 ∧ r'.count = 0 ∧ r'.micro = .idle ∧ r'.delivered = r.delivered ∧
        exec .rdCount t = .next (t.answers t.target { status := .ok, data := 0x00 })) ∨
      (i.emitsBytes = true ∧ ∃ w w', s.units[s.target]? = some (.writer w) ∧ t.units[s.target]? = some (.writer w') ∧
        w'.acc = 0x00 ∧ w'.filled = 0 ∧ w'.micro = .idle ∧ w'.accepted = w.accepted ∧
        exec .wrCount t = .next (t.answers t.target { status := .ok, data := 0x00 })))

/-- R78, R89, R100: every error in a response is one that an external stream answered, unchanged (through adapters too,
which are log 6). -/
def Obligations.ErrorsComeFromStreams : Prop :=
  ∀ (i : Instr) (s t : State) (h : Nat) (e : ExtErr) (d : Byte), s.Ok → exec i s = .next t →
    (h, { status := .err e, data := d }) ∈ t.responses.drop s.responses.length →
    (i.readsBits = true ∧ ∃ k, .err e ∈ (t.source k).log.drop (s.source k).log.length) ∨
    (i.emitsBytes = true ∧ ∃ k b, (b, .err e) ∈ (t.sink k).log.drop (s.sink k).log.length)

/-- R102, R103: an operation of the host issues no command after its first error response, and reports that error. -/
def Obligations.OperationsStopAtTheFirstError : Prop :=
  ∀ (i : Instr) (s t : State) (h : Nat), i.addressed s = some h → exec i s = .next t →
    ∃ l, t.responsesOf h = s.responsesOf h ++ l ∧
      (∀ r ∈ l.dropLast, r.status = .ok) ∧
      (∀ x st, t.returned = some x → x.status? = some st →
        (st = .ok → ∀ r ∈ l, r.status = .ok) ∧
        (∀ e, st = .err e → l.getLast? = some { status := .err e, data := 0x00 }))

/-- R116: a command issued to an instance that is inside another command is refused. -/
def Obligations.BusyInstancesRefuseCommands : Prop :=
  ∀ (s : State) (u : BitUnit) (i : Instr), s.units[s.target]? = some u → s.insideCommand s.target = true →
    (encode i).isSome = true →
    exec i s = .refused (.busy s.target) ∨ exec i s = .refused (.wrongKind s.target)

/-! ## The whole machine -/

/-- R33: an operation on one instance neither reads nor writes another instance, where its own stream is an external one:
changing the other instance beforehand changes nothing but that. -/
def Obligations.InstancesAreIndependent : Prop :=
  ∀ (i : Instr) (s : State) (h j : Nat) (u : BitUnit), i.addressed s = some h → boundOutside s h = true → j ≠ h →
    exec i (s.setUnit j u) = mapNext (fun t => t.setUnit j u) (exec i s)

/-- R90, R94: only operations that read bits touch sources and readers, and only those that write or flush touch sinks and
writers; the wraps add a unit and leave the others. -/
def Obligations.OnlyReadsPullAndOnlyWritesEmit : Prop :=
  ∀ (i : Instr) (s t : State), exec i s = .next t →
    (i.readsBits = false → t.sources = s.sources ∧
      ∀ (j : Nat) (r : Reader), s.units[j]? = some (BitUnit.reader r) → t.units[j]? = some (BitUnit.reader r)) ∧
    (i.emitsBytes = false → t.sinks = s.sinks ∧
      ∀ (j : Nat) (w : Writer), s.units[j]? = some (BitUnit.writer w) → t.units[j]? = some (BitUnit.writer w))

/-- R22, R24, R98, R108: no operation ends an instance's life or changes its kind or its binding, and no response
delivered is taken back. -/
def Obligations.InstancesKeepTheirKindAndBinding : Prop :=
  ∀ (i : Instr) (s t : State), exec i s = .next t →
    (∀ (j : Nat) (r : Reader), s.units[j]? = some (BitUnit.reader r) →
      ∃ r' : Reader, t.units[j]? = some (BitUnit.reader r') ∧ r'.src = r.src) ∧
    (∀ (j : Nat) (w : Writer), s.units[j]? = some (BitUnit.writer w) →
      ∃ w' : Writer, t.units[j]? = some (BitUnit.writer w') ∧ w'.snk = w.snk) ∧
    t.units.length ≤ s.units.length + 1 ∧ s.responses <+: t.responses

/-- R31, R121, R120: where every stream answers and no instance is inside a command, every operation on an instance that
exists and is of its kind runs to its end and returns to the host, and leaves such a state again. -/
def Obligations.FairStreamsLetEveryOperationEnd : Prop :=
  ∀ (i : Instr) (s : State), s.Fair → i.applies s = true →
    ∃ t, exec i s = .next t ∧ t.Fair ∧ t.returned.isSome = true ∧ t.queue = s.queue

/-- Logs 6 and 14: in a state that keeps the invariant, no step stops for a reason of the model's own. -/
def Obligations.NoFaultOfTheModelsOwn : Prop :=
  ∀ s : State, s.Ok → step s ≠ .fault .adapterOrder ∧ step s ≠ .fault .chunkLoop

/-- R17, R18, R20, R29, R30: every step keeps the invariant of every instance and the canonical form of the stream
tables. -/
def Obligations.EveryStepKeepsTheInvariant : Prop :=
  ∀ s t : State, s.Ok → step s = .next t → t.Ok

/-- R111, R113: the machine before any creation: no instance, no operation, no response held; the invariant holds and
nothing moves. -/
def Obligations.ResetHasNoInstance : Prop :=
  State.reset.units = [] ∧ State.reset.queue = [] ∧ State.reset.responses = [] ∧ State.reset.returned = none ∧
  State.reset.Ok ∧ State.reset.Fair ∧ step State.reset = .next State.reset

/-- R35 to R37: what a writer packs a reader unpacks: groups of 1 to 8 bits written to a fresh writer over a sink that
accepts them and flushed, then read with the same widths by a fresh reader over the bytes accepted, come back as they
were. -/
def Obligations.RoundTrip : Prop :=
  ∀ (groups : List (Nat × Nat)) (s : State) (h k : Nat),
    (∀ g ∈ groups, g.1 < 256 ∧ 1 ≤ g.2 ∧ g.2 ≤ 8) →
    portWf Sink.untouched s.sinks →
    s.units[h]? = some (.writer (Writer.fresh (.external k))) →
    (s.sink k).script = [] → (s.sink k).tail = .always (.reply .ok) →
    s.queue = writeWords h groups ++ [.word h 0x82000000] →
    ∃ t w, Host.Core.run Sys2Proof.core (groups.length + 1) s = .next t ∧ t.units[h]? = some (.writer w) ∧
      (t.sink k).accepted = (s.sink k).accepted ++ w.accepted ∧
      ∀ (s2 : State) (h2 k2 : Nat), portWf Source.untouched s2.sources →
        s2.units[h2]? = some (.reader (Reader.fresh (.external k2))) →
        (s2.source k2).script = w.accepted.map (fun b => .reply (.byte b)) →
        s2.queue = readWords h2 (groups.map Prod.snd) →
        ∃ t2, Host.Core.run Sys2Proof.core groups.length s2 = .next t2 ∧
          t2.responses = s2.responses ++
            groups.map fun g => (h2, { status := .ok, data := BitVec.ofNat 8 g.1 &&& mask g.2 })
end

