-- ==== Sys2Proof/Laws/Bits.lean ====
section
/-! SUPPORT. Bytes as bit groups: what `mask`, the shifts of the chunk loops and `bitsOf` do to the bits in stream
order (`20_memory.md` R35 to R37). Later proofs cite these and unfold none of the definitions. -/

namespace Sys2Proof.Machine

/-! ## mask -/

theorem mask_getLsbD {k : Nat} (hk : k ≤ 8) (i : Nat) : (mask k).getLsbD i = decide (i < k) := by
  simp only [mask, BitVec.getLsbD_ofNat, Nat.testBit_two_pow_sub_one]
  by_cases h : i < k
  · simp [h]; omega
  · simp [h]

@[simp] theorem mask_zero : mask 0 = 0 := rfl

@[simp] theorem and_mask_zero (v : Byte) : v &&& mask 0 = 0 := by simp

@[simp] theorem and_mask_eight (v : Byte) : v &&& mask 8 = v := by
  apply BitVec.eq_of_getLsbD_eq
  intro i hi
  rw [BitVec.getLsbD_and, mask_getLsbD (by omega)]
  simp [hi]

/-- A byte has no bit at or above `n` exactly when shifting `n` bits out leaves nothing. -/
theorem shiftRight_eq_zero_iff (v : Byte) (n : Nat) : v >>> n = 0 ↔ ∀ i, n ≤ i → v.getLsbD i = false := by
  constructor
  · intro h i hi
    have := congrArg (fun x : Byte => x.getLsbD (i - n)) h
    simpa [show n + (i - n) = i by omega] using this
  · intro h
    apply BitVec.eq_of_getLsbD_eq
    intro i _
    simpa using h (n + i) (by omega)

theorem and_mask_of_shiftRight_eq_zero {v : Byte} {n : Nat} (hn : n ≤ 8) (h : v >>> n = 0) : v &&& mask n = v := by
  rw [shiftRight_eq_zero_iff] at h
  apply BitVec.eq_of_getLsbD_eq
  intro i _
  rw [BitVec.getLsbD_and, mask_getLsbD hn]
  by_cases hi : i < n
  · simp [hi]
  · simp [hi, h i (by omega)]

theorem and_mask_shiftRight_eq_zero (v : Byte) {n : Nat} (hn : n ≤ 8) : (v &&& mask n) >>> n = 0 := by
  rw [shiftRight_eq_zero_iff]
  intro i hi
  rw [BitVec.getLsbD_and, mask_getLsbD hn]
  simp [Nat.not_lt.mpr hi]

theorem and_mask_and_mask (v : Byte) {m n : Nat} (hm : m ≤ n) (hn : n ≤ 8) : v &&& mask n &&& mask m = v &&& mask m := by
  apply BitVec.eq_of_getLsbD_eq
  intro i _
  simp only [BitVec.getLsbD_and, mask_getLsbD hn, mask_getLsbD (hm.trans hn)]
  by_cases hi : i < m
  · simp [hi, show i < n by omega]
  · simp [hi]

/-! ## bitsOf -/

@[simp] theorem bitsOf_length (v : Byte) (n : Nat) : (bitsOf v n).length = n := by
  induction n with
  | zero => rfl
  | succ n ih => simp [bitsOf, ih]

theorem bitsOf_congr {u v : Byte} {n : Nat} (h : ∀ i, i < n → u.getLsbD i = v.getLsbD i) : bitsOf u n = bitsOf v n := by
  induction n with
  | zero => rfl
  | succ n ih => simp [bitsOf, h n (by omega), ih fun i hi => h i (by omega)]

theorem bitsOf_and_mask (v : Byte) {m n : Nat} (hm : m ≤ n) (hn : n ≤ 8) : bitsOf (v &&& mask n) m = bitsOf v m := by
  apply bitsOf_congr
  intro i hi
  rw [BitVec.getLsbD_and, mask_getLsbD hn]
  simp [show i < n by omega]

/-- A group splits into its earlier bits, which are the more significant ones, and its later bits. -/
theorem bitsOf_add (v : Byte) (a b : Nat) : bitsOf v (a + b) = bitsOf (v >>> b) a ++ bitsOf v b := by
  induction a with
  | zero => simp [bitsOf]
  | succ a ih =>
    rw [show a + 1 + b = (a + b) + 1 by omega, bitsOf, ih]
    simp [bitsOf, Nat.add_comm]

/-- Shifting an accumulator left by `k` and inserting a `k`-bit chunk appends the chunk's bits to its own. -/
theorem bitsOf_insert (acc c : Byte) {f k : Nat} (h : f + k ≤ 8) :
    bitsOf ((acc <<< k) ||| (c &&& mask k)) (f + k) = bitsOf acc f ++ bitsOf c k := by
  rw [bitsOf_add]
  congr 1
  · apply bitsOf_congr
    intro i hi
    rw [BitVec.getLsbD_ushiftRight, BitVec.getLsbD_or, BitVec.getLsbD_and, mask_getLsbD (by omega),
      BitVec.getLsbD_shiftLeft]
    simp [show k + i < 8 by omega]
  · apply bitsOf_congr
    intro i hi
    rw [BitVec.getLsbD_or, BitVec.getLsbD_and, mask_getLsbD (by omega), BitVec.getLsbD_shiftLeft]
    simp [hi]

theorem insert_shiftRight_eq_zero (acc c : Byte) {f k : Nat} (h : f + k ≤ 8) (hacc : acc >>> f = 0) :
    ((acc <<< k) ||| (c &&& mask k)) >>> (f + k) = 0 := by
  rw [shiftRight_eq_zero_iff] at hacc ⊢
  intro i hi
  rw [BitVec.getLsbD_or, BitVec.getLsbD_and, mask_getLsbD (by omega), BitVec.getLsbD_shiftLeft,
    hacc (i - k) (by omega)]
  simp [show ¬ i < k by omega]

/-- Two bytes with nothing above bit `n` and the same `n` low bits are equal. -/
theorem eq_of_bitsOf_eq {u v : Byte} {n : Nat} (hu : u >>> n = 0) (hv : v >>> n = 0) (h : bitsOf u n = bitsOf v n) :
    u = v := by
  rw [shiftRight_eq_zero_iff] at hu hv
  have low : ∀ i, i < n → u.getLsbD i = v.getLsbD i := by
    clear hu hv
    induction n with
    | zero => omega
    | succ n ih =>
      simp only [bitsOf, List.cons.injEq] at h
      intro i hi
      rcases Nat.lt_succ_iff_lt_or_eq.mp hi with hi | rfl
      · exact ih h.2 i hi
      · exact h.1
  apply BitVec.eq_of_getLsbD_eq
  intro i _
  by_cases hi : i < n
  · exact low i hi
  · rw [hu i (by omega), hv i (by omega)]

/-! ## Group values -/

theorem groupValue_append (a b : List Bool) : groupValue (a ++ b) = groupValue a * 2 ^ b.length + groupValue b := by
  induction a with
  | nil => simp [groupValue]
  | cons x a ih => simp [groupValue, ih, Nat.pow_add]; ring

theorem groupValue_lt (l : List Bool) : groupValue l < 2 ^ l.length := by
  induction l with
  | nil => simp [groupValue]
  | cons b l ih =>
    have : b.toNat ≤ 1 := Bool.toNat_le b
    simp only [groupValue, List.length_cons, Nat.pow_succ]
    nlinarith

/-- The value of a byte's low `n` bits (R37). -/
theorem groupValue_bitsOf (v : Byte) (n : Nat) : groupValue (bitsOf v n) = v.toNat % 2 ^ n := by
  induction n with
  | zero => simp [bitsOf, groupValue, Nat.mod_one]
  | succ n ih =>
    rw [bitsOf, groupValue, ih, bitsOf_length, Nat.mod_pow_succ]
    have : v.getLsbD n = v.toNat.testBit n := rfl
    rw [this, Nat.testBit_eq_decide_div_mod_eq]
    have hlt : v.toNat / 2 ^ n % 2 < 2 := Nat.mod_lt _ (by omega)
    by_cases h : v.toNat / 2 ^ n % 2 = 1
    · simp [h]; omega
    · simp [show v.toNat / 2 ^ n % 2 = 0 by omega]

/-- A byte with nothing above bit `n` has the value of its low `n` bits. -/
theorem toNat_eq_groupValue {v : Byte} {n : Nat} (h : v >>> n = 0) : v.toNat = groupValue (bitsOf v n) := by
  rw [groupValue_bitsOf]
  have := congrArg BitVec.toNat h
  simp only [BitVec.toNat_ushiftRight, Nat.shiftRight_eq_div_pow] at this
  exact (Nat.mod_eq_of_lt (by
    have h0 : v.toNat / 2 ^ n = 0 := by simpa using this
    exact (Nat.div_eq_zero_iff.mp h0).resolve_left (by positivity))).symm

/-! ## Byte streams -/

@[simp] theorem streamOf_nil : streamOf [] = [] := rfl

theorem streamOf_append (a b : List Byte) : streamOf (a ++ b) = streamOf a ++ streamOf b := by
  simp [streamOf]

@[simp] theorem streamOf_singleton (b : Byte) : streamOf [b] = bitsOf b 8 := by simp [streamOf]

@[simp] theorem streamOf_length (l : List Byte) : (streamOf l).length = 8 * l.length := by
  induction l with
  | nil => rfl
  | cons b l ih =>
    rw [show b :: l = [b] ++ l from rfl, streamOf_append, List.length_append, ih]
    simp; omega

theorem bitsOf_getElem? (v : Byte) (n i : Nat) (hi : i < n) : (bitsOf v n)[i]? = some (v.getLsbD (n - 1 - i)) := by
  induction n generalizing i with
  | zero => omega
  | succ n ih =>
    cases i with
    | zero => simp [bitsOf]
    | succ i => simp [bitsOf, ih i (by omega), show n - 1 - i = n - (i + 1) by omega]

/-- The bit stream of R35, bit by bit. -/
theorem streamOf_getElem? (l : List Byte) (k : Nat) (hk : k < 8 * l.length) : (streamOf l)[k]? = some (srcbit l k) := by
  induction l generalizing k with
  | nil => simp at hk
  | cons b l ih =>
    rw [show b :: l = [b] ++ l from rfl, streamOf_append]
    by_cases h : k < 8
    · rw [List.getElem?_append_left (by simpa using h), streamOf_singleton, bitsOf_getElem? _ _ _ h]
      simp [srcbit, Nat.div_eq_of_lt h, Nat.mod_eq_of_lt h]
    · rw [List.getElem?_append_right (by simpa using h), streamOf_singleton, bitsOf_length,
        ih (k - 8) (by simp at hk; omega)]
      have h1 : k / 8 = (k - 8) / 8 + 1 := by omega
      have h2 : (k - 8) % 8 = k % 8 := by omega
      simp [srcbit, h1, h2]

/-- A segment of the bit stream of R35. -/
theorem streamOf_segment (l : List Byte) (p n : Nat) (h : p + n ≤ 8 * l.length) :
    (List.range n).map (fun i => srcbit l (p + i)) = ((streamOf l).drop p).take n := by
  apply List.ext_getElem?
  intro i
  by_cases hi : i < n
  · rw [List.getElem?_take_of_lt hi, List.getElem?_drop, streamOf_getElem? _ _ (by omega)]
    simp [hi]
  · rw [List.getElem?_eq_none (by simpa using hi), List.getElem?_eq_none (by simp; omega)]

end Sys2Proof.Machine
end

