-- ==== Sys2Proof/Laws/Encoding.lean ====
section
/-! SUPPORT. The fields of a command word, and that decoding reads what encoding wrote (`30_encoding.md` R56 to R58). -/

namespace Sys2Proof

/-- A word is its four fields. -/
theorem word_of_fields (w : Word) : w = opcField w ++ rsvField w ++ widthField w ++ valueField w := by
  simp only [opcField, rsvField, widthField, valueField]
  apply BitVec.eq_of_getLsbD_eq
  intro i hi
  simp only [BitVec.getLsbD_append, BitVec.getLsbD_extractLsb']
  rcases Nat.lt_or_ge i 8 with h1 | h1
  · simp [h1]
  · rcases Nat.lt_or_ge (i - 8) 8 with h2 | h2
    · simp [show ¬ i < 8 by omega, h2, show 8 + (i - 8) = i by omega]
    · rcases Nat.lt_or_ge (i - 8 - 8) 8 with h3 | h3
      · simp [show ¬ i < 8 by omega, show ¬ i - 8 < 8 by omega, h3, show 16 + (i - 8 - 8) = i by omega]
      · simp [show ¬ i < 8 by omega, show ¬ i - 8 < 8 by omega, show ¬ i - 8 - 8 < 8 by omega,
          show 24 + (i - 8 - 8 - 8) = i by omega, show i - 8 - 8 - 8 < 8 by omega]

theorem fields_append (a b c d : Byte) :
    opcField (a ++ b ++ c ++ d : Word) = a ∧ rsvField (a ++ b ++ c ++ d : Word) = b ∧
      widthField (a ++ b ++ c ++ d : Word) = c ∧ valueField (a ++ b ++ c ++ d : Word) = d := by
  refine ⟨?_, ?_, ?_, ?_⟩ <;>
  · simp only [opcField, rsvField, widthField, valueField]
    apply BitVec.eq_of_getLsbD_eq
    intro i hi
    simp only [BitVec.getLsbD_append, BitVec.getLsbD_extractLsb', hi]
    simp [show ¬ 24 + i < 8 by omega, show ¬ 16 + i < 8 by omega, show ¬ 8 + i < 8 by omega,
      show ¬ 24 + i - 8 < 8 by omega, show ¬ 24 + i - 8 - 8 < 8 by omega, hi, show ¬ 16 + i - 8 < 8 by omega,
      show 24 + i - 8 - 8 - 8 = i by omega, show 16 + i - 8 - 8 = i by omega, show 8 + i - 8 = i by omega]

section Cmd32

variable (opc : Byte) (n v : Nat)

@[simp] theorem opcField_cmd32 : opcField (cmd32 opc n v) = opc := (fields_append _ _ _ _).1
@[simp] theorem rsvField_cmd32 : rsvField (cmd32 opc n v) = 0 := (fields_append _ _ _ _).2.1
@[simp] theorem widthField_cmd32 : widthField (cmd32 opc n v) = BitVec.ofNat 8 n := (fields_append _ _ _ _).2.2.1
@[simp] theorem valueField_cmd32 : valueField (cmd32 opc n v) = BitVec.ofNat 8 v := (fields_append _ _ _ _).2.2.2

end Cmd32

/-- A word whose RSV is 0x00 is the word of its other fields. -/
theorem cmd32_of_fields {w : Word} (h : rsvField w = 0) :
    cmd32 (opcField w) (widthField w).toNat (valueField w).toNat = w := by
  have := word_of_fields w
  rw [h] at this
  conv_rhs => rw [this]
  simp [cmd32]

theorem decode_rdBits {N : Nat} (hN : N < 256) : decode (cmd32 0x01 N 0) = .command (.rdBits N) := by
  have h : (BitVec.ofNat 8 N).toNat = N := by simp [Nat.mod_eq_of_lt hN]
  rw [decode, rsvField_cmd32, opcField_cmd32, valueField_cmd32, widthField_cmd32, h]
  rfl

theorem decode_wrBits {V N : Nat} (hV : V < 256) (hN : N < 256) :
    decode (cmd32 0x81 N V) = .command (.wrBits V N) := by
  have hn : (BitVec.ofNat 8 N).toNat = N := by simp [Nat.mod_eq_of_lt hN]
  have hv : (BitVec.ofNat 8 V).toNat = V := by simp [Nat.mod_eq_of_lt hV]
  rw [decode, rsvField_cmd32, opcField_cmd32, valueField_cmd32, widthField_cmd32, hn, hv]
  rfl

/-- Which word decodes to which command: the table of R57, read from the word. -/
theorem decode_command {w : Word} {i : Instr} (h : decode w = .command i) :
    (w = cmd32 0x01 (widthField w).toNat 0 ∧ i = .rdBits (widthField w).toNat) ∨
    (w = cmd32 0x02 0 0 ∧ i = .rdCount) ∨
    (w = cmd32 0x81 (widthField w).toNat (valueField w).toNat ∧
      i = .wrBits (valueField w).toNat (widthField w).toNat) ∨
    (w = cmd32 0x82 0 0 ∧ i = .wrFlush) ∨ (w = cmd32 0x83 0 0 ∧ i = .wrCount) := by
  have bare : ∀ {i'}, bareCommand w i' = .command i → widthField w = 0 ∧ valueField w = 0 ∧ i' = i := by
    intro i' hb
    unfold bareCommand at hb
    split at hb
    · cases hb
    · split at hb
      · cases hb
      · exact ⟨not_ne_iff.mp ‹_›, not_ne_iff.mp ‹_›, by simpa using hb⟩
  unfold decode at h
  split at h
  · cases h
  · have hw := cmd32_of_fields (not_ne_iff.mp ‹_›)
    split at h
    · next ho =>
      split at h
      · next hv =>
        rw [ho, hv] at hw
        exact .inl ⟨hw.symm, by simpa using h.symm⟩
      · cases h
    · split at h
      · next ho =>
        obtain ⟨hn, hv, rfl⟩ := bare h
        rw [ho, hn, hv] at hw
        exact .inr (.inl ⟨hw.symm, rfl⟩)
      · split at h
        · next ho =>
          rw [ho] at hw
          exact .inr (.inr (.inl ⟨hw.symm, by simpa using h.symm⟩))
        · split at h
          · next ho =>
            obtain ⟨hn, hv, rfl⟩ := bare h
            rw [ho, hn, hv] at hw
            exact .inr (.inr (.inr (.inl ⟨hw.symm, rfl⟩)))
          · split at h
            · next ho =>
              obtain ⟨hn, hv, rfl⟩ := bare h
              rw [ho, hn, hv] at hw
              exact .inr (.inr (.inr (.inr ⟨hw.symm, rfl⟩)))
            · cases h

end Sys2Proof
end

