-- ==== Sys2Proof/Laws/State.lean ====
section
/-! SUPPORT. For each update of State, what each field reads afterwards: true by rfl, in the simp set, so that no later
proof unfolds a record update. -/

namespace Sys2Proof.Machine

section Fields

variable (s : State)

@[simp] theorem State.setSource_units (k : Nat) (x : Source) : (s.setSource k x).units = s.units := rfl
@[simp] theorem State.setSource_sources (k : Nat) (x : Source) : (s.setSource k x).sources = portSet Source.untouched s.sources k x := rfl
@[simp] theorem State.setSource_sinks (k : Nat) (x : Source) : (s.setSource k x).sinks = s.sinks := rfl
@[simp] theorem State.setSource_buffers (k : Nat) (x : Source) : (s.setSource k x).buffers = s.buffers := rfl
@[simp] theorem State.setSource_boolSeqs (k : Nat) (x : Source) : (s.setSource k x).boolSeqs = s.boolSeqs := rfl
@[simp] theorem State.setSource_queue (k : Nat) (x : Source) : (s.setSource k x).queue = s.queue := rfl
@[simp] theorem State.setSource_target (k : Nat) (x : Source) : (s.setSource k x).target = s.target := rfl
@[simp] theorem State.setSource_responses (k : Nat) (x : Source) : (s.setSource k x).responses = s.responses := rfl
@[simp] theorem State.setSource_returned (k : Nat) (x : Source) : (s.setSource k x).returned = s.returned := rfl
@[simp] theorem State.setSource_freeDraws (k : Nat) (x : Source) : (s.setSource k x).freeDraws = s.freeDraws := rfl

@[simp] theorem State.setSink_units (k : Nat) (x : Sink) : (s.setSink k x).units = s.units := rfl
@[simp] theorem State.setSink_sources (k : Nat) (x : Sink) : (s.setSink k x).sources = s.sources := rfl
@[simp] theorem State.setSink_sinks (k : Nat) (x : Sink) : (s.setSink k x).sinks = portSet Sink.untouched s.sinks k x := rfl
@[simp] theorem State.setSink_buffers (k : Nat) (x : Sink) : (s.setSink k x).buffers = s.buffers := rfl
@[simp] theorem State.setSink_boolSeqs (k : Nat) (x : Sink) : (s.setSink k x).boolSeqs = s.boolSeqs := rfl
@[simp] theorem State.setSink_queue (k : Nat) (x : Sink) : (s.setSink k x).queue = s.queue := rfl
@[simp] theorem State.setSink_target (k : Nat) (x : Sink) : (s.setSink k x).target = s.target := rfl
@[simp] theorem State.setSink_responses (k : Nat) (x : Sink) : (s.setSink k x).responses = s.responses := rfl
@[simp] theorem State.setSink_returned (k : Nat) (x : Sink) : (s.setSink k x).returned = s.returned := rfl
@[simp] theorem State.setSink_freeDraws (k : Nat) (x : Sink) : (s.setSink k x).freeDraws = s.freeDraws := rfl

@[simp] theorem State.setUnit_units (h : Nat) (u : BitUnit) : (s.setUnit h u).units = s.units.set h u := rfl
@[simp] theorem State.setUnit_sources (h : Nat) (u : BitUnit) : (s.setUnit h u).sources = s.sources := rfl
@[simp] theorem State.setUnit_sinks (h : Nat) (u : BitUnit) : (s.setUnit h u).sinks = s.sinks := rfl
@[simp] theorem State.setUnit_buffers (h : Nat) (u : BitUnit) : (s.setUnit h u).buffers = s.buffers := rfl
@[simp] theorem State.setUnit_boolSeqs (h : Nat) (u : BitUnit) : (s.setUnit h u).boolSeqs = s.boolSeqs := rfl
@[simp] theorem State.setUnit_queue (h : Nat) (u : BitUnit) : (s.setUnit h u).queue = s.queue := rfl
@[simp] theorem State.setUnit_target (h : Nat) (u : BitUnit) : (s.setUnit h u).target = s.target := rfl
@[simp] theorem State.setUnit_responses (h : Nat) (u : BitUnit) : (s.setUnit h u).responses = s.responses := rfl
@[simp] theorem State.setUnit_returned (h : Nat) (u : BitUnit) : (s.setUnit h u).returned = s.returned := rfl
@[simp] theorem State.setUnit_freeDraws (h : Nat) (u : BitUnit) : (s.setUnit h u).freeDraws = s.freeDraws := rfl

@[simp] theorem State.addUnit_units (u : BitUnit) : (s.addUnit u).units = s.units ++ [u] := rfl
@[simp] theorem State.addUnit_sources (u : BitUnit) : (s.addUnit u).sources = s.sources := rfl
@[simp] theorem State.addUnit_sinks (u : BitUnit) : (s.addUnit u).sinks = s.sinks := rfl
@[simp] theorem State.addUnit_buffers (u : BitUnit) : (s.addUnit u).buffers = s.buffers := rfl
@[simp] theorem State.addUnit_boolSeqs (u : BitUnit) : (s.addUnit u).boolSeqs = s.boolSeqs := rfl
@[simp] theorem State.addUnit_queue (u : BitUnit) : (s.addUnit u).queue = s.queue := rfl
@[simp] theorem State.addUnit_target (u : BitUnit) : (s.addUnit u).target = s.target := rfl
@[simp] theorem State.addUnit_responses (u : BitUnit) : (s.addUnit u).responses = s.responses := rfl
@[simp] theorem State.addUnit_returned (u : BitUnit) : (s.addUnit u).returned = s.returned := rfl
@[simp] theorem State.addUnit_freeDraws (u : BitUnit) : (s.addUnit u).freeDraws = s.freeDraws := rfl

@[simp] theorem State.addResponse_units (h : Nat) (r : Response) : (s.addResponse h r).units = s.units := rfl
@[simp] theorem State.addResponse_sources (h : Nat) (r : Response) : (s.addResponse h r).sources = s.sources := rfl
@[simp] theorem State.addResponse_sinks (h : Nat) (r : Response) : (s.addResponse h r).sinks = s.sinks := rfl
@[simp] theorem State.addResponse_buffers (h : Nat) (r : Response) : (s.addResponse h r).buffers = s.buffers := rfl
@[simp] theorem State.addResponse_boolSeqs (h : Nat) (r : Response) : (s.addResponse h r).boolSeqs = s.boolSeqs := rfl
@[simp] theorem State.addResponse_queue (h : Nat) (r : Response) : (s.addResponse h r).queue = s.queue := rfl
@[simp] theorem State.addResponse_target (h : Nat) (r : Response) : (s.addResponse h r).target = s.target := rfl
@[simp] theorem State.addResponse_responses (h : Nat) (r : Response) : (s.addResponse h r).responses = s.responses ++ [(h, r)] := rfl
@[simp] theorem State.addResponse_returned (h : Nat) (r : Response) : (s.addResponse h r).returned = s.returned := rfl
@[simp] theorem State.addResponse_freeDraws (h : Nat) (r : Response) : (s.addResponse h r).freeDraws = s.freeDraws := rfl

@[simp] theorem State.bufWrite_units (b : Nat) (i : Nat) (v : Byte) : (s.bufWrite b i v).units = s.units := rfl
@[simp] theorem State.bufWrite_sources (b : Nat) (i : Nat) (v : Byte) : (s.bufWrite b i v).sources = s.sources := rfl
@[simp] theorem State.bufWrite_sinks (b : Nat) (i : Nat) (v : Byte) : (s.bufWrite b i v).sinks = s.sinks := rfl
@[simp] theorem State.bufWrite_buffers (b : Nat) (i : Nat) (v : Byte) : (s.bufWrite b i v).buffers = s.buffers.set b ((s.buffer b).set i v) := rfl
@[simp] theorem State.bufWrite_boolSeqs (b : Nat) (i : Nat) (v : Byte) : (s.bufWrite b i v).boolSeqs = s.boolSeqs := rfl
@[simp] theorem State.bufWrite_queue (b : Nat) (i : Nat) (v : Byte) : (s.bufWrite b i v).queue = s.queue := rfl
@[simp] theorem State.bufWrite_target (b : Nat) (i : Nat) (v : Byte) : (s.bufWrite b i v).target = s.target := rfl
@[simp] theorem State.bufWrite_responses (b : Nat) (i : Nat) (v : Byte) : (s.bufWrite b i v).responses = s.responses := rfl
@[simp] theorem State.bufWrite_returned (b : Nat) (i : Nat) (v : Byte) : (s.bufWrite b i v).returned = s.returned := rfl
@[simp] theorem State.bufWrite_freeDraws (b : Nat) (i : Nat) (v : Byte) : (s.bufWrite b i v).freeDraws = s.freeDraws := rfl

@[simp] theorem State.spoilBuffer_units (b : Nat) (i : Nat) : (s.spoilBuffer b i).units = s.units := rfl
@[simp] theorem State.spoilBuffer_sources (b : Nat) (i : Nat) : (s.spoilBuffer b i).sources = s.sources := rfl
@[simp] theorem State.spoilBuffer_sinks (b : Nat) (i : Nat) : (s.spoilBuffer b i).sinks = s.sinks := rfl
@[simp] theorem State.spoilBuffer_boolSeqs (b : Nat) (i : Nat) : (s.spoilBuffer b i).boolSeqs = s.boolSeqs := rfl
@[simp] theorem State.spoilBuffer_queue (b : Nat) (i : Nat) : (s.spoilBuffer b i).queue = s.queue := rfl
@[simp] theorem State.spoilBuffer_target (b : Nat) (i : Nat) : (s.spoilBuffer b i).target = s.target := rfl
@[simp] theorem State.spoilBuffer_responses (b : Nat) (i : Nat) : (s.spoilBuffer b i).responses = s.responses := rfl
@[simp] theorem State.spoilBuffer_returned (b : Nat) (i : Nat) : (s.spoilBuffer b i).returned = s.returned := rfl

@[simp] theorem State.newSequence_units (got : List Bool) (n : Nat) : (s.newSequence got n).units = s.units := rfl
@[simp] theorem State.newSequence_sources (got : List Bool) (n : Nat) : (s.newSequence got n).sources = s.sources := rfl
@[simp] theorem State.newSequence_sinks (got : List Bool) (n : Nat) : (s.newSequence got n).sinks = s.sinks := rfl
@[simp] theorem State.newSequence_buffers (got : List Bool) (n : Nat) : (s.newSequence got n).buffers = s.buffers := rfl
@[simp] theorem State.newSequence_queue (got : List Bool) (n : Nat) : (s.newSequence got n).queue = s.queue := rfl
@[simp] theorem State.newSequence_target (got : List Bool) (n : Nat) : (s.newSequence got n).target = s.target := rfl
@[simp] theorem State.newSequence_responses (got : List Bool) (n : Nat) : (s.newSequence got n).responses = s.responses := rfl
@[simp] theorem State.newSequence_returned (got : List Bool) (n : Nat) : (s.newSequence got n).returned = s.returned := rfl

@[simp] theorem State.takeOp_units (h : Nat) (rest : List HostOp) : (s.takeOp h rest).units = s.units := rfl
@[simp] theorem State.takeOp_sources (h : Nat) (rest : List HostOp) : (s.takeOp h rest).sources = s.sources := rfl
@[simp] theorem State.takeOp_sinks (h : Nat) (rest : List HostOp) : (s.takeOp h rest).sinks = s.sinks := rfl
@[simp] theorem State.takeOp_buffers (h : Nat) (rest : List HostOp) : (s.takeOp h rest).buffers = s.buffers := rfl
@[simp] theorem State.takeOp_boolSeqs (h : Nat) (rest : List HostOp) : (s.takeOp h rest).boolSeqs = s.boolSeqs := rfl
@[simp] theorem State.takeOp_queue (h : Nat) (rest : List HostOp) : (s.takeOp h rest).queue = rest := rfl
@[simp] theorem State.takeOp_target (h : Nat) (rest : List HostOp) : (s.takeOp h rest).target = h := rfl
@[simp] theorem State.takeOp_responses (h : Nat) (rest : List HostOp) : (s.takeOp h rest).responses = s.responses := rfl
@[simp] theorem State.takeOp_returned (h : Nat) (rest : List HostOp) : (s.takeOp h rest).returned = s.returned := rfl
@[simp] theorem State.takeOp_freeDraws (h : Nat) (rest : List HostOp) : (s.takeOp h rest).freeDraws = s.freeDraws := rfl

@[simp] theorem State.fillReader_sources (h : Nat) (b : Byte) : (s.fillReader h b).sources = s.sources := rfl
@[simp] theorem State.fillReader_sinks (h : Nat) (b : Byte) : (s.fillReader h b).sinks = s.sinks := rfl
@[simp] theorem State.fillReader_buffers (h : Nat) (b : Byte) : (s.fillReader h b).buffers = s.buffers := rfl
@[simp] theorem State.fillReader_boolSeqs (h : Nat) (b : Byte) : (s.fillReader h b).boolSeqs = s.boolSeqs := rfl
@[simp] theorem State.fillReader_queue (h : Nat) (b : Byte) : (s.fillReader h b).queue = s.queue := rfl
@[simp] theorem State.fillReader_target (h : Nat) (b : Byte) : (s.fillReader h b).target = s.target := rfl
@[simp] theorem State.fillReader_responses (h : Nat) (b : Byte) : (s.fillReader h b).responses = s.responses := rfl
@[simp] theorem State.fillReader_returned (h : Nat) (b : Byte) : (s.fillReader h b).returned = s.returned := rfl
@[simp] theorem State.fillReader_freeDraws (h : Nat) (b : Byte) : (s.fillReader h b).freeDraws = s.freeDraws := rfl

@[simp] theorem State.holdReader_sources (h : Nat) (need : Nat) (result : Byte) : (s.holdReader h need result).sources = s.sources := rfl
@[simp] theorem State.holdReader_sinks (h : Nat) (need : Nat) (result : Byte) : (s.holdReader h need result).sinks = s.sinks := rfl
@[simp] theorem State.holdReader_buffers (h : Nat) (need : Nat) (result : Byte) : (s.holdReader h need result).buffers = s.buffers := rfl
@[simp] theorem State.holdReader_boolSeqs (h : Nat) (need : Nat) (result : Byte) : (s.holdReader h need result).boolSeqs = s.boolSeqs := rfl
@[simp] theorem State.holdReader_queue (h : Nat) (need : Nat) (result : Byte) : (s.holdReader h need result).queue = s.queue := rfl
@[simp] theorem State.holdReader_target (h : Nat) (need : Nat) (result : Byte) : (s.holdReader h need result).target = s.target := rfl
@[simp] theorem State.holdReader_responses (h : Nat) (need : Nat) (result : Byte) : (s.holdReader h need result).responses = s.responses := rfl
@[simp] theorem State.holdReader_returned (h : Nat) (need : Nat) (result : Byte) : (s.holdReader h need result).returned = s.returned := rfl
@[simp] theorem State.holdReader_freeDraws (h : Nat) (need : Nat) (result : Byte) : (s.holdReader h need result).freeDraws = s.freeDraws := rfl

@[simp] theorem State.emptyWriter_sources (h : Nat) (b : Byte) (a : SinkReply) : (s.emptyWriter h b a).sources = s.sources := rfl
@[simp] theorem State.emptyWriter_sinks (h : Nat) (b : Byte) (a : SinkReply) : (s.emptyWriter h b a).sinks = s.sinks := rfl
@[simp] theorem State.emptyWriter_buffers (h : Nat) (b : Byte) (a : SinkReply) : (s.emptyWriter h b a).buffers = s.buffers := rfl
@[simp] theorem State.emptyWriter_boolSeqs (h : Nat) (b : Byte) (a : SinkReply) : (s.emptyWriter h b a).boolSeqs = s.boolSeqs := rfl
@[simp] theorem State.emptyWriter_queue (h : Nat) (b : Byte) (a : SinkReply) : (s.emptyWriter h b a).queue = s.queue := rfl
@[simp] theorem State.emptyWriter_target (h : Nat) (b : Byte) (a : SinkReply) : (s.emptyWriter h b a).target = s.target := rfl
@[simp] theorem State.emptyWriter_responses (h : Nat) (b : Byte) (a : SinkReply) : (s.emptyWriter h b a).responses = s.responses := rfl
@[simp] theorem State.emptyWriter_returned (h : Nat) (b : Byte) (a : SinkReply) : (s.emptyWriter h b a).returned = s.returned := rfl
@[simp] theorem State.emptyWriter_freeDraws (h : Nat) (b : Byte) (a : SinkReply) : (s.emptyWriter h b a).freeDraws = s.freeDraws := rfl

@[simp] theorem State.holdWriter_sources (h : Nat) (v : Byte) (need : Nat) : (s.holdWriter h v need).sources = s.sources := rfl
@[simp] theorem State.holdWriter_sinks (h : Nat) (v : Byte) (need : Nat) : (s.holdWriter h v need).sinks = s.sinks := rfl
@[simp] theorem State.holdWriter_buffers (h : Nat) (v : Byte) (need : Nat) : (s.holdWriter h v need).buffers = s.buffers := rfl
@[simp] theorem State.holdWriter_boolSeqs (h : Nat) (v : Byte) (need : Nat) : (s.holdWriter h v need).boolSeqs = s.boolSeqs := rfl
@[simp] theorem State.holdWriter_queue (h : Nat) (v : Byte) (need : Nat) : (s.holdWriter h v need).queue = s.queue := rfl
@[simp] theorem State.holdWriter_target (h : Nat) (v : Byte) (need : Nat) : (s.holdWriter h v need).target = s.target := rfl
@[simp] theorem State.holdWriter_responses (h : Nat) (v : Byte) (need : Nat) : (s.holdWriter h v need).responses = s.responses := rfl
@[simp] theorem State.holdWriter_returned (h : Nat) (v : Byte) (need : Nat) : (s.holdWriter h v need).returned = s.returned := rfl
@[simp] theorem State.holdWriter_freeDraws (h : Nat) (v : Byte) (need : Nat) : (s.holdWriter h v need).freeDraws = s.freeDraws := rfl

end Fields

end Sys2Proof.Machine
end

