-- ==== Sys2Proof/Laws/Tables.lean ====
section
/-! SUPPORT. The stream tables: a read after a write gives the value written, a write leaves every other number alone,
and every write keeps the canonical form. -/

namespace Sys2Proof.Machine

section Table

variable {α : Type} (d : α)

theorem portGet_of_unlisted {l : List (Nat × α)} {k : Nat} (h : ∀ p ∈ l, p.1 ≠ k) : portGet d l k = d := by
  induction l with
  | nil => rfl
  | cons p l ih =>
    obtain ⟨j, a⟩ := p
    have hj : j ≠ k := h (j, a) (by simp)
    simp only [portGet, hj, if_false]
    exact ih fun p hp => h p (by simp [hp])

theorem portGet_of_mem {l : List (Nat × α)} {k : Nat} {a : α} (hl : l.Pairwise (fun p q => p.1 < q.1))
    (h : (k, a) ∈ l) : portGet d l k = a := by
  induction l with
  | nil => simp at h
  | cons p l ih =>
    obtain ⟨j, b⟩ := p
    rw [List.pairwise_cons] at hl
    rcases List.mem_cons.mp h with heq | hmem
    · cases heq; simp [portGet]
    · have : j < k := hl.1 (k, a) hmem
      simp only [portGet, show j ≠ k by omega, if_false]
      exact ih hl.2 hmem

/-- What a table says of a number is either listed or the default. -/
theorem portGet_mem_or_default (l : List (Nat × α)) (k : Nat) :
    (k, portGet d l k) ∈ l ∨ (portGet d l k = d ∧ ∀ p ∈ l, p.1 ≠ k) := by
  induction l with
  | nil => simp [portGet]
  | cons p l ih =>
    obtain ⟨j, a⟩ := p
    by_cases h : j = k
    · simp [portGet, h]
    · simp only [portGet, h, if_false]
      rcases ih with ih | ⟨h1, h2⟩
      · exact .inl (by simp [ih])
      · refine .inr ⟨h1, ?_⟩
        intro p hp
        rcases List.mem_cons.mp hp with rfl | hp
        · exact h
        · exact h2 p hp

variable [DecidableEq α]

theorem mem_portSet {l : List (Nat × α)} {k : Nat} {v : α} {p : Nat × α} (h : p ∈ portSet d l k v) :
    p = (k, v) ∧ v ≠ d ∨ p ∈ l := by
  induction l with
  | nil =>
    simp only [portSet] at h
    split at h <;> simp_all
  | cons q l ih =>
    obtain ⟨j, a⟩ := q
    simp only [portSet] at h
    split at h
    · split at h
      · exact .inr h
      · rcases List.mem_cons.mp h with rfl | h
        · exact .inl ⟨rfl, ‹_›⟩
        · exact .inr h
    · split at h
      · split at h
        · exact .inr (by simp [h])
        · rcases List.mem_cons.mp h with rfl | h
          · exact .inl ⟨rfl, ‹_›⟩
          · exact .inr (by simp [h])
      · rcases List.mem_cons.mp h with rfl | h
        · exact .inr (by simp)
        · rcases ih h with h | h
          · exact .inl h
          · exact .inr (by simp [h])

theorem portSet_sorted {l : List (Nat × α)} (k : Nat) (v : α) (hl : l.Pairwise (fun p q => p.1 < q.1)) :
    (portSet d l k v).Pairwise (fun p q => p.1 < q.1) := by
  induction l with
  | nil => simp only [portSet]; split <;> simp
  | cons q l ih =>
    obtain ⟨j, a⟩ := q
    have hl' := hl
    rw [List.pairwise_cons] at hl'
    simp only [portSet]
    split
    · split
      · exact hl
      · refine List.pairwise_cons.mpr ⟨?_, hl⟩
        intro p hp
        rcases List.mem_cons.mp hp with rfl | hp
        · assumption
        · have : j < p.1 := hl'.1 p hp
          show k < p.1
          omega
    · split
      · split
        · exact hl'.2
        · refine List.pairwise_cons.mpr ⟨?_, hl'.2⟩
          intro p hp
          have : j < p.1 := hl'.1 p hp
          show k < p.1
          omega
      · refine List.pairwise_cons.mpr ⟨?_, ih hl'.2⟩
        intro p hp
        rcases mem_portSet d hp with ⟨rfl, _⟩ | hp
        · show j < k
          omega
        · exact hl'.1 p hp

theorem portSet_wf {l : List (Nat × α)} (k : Nat) (v : α) (h : portWf d l) : portWf d (portSet d l k v) := by
  refine ⟨portSet_sorted d k v h.1, ?_⟩
  intro p hp
  rcases mem_portSet d hp with ⟨rfl, hv⟩ | hp
  · exact hv
  · exact h.2 p hp

theorem portGet_portSet_other (l : List (Nat × α)) {j k : Nat} (v : α) (h : j ≠ k) :
    portGet d (portSet d l k v) j = portGet d l j := by
  induction l with
  | nil => simp only [portSet]; split <;> simp [portGet, Ne.symm h]
  | cons q l ih =>
    obtain ⟨i, a⟩ := q
    simp only [portSet]
    split
    · split
      · rfl
      · simp [portGet, Ne.symm h]
    · split
      · next hik =>
        subst hik
        split <;> simp [portGet, Ne.symm h]
      · simp only [portGet, ih]

theorem portGet_portSet_same {l : List (Nat × α)} (k : Nat) (v : α) (hl : l.Pairwise (fun p q => p.1 < q.1)) :
    portGet d (portSet d l k v) k = v := by
  by_cases hv : v = d
  · subst hv
    apply portGet_of_unlisted
    induction l with
    | nil => simp [portSet]
    | cons q l ih =>
      obtain ⟨i, a⟩ := q
      rw [List.pairwise_cons] at hl
      intro p hp
      simp only [portSet, if_true] at hp
      split at hp
      · rcases List.mem_cons.mp hp with rfl | hp
        · show i ≠ k
          omega
        · have : i < p.1 := hl.1 p hp
          omega
      · split at hp
        · have : i < p.1 := hl.1 p hp
          omega
        · rcases List.mem_cons.mp hp with rfl | hp
          · assumption
          · exact ih hl.2 p hp
  · induction l with
    | nil => simp [portSet, hv, portGet]
    | cons q l ih =>
      obtain ⟨i, a⟩ := q
      rw [List.pairwise_cons] at hl
      simp only [portSet, hv, if_false]
      split
      · simp [portGet]
      · split
        · simp [portGet]
        · next h1 h2 =>
          simp only [portGet, h2, if_false]
          exact ih hl.2

end Table

/-! ## Sources and sinks through State -/

variable (s : State)

theorem State.source_setSource_other {j k : Nat} (x : Source) (h : j ≠ k) : (s.setSource k x).source j = s.source j :=
  portGet_portSet_other _ _ _ h

theorem State.source_setSource_same {k : Nat} (x : Source) (h : portWf Source.untouched s.sources) :
    (s.setSource k x).source k = x :=
  portGet_portSet_same _ _ _ h.1

theorem State.sink_setSink_other {j k : Nat} (x : Sink) (h : j ≠ k) : (s.setSink k x).sink j = s.sink j :=
  portGet_portSet_other _ _ _ h

theorem State.sink_setSink_same {k : Nat} (x : Sink) (h : portWf Sink.untouched s.sinks) :
    (s.setSink k x).sink k = x :=
  portGet_portSet_same _ _ _ h.1

theorem State.source_congr {s t : State} (h : t.sources = s.sources) (k : Nat) : t.source k = s.source k := by
  simp [State.source, h]

theorem State.sink_congr {s t : State} (h : t.sinks = s.sinks) (k : Nat) : t.sink k = s.sink k := by
  simp [State.sink, h]

end Sys2Proof.Machine
end

