-- ==== Sys2Proof/Laws/Ran.lean ====
section
/-! SUPPORT. How operations compose: `Ran.Post` says what holds of the state an operation leaves, when it is done and
when it waits for ever; and what reading and replacing a unit do. -/

namespace Sys2Proof.Machine

/-- What an operation guarantees: `Q` of its value and state when it is done, `B` of its state when it waits for a
stream that never answers. It says nothing of a fault or a refusal. -/
def Ran.Post {α : Type} (Q : α → State → Prop) (B : State → Prop) : Ran α → Prop
  | .done a s => Q a s
  | .blocked s => B s
  | .fault _ => True
  | .refused _ => True

section Post

variable {α β : Type} {Q : α → State → Prop} {B : State → Prop}

@[simp] theorem Ran.post_done (a : α) (s : State) : (Ran.done a s).Post Q B ↔ Q a s := Iff.rfl
@[simp] theorem Ran.post_blocked (s : State) : (Ran.blocked s : Ran α).Post Q B ↔ B s := Iff.rfl
@[simp] theorem Ran.post_fault (f : Fault) : (Ran.fault f : Ran α).Post Q B ↔ True := Iff.rfl
@[simp] theorem Ran.post_refused (r : Refusal) : (Ran.refused r : Ran α).Post Q B ↔ True := Iff.rfl

theorem Ran.post_mono {m : Ran α} {Q' : α → State → Prop} {B' : State → Prop} (h : m.Post Q B)
    (hQ : ∀ a s, Q a s → Q' a s) (hB : ∀ s, B s → B' s) : m.Post Q' B' := by
  cases m with
  | done a s => exact hQ a s h
  | blocked s => exact hB s h
  | fault f => trivial
  | refused r => trivial

theorem Ran.post_bind {m : Ran α} {f : α → State → Ran β} {Q' : β → State → Prop} (h : m.Post Q B)
    (hf : ∀ a s, Q a s → (f a s).Post Q' B) : (m.bind f).Post Q' B := by
  cases m with
  | done a s => exact hf a s h
  | blocked s => exact h
  | fault f => trivial
  | refused r => trivial

@[simp] theorem Ran.bind_done (a : α) (s : State) (f : α → State → Ran β) : (Ran.done a s).bind f = f a s := rfl
@[simp] theorem Ran.bind_blocked (s : State) (f : α → State → Ran β) : (Ran.blocked s).bind f = .blocked s := rfl
@[simp] theorem Ran.bind_fault (e : Fault) (f : α → State → Ran β) : (Ran.fault e).bind f = .fault e := rfl
@[simp] theorem Ran.bind_refused (r : Refusal) (f : α → State → Ran β) : (Ran.refused r).bind f = .refused r := rfl

theorem Ran.finish_next {m : Ran α} {ret : α → Returned} {t : State} (h : m.finish ret = .next t) :
    (∃ a s, m = .done a s ∧ t = { s with returned := some (ret a) }) ∨
    (∃ s, m = .blocked s ∧ t = { s with returned := none }) := by
  cases m with
  | done a s => simp only [Ran.finish, Host.Outcome.next.injEq] at h; exact .inl ⟨a, s, rfl, h.symm⟩
  | blocked s => simp only [Ran.finish, Host.Outcome.next.injEq] at h; exact .inr ⟨s, rfl, h.symm⟩
  | fault f => simp [Ran.finish] at h
  | refused r => simp [Ran.finish] at h

@[simp] theorem Ran.finish_done (ret : α → Returned) (a : α) (s : State) :
    (Ran.done a s).finish ret = .next { s with returned := some (ret a) } := rfl
@[simp] theorem Ran.finish_blocked (ret : α → Returned) (s : State) :
    (Ran.blocked s).finish ret = .next { s with returned := none } := rfl

end Post

/-! ## Units -/

section Units

variable {s : State} {h j : Nat}

theorem State.setUnit_get_same (u : BitUnit) (hh : h < s.units.length) : (s.setUnit h u).units[h]? = some u := by
  simp [hh]

theorem State.setUnit_get_other (u : BitUnit) (hj : j ≠ h) : (s.setUnit h u).units[j]? = s.units[j]? := by
  simp [Ne.symm hj]

theorem lt_of_get {u : BitUnit} (hu : s.units[h]? = some u) : h < s.units.length :=
  (List.getElem?_eq_some_iff.mp hu).1

theorem State.readerAt_of_get {r : Reader} (hu : s.units[h]? = some (.reader r)) : s.readerAt h = r := by
  simp [State.readerAt, hu]

theorem State.writerAt_of_get {w : Writer} (hu : s.units[h]? = some (.writer w)) : s.writerAt h = w := by
  simp [State.writerAt, hu]

@[simp] theorem State.setUnit_setUnit (u v : BitUnit) : (s.setUnit h u).setUnit h v = s.setUnit h v := by
  simp [State.setUnit]

theorem State.setUnit_get_self {u : BitUnit} (hu : s.units[h]? = some u) : s.setUnit h u = s := by
  have : s.units.set h u = s.units := by
    apply List.ext_getElem?
    intro i
    by_cases hi : h = i
    · subst hi
      rw [List.getElem?_set_self (lt_of_get hu), hu]
    · rw [List.getElem?_set_ne hi]
  simp [State.setUnit, this]

theorem State.fillReader_of_get {r : Reader} (hu : s.units[h]? = some (.reader r)) (b : Byte) :
    s.fillReader h b =
      s.setUnit h (.reader { r with acc := b, count := 8, delivered := r.delivered ++ [b] }) := by
  simp [State.fillReader, State.readerAt_of_get hu]

theorem State.holdReader_of_get {r : Reader} (hu : s.units[h]? = some (.reader r)) (need : Nat) (result : Byte) :
    s.holdReader h need result = s.setUnit h (.reader { r with micro := .waitSrc need result }) := by
  simp [State.holdReader, State.readerAt_of_get hu]

theorem State.emptyWriter_of_get_ok {w : Writer} (hu : s.units[h]? = some (.writer w)) (b : Byte) :
    s.emptyWriter h b .ok =
      s.setUnit h (.writer { w with acc := 0x00, filled := 0, accepted := w.accepted ++ [b] }) := by
  simp [State.emptyWriter, State.writerAt_of_get hu]

theorem State.emptyWriter_of_get_err {w : Writer} (hu : s.units[h]? = some (.writer w)) (b : Byte) (e : ExtErr) :
    s.emptyWriter h b (.err e) = s.setUnit h (.writer { w with acc := 0x00, filled := 0 }) := by
  simp [State.emptyWriter, State.writerAt_of_get hu]

theorem State.holdWriter_of_get {w : Writer} (hu : s.units[h]? = some (.writer w)) (v : Byte) (need : Nat) :
    s.holdWriter h v need = s.setUnit h (.writer { w with micro := .waitSnk v need }) := by
  simp [State.holdWriter, State.writerAt_of_get hu]

theorem asReader_of_idle {α : Type} {r : Reader} (hu : s.units[h]? = some (.reader r)) (hi : r.micro = .idle)
    (f : Reader → Ran α) : asReader h s f = f r := by
  simp [asReader, hu, hi]

theorem asWriter_of_idle {α : Type} {w : Writer} (hu : s.units[h]? = some (.writer w)) (hi : w.micro = .idle)
    (f : Writer → Ran α) : asWriter h s f = f w := by
  simp [asWriter, hu, hi]

/-- A command that is not refused reached an idle reader. -/
theorem asReader_post {α : Type} {f : Reader → Ran α} {Q : α → State → Prop} {B : State → Prop}
    (hf : ∀ r, s.units[h]? = some (.reader r) → r.micro = .idle → (f r).Post Q B) : (asReader h s f).Post Q B := by
  unfold asReader
  split
  · trivial
  · trivial
  · split
    · exact hf _ ‹_› ‹_›
    · trivial

/-- A command that is not refused reached an idle writer. -/
theorem asWriter_post {α : Type} {f : Writer → Ran α} {Q : α → State → Prop} {B : State → Prop}
    (hf : ∀ w, s.units[h]? = some (.writer w) → w.micro = .idle → (f w).Post Q B) : (asWriter h s f).Post Q B := by
  unfold asWriter
  split
  · trivial
  · trivial
  · split
    · exact hf _ ‹_› ‹_›
    · trivial

end Units

end Sys2Proof.Machine
end

