-- ==== Sys2Proof/Laws/ReaderFrame.lean ====
section
/-! SUPPORT. What reading leaves unchanged: `ReadFrame`, kept by every operation below RD.BITS and by RD.BITS itself. -/

namespace Sys2Proof.Machine

/-- From `s` to `t` only readers below `bound`, the sources and the list of responses have changed; the responses new
in `t` come from units below `bound`. -/
structure ReadFrame (bound : Nat) (s t : State) : Prop where
  length    : t.units.length = s.units.length
  above     : ∀ j, bound ≤ j → t.units[j]? = s.units[j]?
  writers   : ∀ (j : Nat) (w : Writer), s.units[j]? = some (BitUnit.writer w) → t.units[j]? = some (BitUnit.writer w)
  readers   : ∀ (j : Nat) (r : Reader), s.units[j]? = some (BitUnit.reader r) →
    ∃ r' : Reader, t.units[j]? = some (BitUnit.reader r') ∧ r'.src = r.src
  responses : ∃ l, t.responses = s.responses ++ l ∧ ∀ p ∈ l, p.1 < bound
  sinks     : t.sinks = s.sinks
  buffers   : t.buffers = s.buffers
  boolSeqs  : t.boolSeqs = s.boolSeqs
  queue     : t.queue = s.queue
  target    : t.target = s.target
  returned  : t.returned = s.returned
  freeDraws : t.freeDraws = s.freeDraws

theorem ReadFrame.refl (bound : Nat) (s : State) : ReadFrame bound s s :=
  { length := rfl, above := fun _ _ => rfl, writers := fun _ _ h => h, readers := fun _ r h => ⟨r, h, rfl⟩,
    responses := ⟨[], by simp⟩, sinks := rfl, buffers := rfl, boolSeqs := rfl, queue := rfl, target := rfl,
    returned := rfl, freeDraws := rfl }

theorem ReadFrame.trans {bound : Nat} {s t u : State} (h1 : ReadFrame bound s t) (h2 : ReadFrame bound t u) :
    ReadFrame bound s u where
  length := h2.length.trans h1.length
  above j hj := (h2.above j hj).trans (h1.above j hj)
  writers j w hw := h2.writers j w (h1.writers j w hw)
  readers j r hr := by
    obtain ⟨r1, hr1, hs1⟩ := h1.readers j r hr
    obtain ⟨r2, hr2, hs2⟩ := h2.readers j r1 hr1
    exact ⟨r2, hr2, hs2.trans hs1⟩
  responses := by
    obtain ⟨l1, e1, b1⟩ := h1.responses
    obtain ⟨l2, e2, b2⟩ := h2.responses
    refine ⟨l1 ++ l2, by rw [e2, e1, List.append_assoc], ?_⟩
    intro p hp
    rcases List.mem_append.mp hp with hp | hp
    · exact b1 p hp
    · exact b2 p hp
  sinks := h2.sinks.trans h1.sinks
  buffers := h2.buffers.trans h1.buffers
  boolSeqs := h2.boolSeqs.trans h1.boolSeqs
  queue := h2.queue.trans h1.queue
  target := h2.target.trans h1.target
  returned := h2.returned.trans h1.returned
  freeDraws := h2.freeDraws.trans h1.freeDraws

theorem ReadFrame.mono {a b : Nat} {s t : State} (hab : a ≤ b) (h : ReadFrame a s t) : ReadFrame b s t :=
  { h with
    above := fun j hj => h.above j (hab.trans hj)
    responses := by
      obtain ⟨l, e, hl⟩ := h.responses
      exact ⟨l, e, fun p hp => (hl p hp).trans_le hab⟩ }

theorem ReadFrame.setSource (bound : Nat) (s : State) (k : Nat) (x : Source) : ReadFrame bound s (s.setSource k x) :=
  { ReadFrame.refl bound s with }

theorem ReadFrame.addResponse {bound : Nat} (s : State) {h : Nat} (hb : h < bound) (r : Response) :
    ReadFrame bound s (s.addResponse h r) :=
  { ReadFrame.refl bound s with responses := ⟨[(h, r)], rfl, by simpa using hb⟩ }

theorem ReadFrame.setReader {bound : Nat} {s : State} {h : Nat} {r r' : Reader}
    (hu : s.units[h]? = some (.reader r)) (hb : h < bound) (hsrc : r'.src = r.src) :
    ReadFrame bound s (s.setUnit h (.reader r')) :=
  { ReadFrame.refl bound s with
    length := by simp
    above := fun j hj => State.setUnit_get_other _ (by omega)
    writers := by
      intro j w hw
      have : j ≠ h := by rintro rfl; simp [hu] at hw
      rw [State.setUnit_get_other _ this, hw]
    readers := by
      intro j q hq
      by_cases hj : j = h
      · subst hj
        obtain rfl : r = q := by simpa [hu] using hq
        exact ⟨r', State.setUnit_get_same _ (lt_of_get hu), hsrc⟩
      · exact ⟨q, by rw [State.setUnit_get_other _ hj, hq], rfl⟩ }

/-- The unit of a reader at or above the bound is as it was. -/
theorem ReadFrame.reader_above {bound : Nat} {s t : State} {h : Nat} {r : Reader} (f : ReadFrame bound s t)
    (hb : bound ≤ h) (hu : s.units[h]? = some (.reader r)) : t.units[h]? = some (.reader r) := by
  rw [f.above h hb, hu]

/-- An operation that keeps the frame, done or waiting. -/
abbrev Ran.KeepsRead {α : Type} (bound : Nat) (s : State) (m : Ran α) : Prop :=
  m.Post (fun _ t => ReadFrame bound s t) (ReadFrame bound s)

theorem pullSource_frame (bound k : Nat) (s : State) : (pullSource k s).KeepsRead bound s := by
  unfold pullSource
  split
  · exact ReadFrame.setSource bound s k _
  · exact ReadFrame.refl bound s
  · trivial
  · trivial

section Chunks

variable {src : Binding → State → Ran SrcReply} {h : Nat} (hsrc : ∀ b s, (src b s).KeepsRead h s)
include hsrc

theorem refill_frame {s : State} {r : Reader} (hu : s.units[h]? = some (.reader r)) (need : Nat) (result : Byte) :
    (refill src h need result s).KeepsRead (h + 1) s := by
  have key := hsrc (s.readerAt h).src s
  unfold refill
  split
  · next b s1 he =>
    rw [he] at key
    have hu1 := ReadFrame.reader_above key (le_refl h) hu
    rw [State.fillReader_of_get hu1]
    exact (key.mono (Nat.le_succ h)).trans (ReadFrame.setReader hu1 (Nat.lt_succ_self h) rfl)
  · next e s1 he =>
    rw [he] at key
    exact key.mono (by omega)
  · next s1 he =>
    rw [he] at key
    have hu1 := ReadFrame.reader_above key (le_refl h) hu
    rw [State.holdReader_of_get hu1]
    exact (key.mono (Nat.le_succ h)).trans (ReadFrame.setReader hu1 (Nat.lt_succ_self h) rfl)
  · trivial
  · trivial

theorem readChunks_frame (passes : Nat) : ∀ {s : State} {r : Reader}, s.units[h]? = some (.reader r) →
    ∀ need result, (readChunks src h passes need result s).KeepsRead (h + 1) s := by
  induction passes with
  | zero => intro s r _ need result; trivial
  | succ passes ih =>
    intro s r hu need result
    have step1 : (refillIfEmpty src h need result s).KeepsRead (h + 1) s := by
      unfold refillIfEmpty
      split
      · exact refill_frame hsrc hu need result
      · exact ReadFrame.refl _ s
    refine Ran.post_bind step1 ?_
    intro st s1 f1
    obtain ⟨r1, hu1, -⟩ := f1.readers h r hu
    cases st with
    | err e => exact f1.trans (ReadFrame.addResponse s1 (Nat.lt_succ_self h) _)
    | ok =>
      simp only [State.readerAt_of_get hu1]
      have f2 : ReadFrame (h + 1) s (s1.setUnit h (.reader (r1.take need).1)) :=
        f1.trans (ReadFrame.setReader hu1 (Nat.lt_succ_self h) rfl)
      split
      · exact f2.trans (ReadFrame.addResponse _ (Nat.lt_succ_self h) _)
      · exact Ran.post_mono (ih (State.setUnit_get_same _ (lt_of_get hu1)) _ _) (fun _ _ f => f2.trans f)
          (fun _ f => f2.trans f)

theorem rdBitsVia_frame (N : Nat) (s : State) : (rdBitsVia src h N s).KeepsRead (h + 1) s :=
  asReader_post fun _ hu _ => readChunks_frame hsrc 2 hu _ _

end Chunks

/-- A stream transaction for a reader touches only readers older than it. -/
theorem srcRead_frame (depth : Nat) : ∀ owner b s, (srcRead depth owner b s).KeepsRead owner s := by
  induction depth with
  | zero =>
    intro owner b s
    cases b with
    | external k => exact pullSource_frame _ k s
    | adapter h => trivial
  | succ depth ih =>
    intro owner b s
    cases b with
    | external k => exact pullSource_frame _ k s
    | adapter h =>
      simp only [srcRead]
      split
      · next hlt =>
        refine Ran.post_bind (Ran.post_mono (rdBitsVia_frame (ih h) 8 s) (fun _ _ f => f.mono hlt)
          (fun _ f => f.mono hlt)) ?_
        exact fun _ _ f1 => f1
      · trivial

theorem rdBits_frame (h : Nat) (N : Nat) (s : State) : (rdBits h N s).KeepsRead (h + 1) s :=
  rdBitsVia_frame (srcRead_frame h h) N s

end Sys2Proof.Machine
end

