-- ==== Sys2Proof/Laws/ReaderSpec.lean ====
section
/-! SUPPORT. Everything RD.BITS can do, in three lemmas by the bits held at entry (`40_reader.md` R70): served from the
held bits, from one refill, or from both. Later proofs cite these and do not unfold the chunk loop. -/

namespace Sys2Proof.Machine

theorem clamp8_le (N : Nat) : clamp8 N ≤ 8 := Nat.min_le_right N 8

/-- The reader after `m` of the bits of a byte `b` it has just pulled have been taken. -/
def Reader.afterByte (r : Reader) (b : Byte) (m : Nat) : Reader :=
  { r with acc := b &&& mask (8 - m), count := 8 - m, delivered := r.delivered ++ [b] }

/-- The reader after all the bits it holds have been taken. -/
def Reader.drained (r : Reader) : Reader := { r with acc := 0x00, count := 0 }

/-- How RD.BITS goes on after its one SrcRead, asked in a state where the reader `r` is EMPTY: `need` bits are still to
come and `held` are the bits taken before. -/
def afterSrcRead (h : Nat) (r : Reader) (need : Nat) (held : Byte) (m : Ran SrcReply) : Ran Response :=
  match m with
  | .done (.byte b) s =>
    respond h .ok ((held <<< need) ||| ((b >>> (8 - need)) &&& mask need)) (s.setUnit h (.reader (r.afterByte b need)))
  | .done (.err e) s => respondError h e s
  | .blocked s => .blocked (s.setUnit h (.reader { r with micro := .waitSrc need held }))
  | .fault f => .fault f
  | .refused q => .refused q

section Via

variable {src : Binding → State → Ran SrcReply} {h : Nat} (hsrc : ∀ b s, (src b s).KeepsRead h s)
variable {s : State} {r : Reader} (hu : s.units[h]? = some (.reader r))
include hu

theorem readChunks_held (passes : Nat) {need : Nat} (result : Byte) (hc : r.count ≠ 0) (hn : need ≤ r.count) :
    readChunks src h (passes + 1) need result s =
      respond h .ok ((result <<< need) ||| ((r.acc >>> (r.count - need)) &&& mask need))
        (s.setUnit h (.reader { r with acc := r.acc &&& mask (r.count - need), count := r.count - need })) := by
  simp [readChunks, refillIfEmpty, State.readerAt_of_get hu, hc, Reader.take, Nat.min_eq_left hn]

include hsrc in
theorem readChunks_empty (passes : Nat) {need : Nat} (result : Byte) (hc : r.count = 0) (hn : need ≤ 8) :
    readChunks src h (passes + 1) need result s = afterSrcRead h r need result (src r.src s) := by
  have frame := hsrc r.src s
  simp only [readChunks, refillIfEmpty, refill, State.readerAt_of_get hu, hc, if_true]
  cases he : src r.src s with
  | done a s1 =>
    rw [he] at frame
    have hu1 := ReadFrame.reader_above frame (le_refl h) hu
    cases a with
    | err e => rfl
    | byte b =>
      have hu2 := State.setUnit_get_same
        (.reader { r with acc := b, count := 8, delivered := r.delivered ++ [b] }) (lt_of_get hu1)
      simp only [State.fillReader_of_get hu1, Ran.bind_done, State.readerAt_of_get hu2, Reader.take,
        Nat.min_eq_left hn, Nat.sub_self, if_true, State.setUnit_setUnit, afterSrcRead, Reader.afterByte]
  | blocked s1 =>
    rw [he] at frame
    have hu1 := ReadFrame.reader_above frame (le_refl h) hu
    simp [State.holdReader_of_get hu1, afterSrcRead]
  | fault f => rfl
  | refused q => rfl

include hsrc in
theorem readChunks_straddle (passes : Nat) {need : Nat} (result : Byte) (hc : r.count ≠ 0) (hn : r.count < need)
    (h8 : need ≤ 8) :
    readChunks src h (passes + 2) need result s =
      afterSrcRead h r.drained (need - r.count)
        ((result <<< r.count) ||| (r.acc &&& mask r.count))
        (src r.src (s.setUnit h (.reader r.drained))) := by
  have hu2 := State.setUnit_get_same (.reader r.drained) (lt_of_get hu)
  rw [show r.src = r.drained.src from rfl, ← readChunks_empty hsrc hu2 passes _ rfl (by omega)]
  rw [readChunks]
  simp only [refillIfEmpty, State.readerAt_of_get hu, hc, if_false, Ran.bind_done, Reader.take,
    Nat.min_eq_right hn.le, Nat.sub_self, show need - r.count ≠ 0 by omega, and_mask_zero, BitVec.ushiftRight_zero]
  rfl

end Via

section RdBits

variable {s : State} {h : Nat} {r : Reader} (hu : s.units[h]? = some (.reader r)) (hi : r.micro = .idle) (N : Nat)
include hu hi

/-- RD.BITS served from the bits held (R92, HOLDING, n ≤ c). -/
theorem rdBits_held (hc : r.count ≠ 0) (hn : clamp8 N ≤ r.count) :
    rdBits h N s =
      respond h .ok ((r.acc >>> (r.count - clamp8 N)) &&& mask (clamp8 N))
        (s.setUnit h (.reader { r with
          acc := r.acc &&& mask (r.count - clamp8 N), count := r.count - clamp8 N })) := by
  rw [rdBits, rdBitsVia, asReader_of_idle hu hi, readChunks_held hu 1 0 hc hn]
  simp

/-- RD.BITS from EMPTY (R92, EMPTY). -/
theorem rdBits_empty (hc : r.count = 0) :
    rdBits h N s = afterSrcRead h r (clamp8 N) 0x00 (srcRead h h r.src s) := by
  rw [rdBits, rdBitsVia, asReader_of_idle hu hi,
    readChunks_empty (srcRead_frame h h) hu 1 0 hc (clamp8_le N)]

/-- RD.BITS that straddles a byte boundary (R92, HOLDING, n > c). -/
theorem rdBits_straddle (hc : r.count ≠ 0) (hn : r.count < clamp8 N) :
    rdBits h N s = afterSrcRead h r.drained (clamp8 N - r.count) (r.acc &&& mask r.count)
      (srcRead h h r.src (s.setUnit h (.reader r.drained))) := by
  rw [rdBits, rdBitsVia, asReader_of_idle hu hi,
    readChunks_straddle (srcRead_frame h h) hu 0 0 hc hn (clamp8_le N)]
  simp

end RdBits

/-! ## SrcRead for every binding -/

theorem rdBitsVia_congr {src src' : Binding → State → Ran SrcReply} {h : Nat} (hs : ∀ b s, src b s = src' b s) (N : Nat)
    (s : State) : rdBitsVia src h N s = rdBitsVia src' h N s := by
  have : src = src' := by funext b s; exact hs b s
  rw [this]

/-- Any depth that is enough gives the same transaction. -/
theorem srcRead_depth (owner : Nat) : ∀ d d', owner ≤ d → owner ≤ d' →
    ∀ b s, srcRead d owner b s = srcRead d' owner b s := by
  induction owner using Nat.strong_induction_on with
  | _ owner ih =>
    intro d d' hd hd' b s
    cases b with
    | external k => cases d <;> cases d' <;> rfl
    | adapter g =>
      by_cases hg : g < owner
      · obtain ⟨e, rfl⟩ : ∃ e, d = e + 1 := ⟨d - 1, by omega⟩
        obtain ⟨e', rfl⟩ : ∃ e', d' = e' + 1 := ⟨d' - 1, by omega⟩
        simp only [srcRead, hg, if_true]
        rw [rdBitsVia_congr (ih g hg e e' (by omega) (by omega)) 8 s]
      · cases d <;> cases d' <;> simp [srcRead, hg]

theorem srcRead_external (h k : Nat) (s : State) : srcRead h h (.external k) s = pullSource k s := by
  cases h <;> rfl

/-- A source transaction through an adapter is RD.BITS 8 on the reader under it (R75, R118). -/
theorem srcRead_adapter {h g : Nat} (hg : g < h) (s : State) :
    srcRead h h (.adapter g) s =
      (rdBits g 8 s).bind fun resp s1 => .done resp.asSrcReply s1 := by
  obtain ⟨d, rfl⟩ : ∃ d, h = d + 1 := ⟨h - 1, by omega⟩
  simp only [srcRead, hg, if_true, rdBits]
  rw [rdBitsVia_congr (srcRead_depth g d g (by omega) le_rfl) 8 s]

end Sys2Proof.Machine
end

