-- ==== Sys2Proof/Laws/WriterFrame.lean ====
section
/-! SUPPORT. What writing leaves unchanged: `WriteFrame`, kept by every operation below WR.BITS, by WR.BITS itself and by
WR.FLUSH. -/

namespace Sys2Proof.Machine

/-- From `s` to `t` only writers below `bound`, the sinks and the list of responses have changed; the responses new
in `t` come from units below `bound`. -/
structure WriteFrame (bound : Nat) (s t : State) : Prop where
  length    : t.units.length = s.units.length
  above     : ∀ j, bound ≤ j → t.units[j]? = s.units[j]?
  readers   : ∀ (j : Nat) (r : Reader), s.units[j]? = some (BitUnit.reader r) → t.units[j]? = some (BitUnit.reader r)
  writers   : ∀ (j : Nat) (w : Writer), s.units[j]? = some (BitUnit.writer w) →
    ∃ w' : Writer, t.units[j]? = some (BitUnit.writer w') ∧ w'.snk = w.snk
  responses : ∃ l, t.responses = s.responses ++ l ∧ ∀ p ∈ l, p.1 < bound
  sources   : t.sources = s.sources
  buffers   : t.buffers = s.buffers
  boolSeqs  : t.boolSeqs = s.boolSeqs
  queue     : t.queue = s.queue
  target    : t.target = s.target
  returned  : t.returned = s.returned
  freeDraws : t.freeDraws = s.freeDraws

theorem WriteFrame.refl (bound : Nat) (s : State) : WriteFrame bound s s :=
  { length := rfl, above := fun _ _ => rfl, readers := fun _ _ h => h, writers := fun _ w h => ⟨w, h, rfl⟩,
    responses := ⟨[], by simp⟩, sources := rfl, buffers := rfl, boolSeqs := rfl, queue := rfl, target := rfl,
    returned := rfl, freeDraws := rfl }

theorem WriteFrame.trans {bound : Nat} {s t u : State} (h1 : WriteFrame bound s t) (h2 : WriteFrame bound t u) :
    WriteFrame bound s u where
  length := h2.length.trans h1.length
  above j hj := (h2.above j hj).trans (h1.above j hj)
  readers j r hr := h2.readers j r (h1.readers j r hr)
  writers j w hw := by
    obtain ⟨w1, hw1, hs1⟩ := h1.writers j w hw
    obtain ⟨w2, hw2, hs2⟩ := h2.writers j w1 hw1
    exact ⟨w2, hw2, hs2.trans hs1⟩
  responses := by
    obtain ⟨l1, e1, b1⟩ := h1.responses
    obtain ⟨l2, e2, b2⟩ := h2.responses
    refine ⟨l1 ++ l2, by rw [e2, e1, List.append_assoc], ?_⟩
    intro p hp
    rcases List.mem_append.mp hp with hp | hp
    · exact b1 p hp
    · exact b2 p hp
  sources := h2.sources.trans h1.sources
  buffers := h2.buffers.trans h1.buffers
  boolSeqs := h2.boolSeqs.trans h1.boolSeqs
  queue := h2.queue.trans h1.queue
  target := h2.target.trans h1.target
  returned := h2.returned.trans h1.returned
  freeDraws := h2.freeDraws.trans h1.freeDraws

theorem WriteFrame.mono {a b : Nat} {s t : State} (hab : a ≤ b) (h : WriteFrame a s t) : WriteFrame b s t :=
  { h with
    above := fun j hj => h.above j (hab.trans hj)
    responses := by
      obtain ⟨l, e, hl⟩ := h.responses
      exact ⟨l, e, fun p hp => (hl p hp).trans_le hab⟩ }

theorem WriteFrame.setSink (bound : Nat) (s : State) (k : Nat) (x : Sink) : WriteFrame bound s (s.setSink k x) :=
  { WriteFrame.refl bound s with }

theorem WriteFrame.addResponse {bound : Nat} (s : State) {h : Nat} (hb : h < bound) (r : Response) :
    WriteFrame bound s (s.addResponse h r) :=
  { WriteFrame.refl bound s with responses := ⟨[(h, r)], rfl, by simpa using hb⟩ }

theorem WriteFrame.setWriter {bound : Nat} {s : State} {h : Nat} {w w' : Writer}
    (hu : s.units[h]? = some (.writer w)) (hb : h < bound) (hsnk : w'.snk = w.snk) :
    WriteFrame bound s (s.setUnit h (.writer w')) :=
  { WriteFrame.refl bound s with
    length := by simp
    above := fun j hj => State.setUnit_get_other _ (by omega)
    readers := by
      intro j r hr
      have : j ≠ h := by rintro rfl; simp [hu] at hr
      rw [State.setUnit_get_other _ this, hr]
    writers := by
      intro j q hq
      by_cases hj : j = h
      · subst hj
        obtain rfl : w = q := by simpa [hu] using hq
        exact ⟨w', State.setUnit_get_same _ (lt_of_get hu), hsnk⟩
      · exact ⟨q, by rw [State.setUnit_get_other _ hj, hq], rfl⟩ }

/-- The unit of a writer at or above the bound is as it was. -/
theorem WriteFrame.writer_above {bound : Nat} {s t : State} {h : Nat} {w : Writer} (f : WriteFrame bound s t)
    (hb : bound ≤ h) (hu : s.units[h]? = some (.writer w)) : t.units[h]? = some (.writer w) := by
  rw [f.above h hb, hu]

/-- An operation that keeps the frame, done or waiting. -/
abbrev Ran.KeepsWrite {α : Type} (bound : Nat) (s : State) (m : Ran α) : Prop :=
  m.Post (fun _ t => WriteFrame bound s t) (WriteFrame bound s)

theorem offerSink_frame (bound k : Nat) (b : Byte) (s : State) : (offerSink k b s).KeepsWrite bound s := by
  unfold offerSink
  split
  · exact WriteFrame.setSink bound s k _
  · exact WriteFrame.refl bound s
  · trivial

section Chunks

variable {snk : Binding → Byte → State → Ran SinkReply} {h : Nat} (hsnk : ∀ k b s, (snk k b s).KeepsWrite h s)
include hsnk

theorem emit_frame {s : State} {w : Writer} (hu : s.units[h]? = some (.writer w)) (b v : Byte) (need : Nat) :
    (emit snk h b v need s).KeepsWrite (h + 1) s := by
  have key := hsnk (s.writerAt h).snk b s
  unfold emit
  split
  · next s1 he =>
    rw [he] at key
    have hu1 := WriteFrame.writer_above key (le_refl h) hu
    rw [State.emptyWriter_of_get_ok hu1]
    exact (key.mono (Nat.le_succ h)).trans (WriteFrame.setWriter hu1 (Nat.lt_succ_self h) rfl)
  · next e s1 he =>
    rw [he] at key
    have hu1 := WriteFrame.writer_above key (le_refl h) hu
    rw [State.emptyWriter_of_get_err hu1]
    exact (key.mono (Nat.le_succ h)).trans (WriteFrame.setWriter hu1 (Nat.lt_succ_self h) rfl)
  · next s1 he =>
    rw [he] at key
    have hu1 := WriteFrame.writer_above key (le_refl h) hu
    rw [State.holdWriter_of_get hu1]
    exact (key.mono (Nat.le_succ h)).trans (WriteFrame.setWriter hu1 (Nat.lt_succ_self h) rfl)
  · trivial
  · trivial

theorem writeChunks_frame (v : Byte) (passes : Nat) : ∀ {s : State} {w : Writer}, s.units[h]? = some (.writer w) →
    ∀ need, (writeChunks snk h v passes need s).KeepsWrite (h + 1) s := by
  induction passes with
  | zero =>
    intro s w _ need
    cases need with
    | zero => exact WriteFrame.addResponse s (Nat.lt_succ_self h) _
    | succ need => trivial
  | succ passes ih =>
    intro s w hu need
    cases need with
    | zero => exact WriteFrame.addResponse s (Nat.lt_succ_self h) _
    | succ need =>
      simp only [writeChunks, State.writerAt_of_get hu]
      have hu1 := State.setUnit_get_same (.writer (w.place v (need + 1))) (lt_of_get hu)
      have f1 : WriteFrame (h + 1) s (s.setUnit h (.writer (w.place v (need + 1)))) :=
        WriteFrame.setWriter hu (Nat.lt_succ_self h) rfl
      split
      · refine Ran.post_bind (Ran.post_mono (emit_frame hsnk hu1 _ _ _) (fun _ _ f => f1.trans f)
          (fun _ f => f1.trans f)) ?_
        intro st s2 f2
        cases st with
        | err e => exact f2.trans (WriteFrame.addResponse s2 (Nat.lt_succ_self h) _)
        | ok =>
          obtain ⟨w2, hu2, -⟩ := f2.writers h w hu
          exact Ran.post_mono (ih hu2 _) (fun _ _ f => f2.trans f) (fun _ f => f2.trans f)
      · exact Ran.post_mono (ih hu1 _) (fun _ _ f => f1.trans f) (fun _ f => f1.trans f)

theorem wrBitsVia_frame (V N : Nat) (s : State) : (wrBitsVia snk h V N s).KeepsWrite (h + 1) s :=
  asWriter_post fun _ hu _ => writeChunks_frame hsnk _ 2 hu _

end Chunks

/-- A stream transaction for a writer touches only writers older than it. -/
theorem sinkWrite_frame (depth : Nat) : ∀ owner k b s, (sinkWrite depth owner k b s).KeepsWrite owner s := by
  induction depth with
  | zero =>
    intro owner k b s
    cases k with
    | external k => exact offerSink_frame _ k b s
    | adapter h => trivial
  | succ depth ih =>
    intro owner k b s
    cases k with
    | external k => exact offerSink_frame _ k b s
    | adapter h =>
      simp only [sinkWrite]
      split
      · next hlt =>
        exact Ran.post_bind (Ran.post_mono (wrBitsVia_frame (ih h) b.toNat 8 s) (fun _ _ f => f.mono hlt)
          (fun _ f => f.mono hlt)) fun _ _ f1 => f1
      · trivial

theorem wrBits_frame (h V N : Nat) (s : State) : (wrBits h V N s).KeepsWrite (h + 1) s :=
  wrBitsVia_frame (sinkWrite_frame h h) V N s

theorem wrFlush_frame (h : Nat) (s : State) : (wrFlush h s).KeepsWrite (h + 1) s := by
  refine asWriter_post fun w hu _ => ?_
  split
  · exact WriteFrame.addResponse s (Nat.lt_succ_self h) _
  · refine Ran.post_bind (emit_frame (sinkWrite_frame h h) hu _ _ _) ?_
    intro st s1 f1
    cases st <;> exact f1.trans (WriteFrame.addResponse s1 (Nat.lt_succ_self h) _)

end Sys2Proof.Machine
end

