-- ==== Sys2Proof/Laws/WriterSpec.lean ====
section
/-! SUPPORT. Everything WR.BITS and WR.FLUSH can do (`41_writer.md` R80, R82): WR.BITS in four lemmas by how far the
field reaches. Later proofs cite these and do not unfold the chunk loop. -/

namespace Sys2Proof.Machine

/-- A writer after its sink has accepted a byte. -/
def Writer.afterAccepted (w : Writer) (b : Byte) : Writer :=
  { w with acc := 0x00, filled := 0, accepted := w.accepted ++ [b] }

/-- A writer after its sink has answered a byte with an error. -/
def Writer.afterRejected (w : Writer) : Writer := { w with acc := 0x00, filled := 0 }

/-- How a command goes on after its one SinkWrite of `b`, offered by the writer `w`: `need` bits of `v` are still to be
placed once the sink has accepted it, which `rest` does. -/
def afterSinkWrite (h : Nat) (w : Writer) (b v : Byte) (need : Nat) (rest : State → Ran Response) (m : Ran SinkReply) :
    Ran Response :=
  match m with
  | .done .ok s => rest (s.setUnit h (.writer (w.afterAccepted b)))
  | .done (.err e) s => respondError h e (s.setUnit h (.writer w.afterRejected))
  | .blocked s => .blocked (s.setUnit h (.writer { w with micro := .waitSnk v need }))
  | .fault f => .fault f
  | .refused q => .refused q

/-- A writer after the low `n` bits of `v` have been shifted in. -/
def Writer.insert (w : Writer) (v : Byte) (n : Nat) : Writer :=
  { w with acc := (w.acc <<< n) ||| (v &&& mask n), filled := w.filled + n }

section Via

variable {snk : Binding → Byte → State → Ran SinkReply} {h : Nat} (hsnk : ∀ k b s, (snk k b s).KeepsWrite h s)
variable {s : State} {w : Writer} (hu : s.units[h]? = some (.writer w))
include hsnk hu

theorem emit_bind (b v : Byte) (need : Nat) (f : Status → State → Ran Response)
    (hf : ∀ e s, f (.err e) s = respondError h e s) :
    (emit snk h b v need s).bind f = afterSinkWrite h w b v need (f .ok) (snk w.snk b s) := by
  have frame := hsnk w.snk b s
  simp only [emit, State.writerAt_of_get hu]
  cases he : snk w.snk b s with
  | done a s1 =>
    rw [he] at frame
    have hu1 := WriteFrame.writer_above frame (le_refl h) hu
    cases a with
    | ok => simp [State.emptyWriter_of_get_ok hu1, afterSinkWrite, Writer.afterAccepted]
    | err e => simp [State.emptyWriter_of_get_err hu1, afterSinkWrite, Writer.afterRejected, hf]
  | blocked s1 =>
    rw [he] at frame
    have hu1 := WriteFrame.writer_above frame (le_refl h) hu
    simp [State.holdWriter_of_get hu1, afterSinkWrite]
  | fault f => rfl
  | refused q => rfl

omit hsnk hu in
/-- With nothing left to place, the command ends. -/
theorem writeChunks_done (v : Byte) (passes : Nat) (s : State) :
    writeChunks snk h v passes 0 s = respond h .ok 0x00 s := by
  cases passes <;> rfl

omit hsnk in
theorem writeChunks_fits (v : Byte) (passes : Nat) {need : Nat} (h0 : 0 < need) (hn : w.filled + need < 8) :
    writeChunks snk h v (passes + 1) need s = respond h .ok 0x00 (s.setUnit h (.writer (w.insert v need))) := by
  obtain ⟨m, rfl⟩ : ∃ m, need = m + 1 := ⟨need - 1, by omega⟩
  have hk : min (m + 1) (8 - w.filled) = m + 1 := Nat.min_eq_left (by omega)
  simp [writeChunks, State.writerAt_of_get hu, Writer.place, Writer.insert, hk, show w.filled + (m + 1) ≠ 8 by omega]

theorem writeChunks_exact (v : Byte) (passes : Nat) {need : Nat} (h0 : 0 < need) (hn : w.filled + need = 8) :
    writeChunks snk h v (passes + 1) need s =
      afterSinkWrite h (w.insert v need) (w.insert v need).acc v 0 (respond h .ok 0x00)
        (snk w.snk (w.insert v need).acc (s.setUnit h (.writer (w.insert v need)))) := by
  obtain ⟨m, rfl⟩ : ∃ m, need = m + 1 := ⟨need - 1, by omega⟩
  have hk : min (m + 1) (8 - w.filled) = m + 1 := Nat.min_eq_left (by omega)
  have hp : w.place v (m + 1) = w.insert v (m + 1) := by simp [Writer.place, Writer.insert, hk]
  have hfull : (w.insert v (m + 1)).filled = 8 := hn
  have hu1 := State.setUnit_get_same (.writer (w.insert v (m + 1))) (lt_of_get hu)
  rw [writeChunks]
  simp only [State.writerAt_of_get hu, hp, hk, Nat.sub_self, hfull, if_true, writeChunks_done]
  rw [emit_bind hsnk hu1 _ v 0 _ (fun _ _ => rfl)]
  rfl

theorem writeChunks_over (v : Byte) (passes : Nat) {need : Nat} (hf : w.filled ≤ 7) (h8 : need ≤ 8)
    (hn : 8 < w.filled + need) :
    writeChunks snk h v (passes + 2) need s =
      let full := w.insert (v >>> (need - (8 - w.filled))) (8 - w.filled)
      let m := w.filled + need - 8
      afterSinkWrite h full full.acc v m
        (fun s2 => respond h .ok 0x00 (s2.setUnit h (.writer ((full.afterAccepted full.acc).insert v m))))
        (snk w.snk full.acc (s.setUnit h (.writer full))) := by
  obtain ⟨m, rfl⟩ : ∃ m, need = m + 1 := ⟨need - 1, by omega⟩
  have hk : min (m + 1) (8 - w.filled) = 8 - w.filled := Nat.min_eq_right (by omega)
  have hp : w.place v (m + 1) = w.insert (v >>> (m + 1 - (8 - w.filled))) (8 - w.filled) := by
    simp [Writer.place, Writer.insert, hk]
  have hfull : (w.insert (v >>> (m + 1 - (8 - w.filled))) (8 - w.filled)).filled = 8 := by
    simp [Writer.insert]; omega
  have hrest : m + 1 - (8 - w.filled) = w.filled + (m + 1) - 8 := by omega
  have hu1 := State.setUnit_get_same (.writer (w.insert (v >>> (m + 1 - (8 - w.filled))) (8 - w.filled))) (lt_of_get hu)
  rw [writeChunks]
  simp only [State.writerAt_of_get hu, hp, hk, hfull, if_true]
  rw [emit_bind hsnk hu1 _ v _ _ (fun _ _ => rfl), hrest]
  have frame := hsnk w.snk (w.insert (v >>> (m + 1 - (8 - w.filled))) (8 - w.filled)).acc
    (s.setUnit h (.writer (w.insert (v >>> (m + 1 - (8 - w.filled))) (8 - w.filled))))
  rw [hrest] at frame hu1
  simp only [Writer.insert] at frame hu1 ⊢
  cases he : snk w.snk ((w.acc <<< (8 - w.filled)) ||| ((v >>> (w.filled + (m + 1) - 8)) &&& mask (8 - w.filled)))
    (s.setUnit h (.writer { w with
      acc := (w.acc <<< (8 - w.filled)) ||| ((v >>> (w.filled + (m + 1) - 8)) &&& mask (8 - w.filled)),
      filled := w.filled + (8 - w.filled) })) with
  | fault f => rfl
  | refused q => rfl
  | blocked s1 => rfl
  | done a s1 =>
    rw [he] at frame
    cases a with
    | err e => rfl
    | ok =>
      have hu2 := WriteFrame.writer_above frame (le_refl h) hu1
      simp only [afterSinkWrite]
      have hu3 := State.setUnit_get_same (s := s1) (.writer (Writer.afterAccepted { w with
        acc := (w.acc <<< (8 - w.filled)) ||| ((v >>> (w.filled + (m + 1) - 8)) &&& mask (8 - w.filled)),
        filled := w.filled + (8 - w.filled) }
        ((w.acc <<< (8 - w.filled)) ||| ((v >>> (w.filled + (m + 1) - 8)) &&& mask (8 - w.filled)))))
        (lt_of_get hu2)
      rw [writeChunks_fits hu3 v passes (by omega) (by simp [Writer.afterAccepted]; omega)]
      rfl

end Via

section WrBits

variable {s : State} {h : Nat} {w : Writer} (hu : s.units[h]? = some (.writer w)) (hi : w.micro = .idle) (V N : Nat)
include hu hi

/-- WR.BITS with width 0 (R80, corner case 1). -/
theorem wrBits_zero (hn : clamp8 N = 0) : wrBits h V N s = respond h .ok 0x00 s := by
  rw [wrBits, wrBitsVia, asWriter_of_idle hu hi, hn]
  rfl

/-- WR.BITS that completes no byte (R96, f + n < 8). -/
theorem wrBits_fits (h0 : clamp8 N ≠ 0) (hn : w.filled + clamp8 N < 8) :
    wrBits h V N s =
      respond h .ok 0x00 (s.setUnit h (.writer (w.insert (valueOperand V (clamp8 N)) (clamp8 N)))) := by
  rw [wrBits, wrBitsVia, asWriter_of_idle hu hi, writeChunks_fits hu _ 1 (by omega) hn]

/-- WR.BITS that completes a byte exactly (R96, f + n = 8). -/
theorem wrBits_exact (h0 : clamp8 N ≠ 0) (hn : w.filled + clamp8 N = 8) :
    wrBits h V N s =
      afterSinkWrite h (w.insert (valueOperand V (clamp8 N)) (clamp8 N))
        (w.insert (valueOperand V (clamp8 N)) (clamp8 N)).acc (valueOperand V (clamp8 N)) 0 (respond h .ok 0x00)
        (sinkWrite h h w.snk (w.insert (valueOperand V (clamp8 N)) (clamp8 N)).acc
          (s.setUnit h (.writer (w.insert (valueOperand V (clamp8 N)) (clamp8 N))))) := by
  rw [wrBits, wrBitsVia, asWriter_of_idle hu hi,
    writeChunks_exact (sinkWrite_frame h h) hu _ 1 (by omega) hn]

/-- WR.BITS that completes a byte and starts the next (R96, f + n > 8). -/
theorem wrBits_over (hf : w.filled ≤ 7) (hn : 8 < w.filled + clamp8 N) :
    wrBits h V N s =
      let v := valueOperand V (clamp8 N)
      let full := w.insert (v >>> (clamp8 N - (8 - w.filled))) (8 - w.filled)
      let m := w.filled + clamp8 N - 8
      afterSinkWrite h full full.acc v m
        (fun s2 => respond h .ok 0x00 (s2.setUnit h (.writer ((full.afterAccepted full.acc).insert v m))))
        (sinkWrite h h w.snk full.acc (s.setUnit h (.writer full))) := by
  rw [wrBits, wrBitsVia, asWriter_of_idle hu hi,
    writeChunks_over (sinkWrite_frame h h) hu _ 0 hf (clamp8_le N) hn]

/-- WR.FLUSH on an EMPTY writer (R82). -/
theorem wrFlush_empty (hf : w.filled = 0) : wrFlush h s = respond h .ok 0x00 s := by
  rw [wrFlush, asWriter_of_idle hu hi]
  simp [hf]

/-- WR.FLUSH on a writer that holds bits (R82). -/
theorem wrFlush_partial (hf : w.filled ≠ 0) :
    wrFlush h s =
      afterSinkWrite h w w.flushByte 0x00 0 (respond h .ok 0x00) (sinkWrite h h w.snk w.flushByte s) := by
  rw [wrFlush, asWriter_of_idle hu hi]
  simp only [hf, if_false]
  rw [emit_bind (sinkWrite_frame h h) hu _ _ _ _ (fun _ _ => rfl)]

end WrBits

/-! ## SinkWrite for every binding -/

theorem wrBitsVia_congr {snk snk' : Binding → Byte → State → Ran SinkReply} {h : Nat}
    (hs : ∀ k b s, snk k b s = snk' k b s) (V N : Nat) (s : State) : wrBitsVia snk h V N s = wrBitsVia snk' h V N s := by
  have : snk = snk' := by funext k b s; exact hs k b s
  rw [this]

/-- Any depth that is enough gives the same transaction. -/
theorem sinkWrite_depth (owner : Nat) : ∀ d d', owner ≤ d → owner ≤ d' →
    ∀ k b s, sinkWrite d owner k b s = sinkWrite d' owner k b s := by
  induction owner using Nat.strong_induction_on with
  | _ owner ih =>
    intro d d' hd hd' k b s
    cases k with
    | external k => cases d <;> cases d' <;> rfl
    | adapter g =>
      by_cases hg : g < owner
      · obtain ⟨e, rfl⟩ : ∃ e, d = e + 1 := ⟨d - 1, by omega⟩
        obtain ⟨e', rfl⟩ : ∃ e', d' = e' + 1 := ⟨d' - 1, by omega⟩
        simp only [sinkWrite, hg, if_true]
        rw [wrBitsVia_congr (ih g hg e e' (by omega) (by omega)) b.toNat 8 s]
      · cases d <;> cases d' <;> simp [sinkWrite, hg]

theorem sinkWrite_external (h k : Nat) (b : Byte) (s : State) : sinkWrite h h (.external k) b s = offerSink k b s := by
  cases h <;> rfl

/-- A sink transaction through an adapter is WR.BITS b, 8 on the writer under it (R83, R118). -/
theorem sinkWrite_adapter {h g : Nat} (hg : g < h) (b : Byte) (s : State) :
    sinkWrite h h (.adapter g) b s =
      (wrBits g b.toNat 8 s).bind fun resp s1 => .done resp.asSinkReply s1 := by
  obtain ⟨d, rfl⟩ : ∃ d, h = d + 1 := ⟨h - 1, by omega⟩
  simp only [sinkWrite, hg, if_true, wrBits]
  rw [wrBitsVia_congr (sinkWrite_depth g d g (by omega) le_rfl) b.toNat 8 s]

end Sys2Proof.Machine
end

