-- ==== Sys2Proof/Laws/Independence.lean ====
section
/-! SUPPORT. What an operation does not look at: replacing a unit that an operation does not reach commutes with the
operation (`10_state.md` R33). A stream transaction reaches only units older than its owner. -/

namespace Sys2Proof.Machine

/-- The same end of an operation, in a changed state. -/
def Ran.onState {α : Type} (f : State → State) : Ran α → Ran α
  | .done a s => .done a (f s)
  | .blocked s => .blocked (f s)
  | .fault e => .fault e
  | .refused r => .refused r

section OnState

variable {α β : Type} {f : State → State}

@[simp] theorem Ran.onState_done (a : α) (s : State) : (Ran.done a s).onState f = .done a (f s) := rfl
@[simp] theorem Ran.onState_blocked (s : State) : (Ran.blocked s : Ran α).onState f = .blocked (f s) := rfl
@[simp] theorem Ran.onState_fault (e : Fault) : (Ran.fault e : Ran α).onState f = .fault e := rfl
@[simp] theorem Ran.onState_refused (r : Refusal) : (Ran.refused r : Ran α).onState f = .refused r := rfl

theorem Ran.onState_bind {m : Ran α} {g : α → State → Ran β} (hg : ∀ a s, m = .done a s → g a (f s) = (g a s).onState f) :
    (m.onState f).bind g = (m.bind g).onState f := by
  cases m with
  | done a s => exact hg a s rfl
  | blocked s => rfl
  | fault e => rfl
  | refused r => rfl

theorem Ran.finish_onState (ret : α → Returned) (m : Ran α) (hf : ∀ s x, { f s with returned := x } = f { s with returned := x }) :
    (m.onState f).finish ret = mapNext f (m.finish ret) := by
  cases m with
  | done a s => simp [Ran.finish, Ran.onState, mapNext, hf]
  | blocked s => simp [Ran.finish, Ran.onState, mapNext, hf]
  | fault e => rfl
  | refused r => rfl

end OnState

section Other

variable {s : State} {h j : Nat} {u : BitUnit}

theorem State.setUnit_comm (hj : j ≠ h) (v : BitUnit) : (s.setUnit j u).setUnit h v = (s.setUnit h v).setUnit j u := by
  simp [State.setUnit, List.set_comm _ _ hj]

theorem State.readerAt_setUnit (hj : j ≠ h) : (s.setUnit j u).readerAt h = s.readerAt h := by
  simp only [State.readerAt, State.setUnit_get_other u (Ne.symm hj)]

theorem State.writerAt_setUnit (hj : j ≠ h) : (s.setUnit j u).writerAt h = s.writerAt h := by
  simp only [State.writerAt, State.setUnit_get_other u (Ne.symm hj)]

theorem respond_setUnit (st : Status) (d : Byte) :
    respond h st d (s.setUnit j u) = (respond h st d s).onState (·.setUnit j u) := rfl

theorem respondError_setUnit (e : ExtErr) :
    respondError h e (s.setUnit j u) = (respondError h e s).onState (·.setUnit j u) := rfl

theorem asReader_setUnit {α : Type} (hj : j ≠ h) {f : Reader → Ran α} {f' : Reader → Ran α}
    (hf : ∀ r, s.units[h]? = some (.reader r) → f' r = (f r).onState (·.setUnit j u)) :
    asReader h (s.setUnit j u) f' = (asReader h s f).onState (·.setUnit j u) := by
  simp only [asReader, State.setUnit_get_other u (Ne.symm hj)]
  split
  · rfl
  · rfl
  · next r hu => split
                 · exact hf r hu
                 · rfl

theorem asWriter_setUnit {α : Type} (hj : j ≠ h) {f : Writer → Ran α} {f' : Writer → Ran α}
    (hf : ∀ w, s.units[h]? = some (.writer w) → f' w = (f w).onState (·.setUnit j u)) :
    asWriter h (s.setUnit j u) f' = (asWriter h s f).onState (·.setUnit j u) := by
  simp only [asWriter, State.setUnit_get_other u (Ne.symm hj)]
  split
  · rfl
  · rfl
  · next w hu => split
                 · exact hf w hu
                 · rfl

theorem pullSource_setUnit (k : Nat) : pullSource k (s.setUnit j u) = (pullSource k s).onState (·.setUnit j u) := by
  simp only [pullSource, State.source, State.setUnit_sources]
  split <;> rfl

theorem offerSink_setUnit (k : Nat) (b : Byte) :
    offerSink k b (s.setUnit j u) = (offerSink k b s).onState (·.setUnit j u) := by
  simp only [offerSink, State.sink, State.setUnit_sinks]
  split <;> rfl

end Other

/-! ## Readers -/

section Reading

variable {src : Binding → State → Ran SrcReply} {h j : Nat} {u : BitUnit} (hj : j ≠ h)
variable (hframe : ∀ b s, (src b s).KeepsRead h s) {b0 : Binding}
variable (hsrc : ∀ s, src b0 (s.setUnit j u) = (src b0 s).onState (·.setUnit j u))
include hj hsrc

theorem refill_setUnit {s : State} {r : Reader} (hu : s.units[h]? = some (.reader r)) (hb : r.src = b0) (need : Nat)
    (result : Byte) :
    refill src h need result (s.setUnit j u) = (refill src h need result s).onState (·.setUnit j u) := by
  simp only [refill, State.readerAt_setUnit hj, State.readerAt_of_get hu, hb, hsrc]
  cases src b0 s with
  | done a t =>
    cases a with
    | byte b => simp [State.fillReader, State.readerAt_setUnit hj, State.setUnit_comm hj]
    | err e => rfl
  | blocked t => simp [State.holdReader, State.readerAt_setUnit hj, State.setUnit_comm hj]
  | fault f => rfl
  | refused q => rfl

include hframe in
theorem readChunks_setUnit (passes : Nat) : ∀ (need : Nat) (result : Byte) {s : State} {r : Reader},
    s.units[h]? = some (.reader r) → r.src = b0 →
    readChunks src h passes need result (s.setUnit j u) =
      (readChunks src h passes need result s).onState (·.setUnit j u) := by
  induction passes with
  | zero => intro need result s r _ _; rfl
  | succ passes ih =>
    intro need result s r hu hb
    have h1 : refillIfEmpty src h need result (s.setUnit j u) =
        (refillIfEmpty src h need result s).onState (·.setUnit j u) := by
      simp only [refillIfEmpty, State.readerAt_setUnit hj]
      split
      · exact refill_setUnit hj hsrc hu hb need result
      · rfl
    have fr : (refillIfEmpty src h need result s).KeepsRead (h + 1) s := by
      unfold refillIfEmpty
      split
      · exact refill_frame hframe hu need result
      · exact ReadFrame.refl _ s
    rw [readChunks, h1, readChunks]
    refine Ran.onState_bind fun st t ht => ?_
    rw [ht] at fr
    obtain ⟨r1, hu1, hs1⟩ := fr.readers h r hu
    cases st with
    | err e => rfl
    | ok =>
      simp only [State.readerAt_setUnit hj, State.setUnit_comm hj, State.readerAt_of_get hu1]
      split
      · rfl
      · exact ih _ _ (State.setUnit_get_same _ (lt_of_get hu1)) (hs1.trans hb)

end Reading

/-- A source transaction does not look at units that are not older than its owner. -/
theorem srcRead_setUnit (h : Nat) : ∀ {j : Nat} (u : BitUnit), h ≤ j → ∀ b s,
    srcRead h h b (s.setUnit j u) = (srcRead h h b s).onState (·.setUnit j u) := by
  induction h using Nat.strong_induction_on with
  | _ h ih =>
    intro j u hj b s
    cases b with
    | external k => rw [srcRead_external, srcRead_external]; exact pullSource_setUnit k
    | adapter g =>
      by_cases hg : g < h
      · rw [srcRead_adapter hg, srcRead_adapter hg]
        have hne : j ≠ g := by omega
        have : rdBits g 8 (s.setUnit j u) = (rdBits g 8 s).onState (·.setUnit j u) := by
          unfold rdBits rdBitsVia
          refine asReader_setUnit hne fun r hu => ?_
          exact readChunks_setUnit hne (srcRead_frame g g) (ih g hg u (by omega) r.src) 2 _ _ hu rfl
        rw [this]
        exact Ran.onState_bind fun _ _ _ => rfl
      · cases h <;> simp [srcRead, hg]

/-- RD.BITS on `h` does not look at the unit at `j`, where `j` is younger or the source of `h` is outside. -/
theorem rdBits_setUnit {h j : Nat} (u : BitUnit) (N : Nat) {s : State} (hj : j ≠ h)
    (hb : h < j ∨ boundOutside s h = true) : rdBits h N (s.setUnit j u) = (rdBits h N s).onState (·.setUnit j u) := by
  unfold rdBits rdBitsVia
  refine asReader_setUnit hj fun r hu => ?_
  refine readChunks_setUnit hj (srcRead_frame h h) (fun t => ?_) 2 _ _ hu rfl
  rcases hb with hb | hb
  · exact srcRead_setUnit h u hb.le r.src t
  · simp only [boundOutside, hu] at hb
    cases hs : r.src with
    | external k => rw [srcRead_external, srcRead_external]; exact pullSource_setUnit k
    | adapter g => simp [hs] at hb

/-! ## Writers -/

section Writing

variable {snk : Binding → Byte → State → Ran SinkReply} {h j : Nat} {u : BitUnit} (hj : j ≠ h)
variable (hframe : ∀ k b s, (snk k b s).KeepsWrite h s) {b0 : Binding}
variable (hsnk : ∀ b s, snk b0 b (s.setUnit j u) = (snk b0 b s).onState (·.setUnit j u))
include hj hsnk

theorem emit_setUnit {s : State} {w : Writer} (hu : s.units[h]? = some (.writer w)) (hb : w.snk = b0) (b v : Byte)
    (need : Nat) : emit snk h b v need (s.setUnit j u) = (emit snk h b v need s).onState (·.setUnit j u) := by
  simp only [emit, State.writerAt_setUnit hj, State.writerAt_of_get hu, hb, hsnk]
  cases snk b0 b s with
  | done a t =>
    cases a with
    | ok => simp [State.emptyWriter, State.writerAt_setUnit hj, State.setUnit_comm hj]
    | err e => simp [State.emptyWriter, State.writerAt_setUnit hj, State.setUnit_comm hj]
  | blocked t => simp [State.holdWriter, State.writerAt_setUnit hj, State.setUnit_comm hj]
  | fault f => rfl
  | refused q => rfl

include hframe in
theorem writeChunks_setUnit (v : Byte) (passes : Nat) : ∀ (need : Nat) {s : State} {w : Writer},
    s.units[h]? = some (.writer w) → w.snk = b0 →
    writeChunks snk h v passes need (s.setUnit j u) =
      (writeChunks snk h v passes need s).onState (·.setUnit j u) := by
  induction passes with
  | zero => intro need s w _ _; cases need <;> rfl
  | succ passes ih =>
    intro need s w hu hb
    cases need with
    | zero => rfl
    | succ need =>
      rw [writeChunks, writeChunks]
      simp only [State.writerAt_setUnit hj, State.writerAt_of_get hu, State.setUnit_comm hj]
      have hu1 := State.setUnit_get_same (.writer (w.place v (need + 1))) (lt_of_get hu)
      have hb1 : (w.place v (need + 1)).snk = b0 := hb
      split
      · rw [emit_setUnit hj hsnk hu1 hb1]
        refine Ran.onState_bind fun st t ht => ?_
        have fr := emit_frame hframe hu1 (w.place v (need + 1)).acc v (need + 1 - min (need + 1) (8 - w.filled))
        rw [ht] at fr
        obtain ⟨w2, hu2, hs2⟩ := fr.writers h _ hu1
        cases st with
        | err e => rfl
        | ok => exact ih _ hu2 (hs2.trans hb1)
      · exact ih _ hu1 hb1

end Writing

/-- A sink transaction does not look at units that are not older than its owner. -/
theorem sinkWrite_setUnit (h : Nat) : ∀ {j : Nat} (u : BitUnit), h ≤ j → ∀ k b s,
    sinkWrite h h k b (s.setUnit j u) = (sinkWrite h h k b s).onState (·.setUnit j u) := by
  induction h using Nat.strong_induction_on with
  | _ h ih =>
    intro j u hj k b s
    cases k with
    | external k => rw [sinkWrite_external, sinkWrite_external]; exact offerSink_setUnit k b
    | adapter g =>
      by_cases hg : g < h
      · rw [sinkWrite_adapter hg, sinkWrite_adapter hg]
        have hne : j ≠ g := by omega
        have : wrBits g b.toNat 8 (s.setUnit j u) = (wrBits g b.toNat 8 s).onState (·.setUnit j u) := by
          unfold wrBits wrBitsVia
          refine asWriter_setUnit hne fun w hu => ?_
          exact writeChunks_setUnit hne (sinkWrite_frame g g) (ih g hg u (by omega) w.snk) _ 2 _ hu rfl
        rw [this]
        exact Ran.onState_bind fun _ _ _ => rfl
      · cases h <;> simp [sinkWrite, hg]

/-- What the sink of the writer at `h` does, it does whatever the unit at `j`, where `j` is younger or the sink of `h` is
outside. -/
theorem sinkWrite_setUnit_of {h j : Nat} (u : BitUnit) {s : State} {w : Writer} (hu : s.units[h]? = some (.writer w))
    (hb : h < j ∨ boundOutside s h = true) (b : Byte) (t : State) :
    sinkWrite h h w.snk b (t.setUnit j u) = (sinkWrite h h w.snk b t).onState (·.setUnit j u) := by
  rcases hb with hb | hb
  · exact sinkWrite_setUnit h u hb.le w.snk b t
  · simp only [boundOutside, hu] at hb
    cases hs : w.snk with
    | external k => rw [sinkWrite_external, sinkWrite_external]; exact offerSink_setUnit k b
    | adapter g => simp [hs] at hb

/-- WR.BITS on `h` does not look at the unit at `j`. -/
theorem wrBits_setUnit {h j : Nat} (u : BitUnit) (V N : Nat) {s : State} (hj : j ≠ h)
    (hb : h < j ∨ boundOutside s h = true) : wrBits h V N (s.setUnit j u) = (wrBits h V N s).onState (·.setUnit j u) := by
  unfold wrBits wrBitsVia
  exact asWriter_setUnit hj fun w hu =>
    writeChunks_setUnit hj (sinkWrite_frame h h) (sinkWrite_setUnit_of u hu hb) _ 2 _ hu rfl

/-- WR.FLUSH on `h` does not look at the unit at `j`. -/
theorem wrFlush_setUnit {h j : Nat} (u : BitUnit) {s : State} (hj : j ≠ h)
    (hb : h < j ∨ boundOutside s h = true) : wrFlush h (s.setUnit j u) = (wrFlush h s).onState (·.setUnit j u) := by
  unfold wrFlush
  refine asWriter_setUnit hj fun w hu => ?_
  split
  · rfl
  · rw [emit_setUnit hj (sinkWrite_setUnit_of u hu hb) hu rfl]
    refine Ran.onState_bind fun st t _ => ?_
    cases st <;> rfl

end Sys2Proof.Machine
end

