-- ==== Sys2Proof/Laws/Invariant.lean ====
section
/-! SUPPORT. The invariant `State.Ok` and the states `State.Fair` through every operation: what is done leaves them, what
waits leaves the invariant and waits only where a stream does not answer, and no operation stops for a reason of the
model's own. -/

namespace Sys2Proof.Machine

/-! ## The invariant by handle -/

theorem State.ok_iff (s : State) :
    s.Ok ↔ (∀ h u, s.units[h]? = some u → unitOk s.units h u = true) ∧
      portWf Source.untouched s.sources ∧ portWf Sink.untouched s.sinks := by
  refine and_congr_left fun _ => ?_
  constructor
  · intro ok h u hu
    obtain ⟨hh, rfl⟩ := List.getElem?_eq_some_iff.mp hu
    exact ok h hh
  · intro ok h hh
    exact ok h _ (List.getElem?_eq_getElem hh)

/-- The units of `l'` are of the same kinds as those of `l`, as far as `l` reaches. -/
def KindsAgree (l l' : List BitUnit) : Prop :=
  ∀ (j : Nat), (hasReader l j = true → hasReader l' j = true) ∧ (hasWriter l j = true → hasWriter l' j = true)

theorem unitOk_kinds {l l' : List BitUnit} (hk : KindsAgree l l') {h : Nat} {u : BitUnit} (hu : unitOk l h u = true) :
    unitOk l' h u = true := by
  cases u with
  | reader r =>
    simp only [unitOk, Bool.and_eq_true] at hu ⊢
    refine ⟨hu.1, ?_⟩
    cases hs : r.src with
    | external k => rfl
    | adapter g =>
      have := hu.2
      simp only [hs, readerBindingOk, Bool.and_eq_true] at this ⊢
      exact ⟨this.1, (hk g).1 this.2⟩
  | writer w =>
    simp only [unitOk, Bool.and_eq_true] at hu ⊢
    refine ⟨hu.1, ?_⟩
    cases hs : w.snk with
    | external k => rfl
    | adapter g =>
      have := hu.2
      simp only [hs, writerBindingOk, Bool.and_eq_true] at this ⊢
      exact ⟨this.1, (hk g).2 this.2⟩

theorem kindsAgree_set {l : List BitUnit} {h : Nat} {u u' : BitUnit} (hu : l[h]? = some u) (hk : u'.kind = u.kind) :
    KindsAgree l (l.set h u') := by
  intro j
  by_cases hj : j = h
  · subst hj
    have hlt : j < l.length := (List.getElem?_eq_some_iff.mp hu).1
    simp only [hasReader, hasWriter, hu, List.getElem?_set_self hlt]
    cases u <;> cases u' <;> simp_all [BitUnit.kind]
  · simp [hasReader, hasWriter, List.getElem?_set_ne (Ne.symm hj)]

theorem kindsAgree_append (l m : List BitUnit) : KindsAgree l (l ++ m) := by
  intro j
  by_cases hj : j < l.length
  · simp [hasReader, hasWriter, List.getElem?_append_left hj]
  · simp [hasReader, hasWriter, List.getElem?_eq_none (Nat.not_lt.mp hj)]

theorem hasReader_of_get {l : List BitUnit} {h : Nat} {r : Reader} (hu : l[h]? = some (.reader r)) :
    hasReader l h = true := by simp [hasReader, hu]

theorem hasWriter_of_get {l : List BitUnit} {h : Nat} {w : Writer} (hu : l[h]? = some (.writer w)) :
    hasWriter l h = true := by simp [hasWriter, hu]

theorem get_of_hasReader {l : List BitUnit} {h : Nat} (hr : hasReader l h = true) : ∃ r, l[h]? = some (.reader r) := by
  unfold hasReader at hr
  split at hr
  · exact ⟨_, ‹_›⟩
  · exact absurd hr (by simp)

theorem get_of_hasWriter {l : List BitUnit} {h : Nat} (hw : hasWriter l h = true) : ∃ w, l[h]? = some (.writer w) := by
  unfold hasWriter at hw
  split at hw
  · exact ⟨_, ‹_›⟩
  · exact absurd hw (by simp)

section Ok

variable {s : State} {h : Nat}

theorem State.Ok.reader (ok : s.Ok) {r : Reader} (hu : s.units[h]? = some (.reader r)) : r.Ok := by
  have := (s.ok_iff.mp ok).1 h _ hu
  simp only [unitOk, Bool.and_eq_true, decide_eq_true_eq] at this
  exact this.1

theorem State.Ok.readerBinding (ok : s.Ok) {r : Reader} (hu : s.units[h]? = some (.reader r)) :
    readerBindingOk s.units h r.src = true := by
  have := (s.ok_iff.mp ok).1 h _ hu
  simp only [unitOk, Bool.and_eq_true] at this
  exact this.2

theorem State.Ok.writer (ok : s.Ok) {w : Writer} (hu : s.units[h]? = some (.writer w)) : w.Ok := by
  have := (s.ok_iff.mp ok).1 h _ hu
  simp only [unitOk, Bool.and_eq_true, decide_eq_true_eq] at this
  exact this.1

theorem State.Ok.writerBinding (ok : s.Ok) {w : Writer} (hu : s.units[h]? = some (.writer w)) :
    writerBindingOk s.units h w.snk = true := by
  have := (s.ok_iff.mp ok).1 h _ hu
  simp only [unitOk, Bool.and_eq_true] at this
  exact this.2

theorem State.Ok.setUnit (ok : s.Ok) {u u' : BitUnit} (hu : s.units[h]? = some u) (hk : u'.kind = u.kind)
    (hu' : unitOk s.units h u' = true) : (s.setUnit h u').Ok := by
  rw [State.ok_iff] at ok ⊢
  refine ⟨fun j v hv => ?_, ok.2⟩
  by_cases hj : j = h
  · subst hj
    rw [State.setUnit_get_same _ (lt_of_get hu)] at hv
    obtain rfl : u' = v := by simpa using hv
    exact unitOk_kinds (kindsAgree_set hu hk) hu'
  · rw [State.setUnit_get_other _ hj] at hv
    exact unitOk_kinds (kindsAgree_set hu hk) (ok.1 j v hv)

theorem State.Ok.setReader (ok : s.Ok) {r r' : Reader} (hu : s.units[h]? = some (.reader r)) (hr : r'.Ok)
    (hsrc : r'.src = r.src) : (s.setUnit h (.reader r')).Ok := by
  refine ok.setUnit hu rfl ?_
  simp only [unitOk, Bool.and_eq_true, decide_eq_true_eq]
  exact ⟨hr, hsrc ▸ ok.readerBinding hu⟩

theorem State.Ok.setWriter (ok : s.Ok) {w w' : Writer} (hu : s.units[h]? = some (.writer w)) (hw : w'.Ok)
    (hsnk : w'.snk = w.snk) : (s.setUnit h (.writer w')).Ok := by
  refine ok.setUnit hu rfl ?_
  simp only [unitOk, Bool.and_eq_true, decide_eq_true_eq]
  exact ⟨hw, hsnk ▸ ok.writerBinding hu⟩

theorem State.Ok.addUnit (ok : s.Ok) {u : BitUnit} (hu : unitOk s.units s.units.length u = true) : (s.addUnit u).Ok := by
  rw [State.ok_iff] at ok ⊢
  refine ⟨fun j v hv => ?_, ok.2⟩
  refine unitOk_kinds (kindsAgree_append s.units [u]) ?_
  by_cases hj : j < s.units.length
  · exact ok.1 j v (by simpa [List.getElem?_append_left hj] using hv)
  · simp only [State.addUnit_units, List.getElem?_append_right (Nat.not_lt.mp hj)] at hv
    rcases Nat.eq_zero_or_pos (j - s.units.length) with h0 | h0
    · obtain rfl : j = s.units.length := by omega
      simp at hv
      exact hv ▸ hu
    · rw [List.getElem?_eq_none (by simp; omega)] at hv
      cases hv

/-- The invariant says nothing of the host's fields. -/
theorem State.Ok.congr (ok : s.Ok) {t : State} (hu : t.units = s.units) (hs : t.sources = s.sources)
    (hk : t.sinks = s.sinks) : t.Ok := by
  rw [State.ok_iff] at ok ⊢
  rw [hu, hs, hk]
  exact ok

theorem State.Ok.setSource (ok : s.Ok) (k : Nat) (x : Source) : (s.setSource k x).Ok :=
  ⟨ok.1, portSet_wf _ k x ok.2.1, ok.2.2⟩

theorem State.Ok.setSink (ok : s.Ok) (k : Nat) (x : Sink) : (s.setSink k x).Ok :=
  ⟨ok.1, ok.2.1, portSet_wf _ k x ok.2.2⟩

end Ok

/-! ## Units that keep their invariant -/

theorem Reader.ok_fresh (b : Binding) : (Reader.fresh b).Ok := by
  simp [Reader.fresh, Reader.Ok, Reader.restsOk]

theorem Writer.ok_fresh (b : Binding) : (Writer.fresh b).Ok := by
  simp [Writer.fresh, Writer.Ok, Writer.restsOk]

theorem Reader.restsOk_of_idle {r : Reader} (hi : r.micro = .idle) : r.restsOk = true := by
  simp [Reader.restsOk, hi]

theorem Reader.ok_drained {r : Reader} (hi : r.micro = .idle) : r.drained.Ok := by
  refine ⟨by simp [Reader.drained], by simp [Reader.drained], by simp [Reader.drained], ?_⟩
  exact Reader.restsOk_of_idle hi

theorem Reader.ok_afterByte {r : Reader} (hi : r.micro = .idle) (b : Byte) (m : Nat) : (r.afterByte b m).Ok := by
  refine ⟨by simp [Reader.afterByte], and_mask_shiftRight_eq_zero b (by simp), ?_, Reader.restsOk_of_idle hi⟩
  intro _
  simp [Reader.afterByte]

theorem Reader.ok_held {r : Reader} (hi : r.micro = .idle) (ok : r.Ok) (hc : r.count ≠ 0) {n : Nat} :
    Reader.Ok { r with acc := r.acc &&& mask (r.count - n), count := r.count - n } := by
  obtain ⟨h8, -, hlast, -⟩ := ok
  refine ⟨by simp; omega, and_mask_shiftRight_eq_zero _ (by simp; omega), ?_, Reader.restsOk_of_idle hi⟩
  intro _
  have := hlast hc
  cases hg : r.delivered.getLast? with
  | none => simp [hg] at this
  | some b =>
    simp only [hg, Option.map_some, Option.some.injEq] at this ⊢
    rw [← this, and_mask_and_mask _ (Nat.sub_le _ _) h8]

theorem Reader.ok_wait {r : Reader} (hacc : r.acc = 0) (hc : r.count = 0) {need : Nat} (hn : need ≤ 8) (held : Byte) :
    Reader.Ok { r with micro := .waitSrc need held } := by
  simp [Reader.Ok, Reader.restsOk, hacc, hc, hn]

theorem Reader.acc_of_empty {r : Reader} (ok : r.Ok) (hc : r.count = 0) : r.acc = 0 := by
  simpa [hc] using ok.2.1

theorem Writer.filled_of_idle {w : Writer} (ok : w.Ok) (hi : w.micro = .idle) : w.filled ≤ 7 := by
  simpa [Writer.restsOk, hi] using ok.2

theorem Writer.ok_emptied {w' : Writer} (hi : w'.micro = .idle) (ha : w'.acc = 0) (hf : w'.filled = 0) : w'.Ok := by
  simp [Writer.Ok, Writer.restsOk, hi, ha, hf]

theorem Writer.insert_shiftRight {w : Writer} (hacc : w.acc >>> w.filled = 0) (v : Byte) {n : Nat}
    (hn : w.filled + n ≤ 8) : (w.insert v n).acc >>> (w.insert v n).filled = 0 :=
  insert_shiftRight_eq_zero w.acc v hn hacc

theorem Writer.ok_insert {w : Writer} (hacc : w.acc >>> w.filled = 0) (hi : w.micro = .idle) (v : Byte) {n : Nat}
    (hn : w.filled + n < 8) : (w.insert v n).Ok :=
  ⟨Writer.insert_shiftRight hacc v (by omega), by simp [Writer.restsOk, Writer.insert, hi]; omega⟩

theorem Writer.ok_wait {w : Writer} (hacc : w.acc >>> w.filled = 0) (h1 : 1 ≤ w.filled) (h8 : w.filled ≤ 8) (v : Byte)
    {need : Nat} (hn : need ≤ 7) : Writer.Ok { w with micro := .waitSnk v need } :=
  ⟨hacc, by simp [Writer.restsOk, hn, h1, h8]⟩

/-! ## States that operations keep -/

/-- The invariant, and, where `fair` holds, that no unit is inside a command and every stream answers. -/
abbrev State.Keeps (fair : Prop) (s : State) : Prop :=
  s.Ok ∧ (fair → s.allIdle = true ∧ s.StreamsAnswer)

/-- What an operation in such a state comes to. -/
def Ran.Good {α : Type} (fair : Prop) : Ran α → Prop
  | .done _ t => t.Keeps fair
  | .blocked t => t.Ok ∧ ¬ fair
  | .fault f => f ≠ .adapterOrder ∧ f ≠ .chunkLoop ∧ ¬ fair
  | .refused _ => ¬ fair

section Good

variable {α β : Type} {fair : Prop} {s : State} {h : Nat}

theorem Ran.good_bind {m : Ran α} {f : α → State → Ran β} (hm : m.Good fair)
    (hf : ∀ a t, m = .done a t → t.Keeps fair → (f a t).Good fair) : (m.bind f).Good fair := by
  cases m with
  | done a t => exact hf a t rfl hm
  | blocked t => exact hm
  | fault e => exact hm
  | refused q => exact hm

theorem State.idle_of_get (hk : s.allIdle = true) {r : Reader} (hu : s.units[h]? = some (.reader r)) : r.micro = .idle := by
  have := List.all_eq_true.mp hk _ (List.mem_of_getElem? hu)
  simpa using this

theorem State.idle_of_get_writer (hk : s.allIdle = true) {w : Writer} (hu : s.units[h]? = some (.writer w)) :
    w.micro = .idle := by
  have := List.all_eq_true.mp hk _ (List.mem_of_getElem? hu)
  simpa using this

theorem State.allIdle_setReader (hk : s.allIdle = true) {r : Reader} (hi : r.micro = .idle) :
    (s.setUnit h (.reader r)).allIdle = true := by
  simp only [State.allIdle, State.setUnit_units, List.all_eq_true] at hk ⊢
  intro u hu
  rcases List.mem_or_eq_of_mem_set hu with hu | rfl
  · exact hk u hu
  · simpa using hi

theorem State.allIdle_setWriter (hk : s.allIdle = true) {w : Writer} (hi : w.micro = .idle) :
    (s.setUnit h (.writer w)).allIdle = true := by
  simp only [State.allIdle, State.setUnit_units, List.all_eq_true] at hk ⊢
  intro u hu
  rcases List.mem_or_eq_of_mem_set hu with hu | rfl
  · exact hk u hu
  · simpa using hi

theorem State.Keeps.setReader (hk : s.Keeps fair) {r r' : Reader} (hu : s.units[h]? = some (.reader r)) (hr : r'.Ok)
    (hi : r'.micro = .idle) (hsrc : r'.src = r.src) : (s.setUnit h (.reader r')).Keeps fair :=
  ⟨hk.1.setReader hu hr hsrc, fun f => ⟨State.allIdle_setReader (hk.2 f).1 hi, (hk.2 f).2⟩⟩

theorem State.Keeps.setWriter (hk : s.Keeps fair) {w w' : Writer} (hu : s.units[h]? = some (.writer w)) (hw : w'.Ok)
    (hi : w'.micro = .idle) (hsnk : w'.snk = w.snk) : (s.setUnit h (.writer w')).Keeps fair :=
  ⟨hk.1.setWriter hu hw hsnk, fun f => ⟨State.allIdle_setWriter (hk.2 f).1 hi, (hk.2 f).2⟩⟩

theorem State.Keeps.congr (hk : s.Keeps fair) {t : State} (hu : t.units = s.units) (hs : t.sources = s.sources)
    (hn : t.sinks = s.sinks) : t.Keeps fair := by
  refine ⟨hk.1.congr hu hs hn, fun f => ?_⟩
  have := hk.2 f
  simp only [State.allIdle, State.StreamsAnswer, hu, hs, hn] at this ⊢
  exact this

theorem respond_good (hk : s.Keeps fair) (st : Status) (d : Byte) : (respond h st d s).Good fair :=
  hk.congr rfl rfl rfl

theorem respondError_good (hk : s.Keeps fair) (e : ExtErr) : (respondError h e s).Good fair := respond_good hk _ _

theorem State.source_answers (hs : s.StreamsAnswer) (k : Nat) : (s.source k).answers = true := by
  rcases portGet_mem_or_default Source.untouched s.sources k with hm | ⟨hd, -⟩
  · exact hs.1 _ hm
  · rw [State.source, hd]; rfl

theorem State.sink_answers (hs : s.StreamsAnswer) (k : Nat) : (s.sink k).answers = true := by
  rcases portGet_mem_or_default Sink.untouched s.sinks k with hm | ⟨hd, -⟩
  · exact hs.2 _ hm
  · rw [State.sink, hd]; rfl

/-- A source that answers does so with its next request, and goes on answering. -/
theorem Source.next_of_answers {x : Source} (hx : x.answers = true) (k : Nat) :
    (∃ a, x.next k = .reply a) ∧ ∀ a, (x.advance a).answers = true := by
  obtain ⟨script, tail, log⟩ := x
  simp only [Source.answers, Bool.and_eq_true, List.all_eq_true] at hx
  refine ⟨?_, fun a => ?_⟩
  · cases script with
    | nil =>
      cases tail with
      | oracle => exact ⟨_, rfl⟩
      | always e => cases e <;> simp_all [Source.next, SrcEvent.answers]
    | cons e l =>
      have := hx.1 e (by simp)
      cases e <;> simp_all [Source.next, SrcEvent.answers]
  · simp only [Source.answers, Source.advance, Bool.and_eq_true, List.all_eq_true]
    exact ⟨fun e he => hx.1 e (List.mem_of_mem_tail he), hx.2⟩

theorem Sink.next_of_answers {x : Sink} (hx : x.answers = true) (k : Nat) :
    (∃ a, x.next k = .reply a) ∧ ∀ b a, (x.advance b a).answers = true := by
  obtain ⟨script, tail, log⟩ := x
  simp only [Sink.answers, Bool.and_eq_true, List.all_eq_true] at hx
  refine ⟨?_, fun b a => ?_⟩
  · cases script with
    | nil =>
      cases tail with
      | oracle => exact ⟨_, rfl⟩
      | always e => cases e <;> simp_all [Sink.next, SinkEvent.answers]
    | cons e l =>
      have := hx.1 e (by simp)
      cases e <;> simp_all [Sink.next, SinkEvent.answers]
  · simp only [Sink.answers, Sink.advance, Bool.and_eq_true, List.all_eq_true]
    exact ⟨fun e he => hx.1 e (List.mem_of_mem_tail he), hx.2⟩

theorem pullSource_good (hk : s.Keeps fair) (k : Nat) : (pullSource k s).Good fair := by
  have silent : fair → ∃ a, (s.source k).next k = .reply a :=
    fun f => (Source.next_of_answers (State.source_answers (hk.2 f).2 k) k).1
  unfold pullSource
  split
  · next a _ =>
    refine ⟨hk.1.setSource k _, fun f => ⟨(hk.2 f).1, fun p hp => ?_, (hk.2 f).2.2⟩⟩
    rcases mem_portSet _ hp with ⟨rfl, -⟩ | hp
    · exact (Source.next_of_answers (State.source_answers (hk.2 f).2 k) k).2 a
    · exact (hk.2 f).2.1 p hp
  · exact ⟨hk.1, fun f => by obtain ⟨a, ha⟩ := silent f; simp_all⟩
  · exact ⟨by simp, by simp, fun f => by obtain ⟨a, ha⟩ := silent f; simp_all⟩
  · exact ⟨by simp, by simp, fun f => by obtain ⟨a, ha⟩ := silent f; simp_all⟩

theorem offerSink_good (hk : s.Keeps fair) (k : Nat) (b : Byte) : (offerSink k b s).Good fair := by
  have silent : fair → ∃ a, (s.sink k).next k = .reply a :=
    fun f => (Sink.next_of_answers (State.sink_answers (hk.2 f).2 k) k).1
  unfold offerSink
  split
  · next a _ =>
    refine ⟨hk.1.setSink k _, fun f => ⟨(hk.2 f).1, (hk.2 f).2.1, fun p hp => ?_⟩⟩
    rcases mem_portSet _ hp with ⟨rfl, -⟩ | hp
    · exact (Sink.next_of_answers (State.sink_answers (hk.2 f).2 k) k).2 b a
    · exact (hk.2 f).2.2 p hp
  · exact ⟨hk.1, fun f => by obtain ⟨a, ha⟩ := silent f; simp_all⟩
  · exact ⟨by simp, by simp, fun f => by obtain ⟨a, ha⟩ := silent f; simp_all⟩

end Good

/-! ## Readers -/

section Reading

variable {fair : Prop}

theorem afterSrcRead_good {h : Nat} {r : Reader} (hi : r.micro = .idle) (ha : r.acc = 0) (hc : r.count = 0)
    {need : Nat} (hn : need ≤ 8) (held : Byte) {s : State} (hu : s.units[h]? = some (.reader r)) {m : Ran SrcReply}
    (hm : m.Good fair) (hf : m.KeepsRead h s) : (afterSrcRead h r need held m).Good fair := by
  cases m with
  | done a t =>
    have hu1 := ReadFrame.reader_above hf le_rfl hu
    cases a with
    | byte b => exact respond_good (State.Keeps.setReader hm hu1 (Reader.ok_afterByte hi b need) hi rfl) _ _
    | err e => exact respondError_good hm e
  | blocked t =>
    have hu1 := ReadFrame.reader_above hf le_rfl hu
    exact ⟨hm.1.setReader hu1 (Reader.ok_wait ha hc hn held) rfl, hm.2⟩
  | fault f => exact hm
  | refused q => exact hm

theorem rdBits_good_of {h : Nat}
    (hsrc : ∀ b (s : State), s.Keeps fair → readerBindingOk s.units h b = true → (srcRead h h b s).Good fair)
    {s : State} (hk : s.Keeps fair) (hr : hasReader s.units h = true) (N : Nat) : (rdBits h N s).Good fair := by
  obtain ⟨r, hu⟩ := get_of_hasReader hr
  by_cases hi : r.micro = .idle
  · have ok := hk.1.reader hu
    by_cases hc : r.count = 0
    · rw [rdBits_empty hu hi N hc]
      exact afterSrcRead_good hi (Reader.acc_of_empty ok hc) hc (clamp8_le N) _ hu
        (hsrc _ s hk (hk.1.readerBinding hu)) (srcRead_frame h h _ s)
    · by_cases hn : clamp8 N ≤ r.count
      · rw [rdBits_held hu hi N hc hn]
        exact respond_good (State.Keeps.setReader hk hu (Reader.ok_held hi ok hc) hi rfl) _ _
      · rw [rdBits_straddle hu hi N hc (Nat.not_le.mp hn)]
        have hk1 := State.Keeps.setReader hk hu (Reader.ok_drained hi) hi rfl
        have hu1 := State.setUnit_get_same (.reader r.drained) (lt_of_get hu)
        have := clamp8_le N
        exact afterSrcRead_good (r := r.drained) hi rfl rfl (by omega) _ hu1
          (hsrc _ _ hk1 (State.Ok.readerBinding (r := r.drained) hk1.1 hu1)) (srcRead_frame h h _ _)
  · rw [rdBits, rdBitsVia]
    simp only [asReader, hu, hi, if_false]
    exact fun f => hi (State.idle_of_get (hk.2 f).1 hu)

theorem srcRead_good (h : Nat) : ∀ b (s : State), s.Keeps fair → readerBindingOk s.units h b = true →
    (srcRead h h b s).Good fair := by
  induction h using Nat.strong_induction_on with
  | _ h ih =>
    intro b s hk hb
    cases b with
    | external k => rw [srcRead_external]; exact pullSource_good hk k
    | adapter g =>
      simp only [readerBindingOk, Bool.and_eq_true, decide_eq_true_eq] at hb
      rw [srcRead_adapter hb.1]
      exact Ran.good_bind (rdBits_good_of (ih g hb.1) hk hb.2 8) fun _ t _ ht => ht

/-- Where nothing says that the handle names a reader, RD.BITS may be refused. -/
theorem rdBits_good {h : Nat} {s : State} (hk : s.Keeps fair) (hr : fair → hasReader s.units h = true) (N : Nat) :
    (rdBits h N s).Good fair := by
  by_cases hh : hasReader s.units h = true
  · exact rdBits_good_of (srcRead_good h) hk hh N
  · rw [rdBits, rdBitsVia, asReader]
    split
    · exact fun f => hh (hr f)
    · exact fun f => hh (hr f)
    · exact absurd (hasReader_of_get ‹_›) hh

end Reading

/-! ## Writers -/

section Writing

variable {fair : Prop}

/-- The sink transaction of a command in progress: the writer `w1` at `h` stands for the one of the state `s` before. -/
theorem afterSinkWrite_good {h : Nat} {w w1 : Writer} (hi : w1.micro = .idle) (hsnk : w1.snk = w.snk)
    (hacc : w1.acc >>> w1.filled = 0) (h1 : 1 ≤ w1.filled) (h8 : w1.filled ≤ 8) (b v : Byte) {need : Nat} (hn : need ≤ 7)
    {rest : State → Ran Response} {s : State} (hu : s.units[h]? = some (.writer w))
    (hm : (sinkWrite h h w.snk b s).Good fair)
    (hrest : ∀ t : State, t.Keeps fair → t.units[h]? = some (.writer (w1.afterAccepted b)) → (rest t).Good fair) :
    (afterSinkWrite h w1 b v need rest (sinkWrite h h w.snk b (s.setUnit h (.writer w1)))).Good fair := by
  rw [sinkWrite_setUnit h _ le_rfl]
  have hf := sinkWrite_frame h h w.snk b s
  cases he : sinkWrite h h w.snk b s with
  | done a t =>
    rw [he] at hm hf
    have hu1 := WriteFrame.writer_above hf le_rfl hu
    cases a with
    | ok =>
      simp only [Ran.onState_done, afterSinkWrite, State.setUnit_setUnit]
      exact hrest _ (State.Keeps.setWriter hm hu1 (Writer.ok_emptied (w' := w1.afterAccepted b) hi rfl rfl) hi hsnk)
        (State.setUnit_get_same _ (lt_of_get hu1))
    | err e =>
      simp only [Ran.onState_done, afterSinkWrite, State.setUnit_setUnit]
      exact respondError_good
        (State.Keeps.setWriter hm hu1 (Writer.ok_emptied (w' := w1.afterRejected) hi rfl rfl) hi hsnk) e
  | blocked t =>
    rw [he] at hm hf
    have hu1 := WriteFrame.writer_above hf le_rfl hu
    simp only [Ran.onState_blocked, afterSinkWrite, State.setUnit_setUnit]
    exact ⟨hm.1.setWriter hu1 (Writer.ok_wait hacc h1 h8 v hn) hsnk, hm.2⟩
  | fault f => rw [he] at hm; exact hm
  | refused q => rw [he] at hm; exact hm

theorem wrBits_good_of {h : Nat}
    (hsnk : ∀ k b (s : State), s.Keeps fair → writerBindingOk s.units h k = true → (sinkWrite h h k b s).Good fair)
    {s : State} (hk : s.Keeps fair) (hr : hasWriter s.units h = true) (V N : Nat) : (wrBits h V N s).Good fair := by
  obtain ⟨w, hu⟩ := get_of_hasWriter hr
  by_cases hi : w.micro = .idle
  · have ok := hk.1.writer hu
    have h7 := Writer.filled_of_idle ok hi
    have hs : ∀ b, (sinkWrite h h w.snk b s).Good fair := fun b => hsnk _ b s hk (hk.1.writerBinding hu)
    have := clamp8_le N
    by_cases h0 : clamp8 N = 0
    · rw [wrBits_zero hu hi V N h0]
      exact respond_good hk _ _
    · rcases Nat.lt_trichotomy (w.filled + clamp8 N) 8 with hn | hn | hn
      · rw [wrBits_fits hu hi V N h0 hn]
        exact respond_good (State.Keeps.setWriter hk hu (Writer.ok_insert ok.1 hi _ hn) hi rfl) _ _
      · rw [wrBits_exact hu hi V N h0 hn]
        refine afterSinkWrite_good (w := w) (w1 := w.insert _ _) hi rfl (Writer.insert_shiftRight ok.1 _ hn.le) ?_ ?_ _ _ (by omega) hu (hs _) ?_
        · simp only [Writer.insert]; omega
        · exact hn.le
        · exact fun t ht _ => respond_good ht _ _
      · rw [wrBits_over hu hi V N h7 hn]
        refine afterSinkWrite_good (w := w) (w1 := w.insert _ _) hi rfl (Writer.insert_shiftRight ok.1 _ (by omega)) ?_ ?_ _ _ (by omega) hu (hs _) ?_
        · simp only [Writer.insert]; omega
        · simp only [Writer.insert]; omega
        · intro t ht hut
          refine respond_good (State.Keeps.setWriter ht hut (Writer.ok_insert ?_ ?_ _ ?_) ?_ ?_) _ _
          · simp [Writer.afterAccepted]
          · exact hi
          · simp [Writer.afterAccepted]; omega
          · exact hi
          · rfl
  · rw [wrBits, wrBitsVia]
    simp only [asWriter, hu, hi, if_false]
    exact fun f => hi (State.idle_of_get_writer (hk.2 f).1 hu)

theorem sinkWrite_good (h : Nat) : ∀ k b (s : State), s.Keeps fair → writerBindingOk s.units h k = true →
    (sinkWrite h h k b s).Good fair := by
  induction h using Nat.strong_induction_on with
  | _ h ih =>
    intro k b s hk hb
    cases k with
    | external k => rw [sinkWrite_external]; exact offerSink_good hk k b
    | adapter g =>
      simp only [writerBindingOk, Bool.and_eq_true, decide_eq_true_eq] at hb
      rw [sinkWrite_adapter hb.1]
      exact Ran.good_bind (wrBits_good_of (ih g hb.1) hk hb.2 _ 8) fun _ t _ ht => ht

/-- Where nothing says that the handle names a writer, WR.BITS may be refused. -/
theorem wrBits_good {h : Nat} {s : State} (hk : s.Keeps fair) (hr : fair → hasWriter s.units h = true) (V N : Nat) :
    (wrBits h V N s).Good fair := by
  by_cases hh : hasWriter s.units h = true
  · exact wrBits_good_of (sinkWrite_good h) hk hh V N
  · rw [wrBits, wrBitsVia, asWriter]
    split
    · exact fun f => hh (hr f)
    · exact fun f => hh (hr f)
    · exact absurd (hasWriter_of_get ‹_›) hh

/-- WR.FLUSH on a writer. -/
theorem wrFlush_good {h : Nat} {s : State} (hk : s.Keeps fair) (hr : fair → hasWriter s.units h = true) :
    (wrFlush h s).Good fair := by
  by_cases hh : hasWriter s.units h = true
  swap
  · rw [wrFlush, asWriter]
    split
    · exact fun f => hh (hr f)
    · exact fun f => hh (hr f)
    · exact absurd (hasWriter_of_get ‹_›) hh
  obtain ⟨w, hu⟩ := get_of_hasWriter hh
  by_cases hi : w.micro = .idle
  · have ok := hk.1.writer hu
    have h7 := Writer.filled_of_idle ok hi
    by_cases h0 : w.filled = 0
    · rw [wrFlush_empty hu hi h0]
      exact respond_good hk _ _
    · rw [wrFlush_partial hu hi h0]
      have := afterSinkWrite_good (rest := respond h .ok 0x00) hi rfl ok.1 (by omega) (by omega) w.flushByte 0x00
        (need := 0) (by omega) hu (sinkWrite_good h _ _ s hk (hk.1.writerBinding hu)) fun t ht _ => respond_good ht _ _
      rwa [State.setUnit_get_self hu] at this
  · rw [wrFlush]
    simp only [asWriter, hu, hi, if_false]
    exact fun f => hi (State.idle_of_get_writer (hk.2 f).1 hu)

end Writing

/-! ## Operations of the host -/

section Operations

variable {fair : Prop}

theorem ReadFrame.kinds {bound : Nat} {s t : State} (f : ReadFrame bound s t) : KindsAgree s.units t.units := by
  refine fun j => ⟨fun hr => ?_, fun hw => ?_⟩
  · obtain ⟨r, hu⟩ := get_of_hasReader hr
    obtain ⟨r', hu', -⟩ := f.readers j r hu
    exact hasReader_of_get hu'
  · obtain ⟨w, hu⟩ := get_of_hasWriter hw
    exact hasWriter_of_get (f.writers j w hu)

theorem WriteFrame.kinds {bound : Nat} {s t : State} (f : WriteFrame bound s t) : KindsAgree s.units t.units := by
  refine fun j => ⟨fun hr => ?_, fun hw => ?_⟩
  · obtain ⟨r, hu⟩ := get_of_hasReader hr
    exact hasReader_of_get (f.readers j r hu)
  · obtain ⟨w, hu⟩ := get_of_hasWriter hw
    obtain ⟨w', hu', -⟩ := f.writers j w hu
    exact hasWriter_of_get hu'

theorem rdBits_kinds {h N : Nat} {s t : State} {resp : Response} (hd : rdBits h N s = .done resp t) :
    KindsAgree s.units t.units := by
  have f := rdBits_frame h N s
  rw [hd] at f
  exact ReadFrame.kinds f

theorem wrBits_kinds {h V N : Nat} {s t : State} {resp : Response} (hd : wrBits h V N s = .done resp t) :
    KindsAgree s.units t.units := by
  have f := wrBits_frame h V N s
  rw [hd] at f
  exact WriteFrame.kinds f

theorem readBools_good (h m : Nat) : ∀ {s : State}, s.Keeps fair → (fair → hasReader s.units h = true) →
    (readBools h m s).Good fair := by
  induction m with
  | zero => intro s hk _; exact hk
  | succ m ih =>
    intro s hk hr
    refine Ran.good_bind (rdBits_good hk hr 1) fun resp t ht hkt => ?_
    split
    · exact hkt
    · refine Ran.good_bind (ih hkt fun f => (rdBits_kinds ht h).1 (hr f)) fun _ _ _ hku => hku

theorem readBytes_good (h b m : Nat) : ∀ (i : Nat) {s : State}, s.Keeps fair → (fair → hasReader s.units h = true) →
    (readBytes h b m i s).Good fair ∧ ∀ x t, readBytes h b m i s = .done x t → KindsAgree s.units t.units := by
  induction m with
  | zero =>
    intro i s hk _
    refine ⟨hk, fun x t ht => ?_⟩
    simp only [readBytes, Ran.done.injEq] at ht
    rw [← ht.2]
    exact fun _ => ⟨id, id⟩
  | succ m ih =>
    intro i s hk hr
    have hg := rdBits_good hk hr 8
    simp only [readBytes]
    cases hd : rdBits h 8 s with
    | done resp t =>
      rw [hd] at hg
      have kinds := rdBits_kinds hd
      simp only [Ran.bind_done]
      cases resp.status with
      | err e =>
        refine ⟨State.Keeps.congr hg rfl rfl rfl, fun x u hu => ?_⟩
        simp only [Ran.done.injEq] at hu
        rw [← hu.2]
        exact kinds
      | ok =>
        have next := ih (i + 1) (State.Keeps.congr (t := t.bufWrite b i resp.data) hg rfl rfl rfl)
          fun f => (kinds h).1 (hr f)
        exact ⟨next.1, fun x u hu j =>
          ⟨fun a => (next.2 x u hu j).1 ((kinds j).1 a), fun a => (next.2 x u hu j).2 ((kinds j).2 a)⟩⟩
    | blocked t => rw [hd] at hg; exact ⟨hg, by simp⟩
    | fault f => rw [hd] at hg; exact ⟨hg, by simp⟩
    | refused q => rw [hd] at hg; exact ⟨hg, by simp⟩

theorem readBitsInto_good (h b totalBits : Nat) {s : State} (hk : s.Keeps fair)
    (hr : fair → hasReader s.units h = true) : (readBitsInto h b totalBits s).Good fair := by
  have hbytes := readBytes_good h b (splitBits totalBits (s.buffer b).length).1 0 hk hr
  refine Ran.good_bind hbytes.1 fun p t ht hkt => ?_
  split
  · exact hkt
  · split
    · exact hkt
    · refine Ran.good_bind (rdBits_good hkt (fun f => (hbytes.2 p t ht h).1 (hr f)) _) fun resp u _ hku => ?_
      split <;> exact State.Keeps.congr hku rfl rfl rfl

theorem writeBytes_good (h : Nat) (bytes : List Byte) : ∀ (i : Nat) {s : State}, s.Keeps fair →
    (fair → hasWriter s.units h = true) →
    (writeBytes h bytes i s).Good fair ∧ ∀ x t, writeBytes h bytes i s = .done x t → KindsAgree s.units t.units := by
  induction bytes with
  | nil =>
    intro i s hk _
    refine ⟨hk, fun x t ht => ?_⟩
    simp only [writeBytes, Ran.done.injEq] at ht
    rw [← ht.2]
    exact fun _ => ⟨id, id⟩
  | cons v bytes ih =>
    intro i s hk hr
    have hg := wrBits_good hk hr v.toNat 8
    simp only [writeBytes]
    cases hd : wrBits h v.toNat 8 s with
    | done resp t =>
      rw [hd] at hg
      have kinds := wrBits_kinds hd
      simp only [Ran.bind_done]
      cases resp.status with
      | err e =>
        refine ⟨hg, fun x u hu => ?_⟩
        simp only [Ran.done.injEq] at hu
        rw [← hu.2]
        exact kinds
      | ok =>
        have next := ih (i + 1) hg fun f => (kinds h).2 (hr f)
        exact ⟨next.1, fun x u hu j =>
          ⟨fun a => (next.2 x u hu j).1 ((kinds j).1 a), fun a => (next.2 x u hu j).2 ((kinds j).2 a)⟩⟩
    | blocked t => rw [hd] at hg; exact ⟨hg, by simp⟩
    | fault f => rw [hd] at hg; exact ⟨hg, by simp⟩
    | refused q => rw [hd] at hg; exact ⟨hg, by simp⟩

theorem writeBitsFrom_good (h b totalBits : Nat) {s : State} (hk : s.Keeps fair)
    (hr : fair → hasWriter s.units h = true) : (writeBitsFrom h b totalBits s).Good fair := by
  have hbytes := writeBytes_good h ((s.buffer b).take (splitBits totalBits (s.buffer b).length).1) 0 hk hr
  refine Ran.good_bind hbytes.1 fun p t ht hkt => ?_
  split
  · exact hkt
  · split
    · exact hkt
    · refine Ran.good_bind (wrBits_good hkt (fun f => (hbytes.2 p t ht h).2 (hr f)) _ _) fun resp u _ hku => ?_
      split <;> exact hku

theorem writeBools_good (h : Nat) (seq : List Bool) : ∀ {s : State}, s.Keeps fair →
    (fair → hasWriter s.units h = true) → (writeBools h seq s).Good fair := by
  induction seq with
  | nil => intro s hk _; exact hk
  | cons t seq ih =>
    intro s hk hr
    refine Ran.good_bind (wrBits_good hk hr _ 1) fun resp u hu hku => ?_
    split
    · exact hku
    · exact ih hku fun f => (wrBits_kinds hu h).2 (hr f)

theorem rdCount_good {h : Nat} {s : State} (hk : s.Keeps fair) (hr : fair → hasReader s.units h = true) :
    (rdCount h s).Good fair := by
  rw [rdCount, asReader]
  split
  · next hu => exact fun f => by have := hr f; simp [hasReader, hu] at this
  · next hu => exact fun f => by have := hr f; simp [hasReader, hu] at this
  · next hu =>
    split
    · exact respond_good hk _ _
    · next hi => exact fun f => hi (State.idle_of_get (hk.2 f).1 hu)

theorem wrCount_good {h : Nat} {s : State} (hk : s.Keeps fair) (hr : fair → hasWriter s.units h = true) :
    (wrCount h s).Good fair := by
  rw [wrCount, asWriter]
  split
  · next hu => exact fun f => by have := hr f; simp [hasWriter, hu] at this
  · next hu => exact fun f => by have := hr f; simp [hasWriter, hu] at this
  · next hu =>
    split
    · exact respond_good hk _ _
    · next hi => exact fun f => hi (State.idle_of_get_writer (hk.2 f).1 hu)

theorem State.Keeps.addUnit {s : State} (hk : s.Keeps fair) {u : BitUnit} (hu : unitOk s.units s.units.length u = true)
    (hi : BitUnit.ready u.kind u = true) : (s.addUnit u).Keeps fair := by
  refine ⟨hk.1.addUnit hu, fun f => ⟨?_, (hk.2 f).2⟩⟩
  have := (hk.2 f).1
  simp only [State.allIdle, State.addUnit_units, List.all_append, Bool.and_eq_true] at this ⊢
  refine ⟨this, ?_⟩
  cases u <;> simpa [BitUnit.ready, BitUnit.kind] using hi

theorem wrapReader_good (src : StreamHandle) {s : State} (hk : s.Keeps fair)
    (hr : fair → (Instr.wrapReader src).applies s = true) : (wrapReader src s).Good fair := by
  cases src with
  | external k =>
    exact hk.addUnit (by simp only [unitOk, Bool.and_eq_true, decide_eq_true_eq]; exact ⟨Reader.ok_fresh _, rfl⟩)
      (by simp [BitUnit.ready, BitUnit.kind, Reader.fresh])
  | unit h =>
    simp only [wrapReader]
    split
    · next hu => exact fun f => by have := hr f; simp [Instr.applies, hasReader, hu] at this
    · exact hk
    · next hu => exact fun f => by have := hr f; simp [Instr.applies, hasReader, hu] at this
  | adapter h =>
    simp only [wrapReader]
    split
    · next hu => exact fun f => by have := hr f; simp [Instr.applies, hasReader, hu] at this
    · next hu =>
      refine hk.addUnit ?_ (by simp [BitUnit.ready, BitUnit.kind, Reader.fresh])
      simp only [unitOk, Bool.and_eq_true, decide_eq_true_eq]
      refine ⟨Reader.ok_fresh _, ?_⟩
      simp only [Reader.fresh, readerBindingOk, Bool.and_eq_true, decide_eq_true_eq]
      exact ⟨lt_of_get hu, hasReader_of_get hu⟩
    · next hu => exact fun f => by have := hr f; simp [Instr.applies, hasReader, hu] at this

theorem wrapWriter_good (snk : StreamHandle) {s : State} (hk : s.Keeps fair)
    (hr : fair → (Instr.wrapWriter snk).applies s = true) : (wrapWriter snk s).Good fair := by
  cases snk with
  | external k =>
    exact hk.addUnit (by simp only [unitOk, Bool.and_eq_true, decide_eq_true_eq]; exact ⟨Writer.ok_fresh _, rfl⟩)
      (by simp [BitUnit.ready, BitUnit.kind, Writer.fresh])
  | unit h =>
    simp only [wrapWriter]
    split
    · next hu => exact fun f => by have := hr f; simp [Instr.applies, hasWriter, hu] at this
    · exact hk
    · next hu => exact fun f => by have := hr f; simp [Instr.applies, hasWriter, hu] at this
  | adapter h =>
    simp only [wrapWriter]
    split
    · next hu => exact fun f => by have := hr f; simp [Instr.applies, hasWriter, hu] at this
    · next hu =>
      refine hk.addUnit ?_ (by simp [BitUnit.ready, BitUnit.kind, Writer.fresh])
      simp only [unitOk, Bool.and_eq_true, decide_eq_true_eq]
      refine ⟨Writer.ok_fresh _, ?_⟩
      simp only [Writer.fresh, writerBindingOk, Bool.and_eq_true, decide_eq_true_eq]
      exact ⟨lt_of_get hu, hasWriter_of_get hu⟩
    · next hu => exact fun f => by have := hr f; simp [Instr.applies, hasWriter, hu] at this

end Operations

end Sys2Proof.Machine
end

