-- ==== Sys2Proof/Laws/ReaderStream.lean ====
section
/-! SUPPORT. What reading takes from the bit stream of a source (`40_reader.md` R71): `Reader.Reads r r' bits` says that
the reader has gone from `r` to `r'` by taking `bits`, the next bits of the stream. -/

namespace Sys2Proof.Machine

/-- A reader that keeps its invariant holds exactly the bits its source has delivered and it has not yet given out. -/
theorem Reader.held_bits {r : Reader} (ok : r.Ok) : bitsOf r.acc r.count = (streamOf r.delivered).drop r.position := by
  obtain ⟨h8, -, hlast, -⟩ := ok
  by_cases hc : r.count = 0
  · simp [hc, bitsOf, Reader.position]
  · have := hlast hc
    cases hg : r.delivered.getLast? with
    | none => simp [hg] at this
    | some b =>
      obtain ⟨l, hl⟩ := List.getLast?_eq_some_iff.mp hg
      simp only [hg, Option.map_some, Option.some.injEq] at this
      have hp : r.position = (streamOf l).length + (8 - r.count) := by
        simp [Reader.position, hl]; omega
      rw [hp, hl, streamOf_append, List.drop_append, List.drop_eq_nil_of_le (Nat.le_add_right _ _), Nat.add_sub_cancel_left,
        streamOf_singleton, List.nil_append, ← this, bitsOf_and_mask b le_rfl h8]
      conv_rhs => rw [show (8 : Nat) = (8 - r.count) + r.count by omega, bitsOf_add]
      simp

theorem Reader.count_le_delivered {r : Reader} (ok : r.Ok) : r.count ≤ 8 * r.delivered.length := by
  obtain ⟨h8, -, hlast, -⟩ := ok
  by_cases hc : r.count = 0
  · omega
  · have := hlast hc
    cases hg : r.delivered with
    | nil => simp [hg] at this
    | cons b l => simp; omega

/-- From `r` to `r'` the reader has taken `bits` from its stream. -/
structure Reader.Reads (r r' : Reader) (bits : List Bool) : Prop where
  delivered : r.delivered <+: r'.delivered
  position  : r'.position = r.position + bits.length
  taken     : ((streamOf r'.delivered).drop r.position).take bits.length = bits

theorem streamOf_prefix {a b : List Byte} (h : a <+: b) : streamOf a <+: streamOf b := by
  obtain ⟨c, rfl⟩ := h
  exact ⟨streamOf c, (streamOf_append a c).symm⟩

theorem Reader.Reads.refl (r : Reader) : r.Reads r [] := ⟨List.prefix_rfl, by simp, by simp⟩

/-- The bits of a longer stream are those of a shorter one, as far as that reaches. -/
theorem take_drop_prefix {l m : List Bool} (h : l <+: m) {p n : Nat} (hl : p + n ≤ l.length) :
    (m.drop p).take n = (l.drop p).take n := by
  obtain ⟨c, rfl⟩ := h
  rw [List.drop_append_of_le_length (by omega), List.take_append_of_le_length (by simp; omega)]

theorem Reader.position_le (r : Reader) : r.position ≤ (streamOf r.delivered).length := by
  simp [Reader.position]

theorem Reader.Reads.trans {r r1 r2 : Reader} {a b : List Bool} (h1 : r.Reads r1 a) (h2 : r1.Reads r2 b) :
    r.Reads r2 (a ++ b) where
  delivered := h1.delivered.trans h2.delivered
  position := by rw [h2.position, h1.position, List.length_append, Nat.add_assoc]
  taken := by
    have ha : ((streamOf r2.delivered).drop r.position).take a.length = a := by
      rw [take_drop_prefix (streamOf_prefix h2.delivered) (by rw [← h1.position]; exact r1.position_le)]
      exact h1.taken
    have hb := h2.taken
    rw [h1.position, ← List.drop_drop] at hb
    rw [List.length_append, List.take_add, ha, hb]

/-- Between two readers over the same delivered bytes, bits have been taken where the second holds the rest. -/
theorem Reader.reads_held {r r' : Reader} (ok : r.Ok) (hd : r'.delivered = r.delivered) {bits : List Bool}
    (hc : r'.count + bits.length = r.count) (hb : (bitsOf r.acc r.count).take bits.length = bits) : r.Reads r' bits where
  delivered := hd ▸ List.prefix_rfl
  position := by
    have := Reader.count_le_delivered ok
    simp only [Reader.position, hd]; omega
  taken := by rw [hd, ← Reader.held_bits ok, hb]

/-- All held bits taken. -/
theorem Reader.reads_drained {r : Reader} (ok : r.Ok) : r.Reads r.drained (bitsOf r.acc r.count) :=
  Reader.reads_held (r' := r.drained) ok rfl (by simp [Reader.drained]) (by rw [bitsOf_length, List.take_of_length_le (by simp)])

/-- Bits taken from a byte just pulled into an empty reader. -/
theorem Reader.reads_afterByte {r : Reader} (hc : r.count = 0) (b : Byte) {m : Nat} (hm : m ≤ 8) :
    r.Reads (r.afterByte b m) (bitsOf (b >>> (8 - m)) m) where
  delivered := ⟨[b], rfl⟩
  position := by
    simp only [Reader.position, Reader.afterByte, hc, bitsOf_length, List.length_append, List.length_singleton]; omega
  taken := by
    have hp : r.position = (streamOf r.delivered).length := by simp [Reader.position, hc]
    rw [hp]
    simp only [Reader.afterByte, streamOf_append, streamOf_singleton, List.drop_left, bitsOf_length]
    conv_lhs => rw [show (8 : Nat) = m + (8 - m) by omega, bitsOf_add]
    rw [List.take_append_of_le_length (by simp), List.take_of_length_le (by simp)]

/-- What a source transaction leaves of the reader it is for. -/
theorem srcRead_keeps {h : Nat} {b : Binding} {s t : State} {a : SrcReply} (hd : srcRead h h b s = .done a t) {r : Reader}
    (hu : s.units[h]? = some (.reader r)) : t.units[h]? = some (.reader r) := by
  have f := srcRead_frame h h b s
  rw [hd] at f
  exact ReadFrame.reader_above f le_rfl hu

/-- What a done RD.BITS has done to the reader: it has taken the bits it returns, or it met an error and is empty. -/
theorem rdBits_reads {s t : State} {h N : Nat} {resp : Response} {r : Reader} (hu : s.units[h]? = some (.reader r))
    (hi : r.micro = .idle) (ok : r.Ok) (hd : rdBits h N s = .done resp t) :
    ∃ r' : Reader, t.units[h]? = some (.reader r') ∧ r'.Ok ∧ r'.micro = .idle ∧ r'.src = r.src ∧
      ((resp.status = .ok ∧ resp.data >>> clamp8 N = 0 ∧ r.Reads r' (bitsOf resp.data (clamp8 N)) ∧
          (r'.count + clamp8 N = r.count ∨ r'.count + clamp8 N = r.count + 8)) ∨
        (∃ e, resp = { status := .err e, data := 0x00 } ∧ r' = r.drained ∧ (r.count = 0 ∨ r.count < clamp8 N))) := by
  have h8 := clamp8_le N
  by_cases hc : r.count = 0
  · rw [rdBits_empty hu hi N hc] at hd
    cases he : srcRead h h r.src s with
    | done a s1 =>
      rw [he] at hd
      have hu1 := srcRead_keeps he hu
      cases a with
      | byte b =>
        simp only [afterSrcRead, respond, Ran.done.injEq] at hd
        obtain ⟨rfl, rfl⟩ := hd
        refine ⟨r.afterByte b (clamp8 N), State.setUnit_get_same _ (lt_of_get hu1), Reader.ok_afterByte hi b _, hi, rfl,
          .inl ⟨rfl, ?_, ?_, ?_⟩⟩
        · simpa using insert_shiftRight_eq_zero 0 (b >>> (8 - clamp8 N)) (f := 0) (k := clamp8 N) (by omega) (by simp)
        · have := Reader.reads_afterByte hc b h8
          simpa [bitsOf_and_mask _ le_rfl h8] using this
        · right; simp only [Reader.afterByte]; omega
      | err e =>
        simp only [afterSrcRead, respondError, respond, Ran.done.injEq] at hd
        obtain ⟨rfl, rfl⟩ := hd
        refine ⟨r, hu1, ok, hi, rfl, .inr ⟨e, rfl, ?_, .inl hc⟩⟩
        rw [Reader.drained, ← hc, ← (Reader.acc_of_empty ok hc : r.acc = 0x00)]
    | blocked s1 => rw [he] at hd; simp [afterSrcRead] at hd
    | fault f => rw [he] at hd; simp [afterSrcRead] at hd
    | refused q => rw [he] at hd; simp [afterSrcRead] at hd
  · by_cases hn : clamp8 N ≤ r.count
    · rw [rdBits_held hu hi N hc hn] at hd
      simp only [respond, Ran.done.injEq] at hd
      obtain ⟨rfl, rfl⟩ := hd
      refine ⟨_, State.setUnit_get_same _ (lt_of_get hu), Reader.ok_held hi ok hc, hi, rfl, .inl ⟨rfl, ?_, ?_, ?_⟩⟩
      · exact and_mask_shiftRight_eq_zero _ h8
      · refine Reader.reads_held (r' :=
          { r with acc := r.acc &&& mask (r.count - clamp8 N), count := r.count - clamp8 N }) ok rfl ?_ ?_
        · simp only [bitsOf_length]; omega
        · rw [bitsOf_and_mask _ le_rfl h8, bitsOf_length]
          have := bitsOf_add r.acc (clamp8 N) (r.count - clamp8 N)
          rw [show clamp8 N + (r.count - clamp8 N) = r.count by omega] at this
          rw [this, List.take_append_of_le_length (by simp), List.take_of_length_le (by simp)]
      · left; exact Nat.sub_add_cancel hn
    · have hlt := Nat.not_le.mp hn
      rw [rdBits_straddle hu hi N hc hlt] at hd
      have hu0 := State.setUnit_get_same (.reader r.drained) (lt_of_get hu)
      cases he : srcRead h h r.src (s.setUnit h (.reader r.drained)) with
      | done a s1 =>
        rw [he] at hd
        have hu1 := srcRead_keeps he hu0
        cases a with
        | byte b =>
          simp only [afterSrcRead, respond, Ran.done.injEq] at hd
          obtain ⟨rfl, rfl⟩ := hd
          refine ⟨r.drained.afterByte b (clamp8 N - r.count), State.setUnit_get_same _ (lt_of_get hu1),
            Reader.ok_afterByte (r := r.drained) hi b _, hi, rfl, .inl ⟨rfl, ?_, ?_, ?_⟩⟩
          · have := insert_shiftRight_eq_zero (r.acc &&& mask r.count) (b >>> (8 - (clamp8 N - r.count)))
              (f := r.count) (k := clamp8 N - r.count) (by omega) (and_mask_shiftRight_eq_zero _ ok.1)
            rwa [show r.count + (clamp8 N - r.count) = clamp8 N by omega] at this
          · have h1 := Reader.reads_drained ok
            have h2 := Reader.reads_afterByte (r := r.drained) rfl b (m := clamp8 N - r.count) (by omega)
            have hsplit := bitsOf_insert (r.acc &&& mask r.count) (b >>> (8 - (clamp8 N - r.count)))
              (f := r.count) (k := clamp8 N - r.count) (by omega)
            rw [show r.count + (clamp8 N - r.count) = clamp8 N by omega, bitsOf_and_mask _ le_rfl ok.1] at hsplit
            rw [hsplit]
            exact h1.trans h2
          · right; simp only [Reader.afterByte]; omega
        | err e =>
          simp only [afterSrcRead, respondError, respond, Ran.done.injEq] at hd
          obtain ⟨rfl, rfl⟩ := hd
          exact ⟨r.drained, hu1, Reader.ok_drained hi, hi, rfl, .inr ⟨e, rfl, rfl, .inr hlt⟩⟩
      | blocked s1 => rw [he] at hd; simp [afterSrcRead] at hd
      | fault f => rw [he] at hd; simp [afterSrcRead] at hd
      | refused q => rw [he] at hd; simp [afterSrcRead] at hd

theorem Reader.drained_of_empty {r : Reader} (ok : r.Ok) (hc : r.count = 0) : r.drained = r := by
  rw [Reader.drained, ← hc, ← (Reader.acc_of_empty ok hc : r.acc = 0x00)]

/-! ## Responses -/

theorem responsesOf_append {s t : State} {l : List (Nat × Response)} (h : t.responses = s.responses ++ l) (j : Nat) :
    t.responsesOf j = s.responsesOf j ++ l.filterMap fun p => if p.1 = j then some p.2 else none := by
  simp [State.responsesOf, h]

theorem responsesOf_below {s t : State} {bound j : Nat} (h : ∃ l, t.responses = s.responses ++ l ∧ ∀ p ∈ l, p.1 < bound)
    (hj : bound ≤ j) : t.responsesOf j = s.responsesOf j := by
  obtain ⟨l, hl, hb⟩ := h
  rw [responsesOf_append hl, List.filterMap_eq_nil_iff.mpr, List.append_nil]
  intro p hp
  have := hb p hp
  simp [show p.1 ≠ j by omega]

theorem responsesOf_addResponse_other (s : State) {h j : Nat} (r : Response) (hj : j ≠ h) :
    (s.addResponse h r).responsesOf j = s.responsesOf j := by
  simp [State.responsesOf, State.addResponse, hj.symm]

theorem responsesOf_addResponse (s : State) (h : Nat) (r : Response) :
    (s.addResponse h r).responsesOf h = s.responsesOf h ++ [r] := by
  simp [State.responsesOf, State.addResponse]

/-- A done RD.BITS has delivered its one response. -/
theorem rdBits_response {s t : State} {h N : Nat} {resp : Response} (hd : rdBits h N s = .done resp t) :
    t.responsesOf h = s.responsesOf h ++ [resp] := by
  have key : (rdBits h N s).Post (fun a u => u.responsesOf h = s.responsesOf h ++ [a]) (fun _ => True) := by
    refine asReader_post fun r hu hi => ?_
    have loop : ∀ passes need result (s0 : State) (r0 : Reader), s0.units[h]? = some (.reader r0) →
        (readChunks (srcRead h h) h passes need result s0).Post
          (fun a u => u.responsesOf h = s0.responsesOf h ++ [a]) (fun _ => True) := by
      intro passes
      induction passes with
      | zero => intros; trivial
      | succ passes ih =>
        intro need result s0 r0 hu0
        have fr : (refillIfEmpty (srcRead h h) h need result s0).Post
            (fun _ u => u.responsesOf h = s0.responsesOf h ∧ ∃ r1, u.units[h]? = some (.reader r1)) (fun _ => True) := by
          unfold refillIfEmpty refill
          split
          · split
            · next b s1 he =>
              have f := srcRead_frame h h (s0.readerAt h).src s0
              rw [he] at f
              have hu1 := srcRead_keeps he hu0
              rw [State.fillReader_of_get hu1]
              exact ⟨responsesOf_below f.responses le_rfl, _, State.setUnit_get_same _ (lt_of_get hu1)⟩
            · next e s1 he =>
              have f := srcRead_frame h h (s0.readerAt h).src s0
              rw [he] at f
              exact ⟨responsesOf_below f.responses le_rfl, _, srcRead_keeps he hu0⟩
            · trivial
            · trivial
            · trivial
          · exact ⟨rfl, _, hu0⟩
        refine Ran.post_bind fr fun st s1 h1 => ?_
        obtain ⟨he1, r1, hu1⟩ := h1
        cases st with
        | err e => simp only [respondError, respond, Ran.post_done, responsesOf_addResponse, he1]
        | ok =>
          simp only [State.readerAt_of_get hu1]
          split
          · simp only [respond, Ran.post_done, responsesOf_addResponse]
            rw [← he1]; rfl
          · refine Ran.post_mono (ih _ _ _ _ (State.setUnit_get_same _ (lt_of_get hu1))) (fun a u hau => ?_) fun _ hh => hh
            rw [hau, ← he1]; rfl
    exact loop 2 _ _ s r hu
  rw [hd] at key
  exact key

/-! ## The sequences -/

/-- The one response of each command of a run, and one more for the command that failed. -/
def Status.extra : Status → Nat
  | .ok => 0
  | .err _ => 1

/-- What a done readBoolSequence loop has done (R74). -/
theorem readBools_reads (h m : Nat) : ∀ {s t : State} {r : Reader} {bits : List Bool} {st : Status},
    s.units[h]? = some (.reader r) → r.micro = .idle → r.Ok → readBools h m s = .done (bits, st) t →
    ∃ r' : Reader, t.units[h]? = some (.reader r') ∧ r'.Ok ∧ r'.micro = .idle ∧ r'.src = r.src ∧ r.Reads r' bits ∧
      (st = .ok → bits.length = m) ∧ (∀ e, st = .err e → bits.length < m) ∧
      (t.responsesOf h).length = (s.responsesOf h).length + bits.length + st.extra := by
  induction m with
  | zero =>
    intro s t r bits st hu hi ok hd
    simp only [readBools, Ran.done.injEq, Prod.mk.injEq] at hd
    obtain ⟨⟨rfl, rfl⟩, rfl⟩ := hd
    exact ⟨r, hu, ok, hi, rfl, Reader.Reads.refl r, fun _ => rfl, by simp, by simp [Status.extra]⟩
  | succ m ih =>
    intro s t r bits st hu hi ok hd
    simp only [readBools] at hd
    cases hb : rdBits h 1 s with
    | done resp s1 =>
      rw [hb, Ran.bind_done] at hd
      have hresp := congrArg List.length (rdBits_response hb)
      obtain ⟨r1, hu1, ok1, hi1, hs1, hcase⟩ := rdBits_reads hu hi ok hb
      rcases hcase with ⟨hst, hdat, hreads, -⟩ | ⟨e, rfl, rfl, hc⟩
      · rw [hst] at hd
        simp only at hd
        cases hrec : readBools h m s1 with
        | done p s2 =>
          obtain ⟨bits2, st2⟩ := p
          rw [hrec] at hd
          simp only [Ran.bind_done, Ran.done.injEq, Prod.mk.injEq] at hd
          obtain ⟨⟨rfl, rfl⟩, rfl⟩ := hd
          obtain ⟨r2, hu2, ok2, hi2, hs2, hreads2, hok, herr, hlen⟩ := ih hu1 hi1 ok1 hrec
          have hbit : bitsOf resp.data (clamp8 1) = [resp.asBool] := by
            have : resp.data = 0 ∨ resp.data = 1 := by
              have h0 : resp.data >>> 1 = 0 := hdat
              generalize resp.data = v at h0
              revert v
              decide
            rcases this with h0 | h0 <;> simp [Response.asBool, h0, bitsOf, clamp8]
          rw [hbit] at hreads
          refine ⟨r2, hu2, ok2, hi2, hs2.trans hs1, hreads.trans hreads2, fun h => by simp [hok h], fun e h => ?_, ?_⟩
          · have := herr e h; simp; omega
          · rw [hlen]; simp at hresp ⊢; omega
        | blocked s2 => rw [hrec] at hd; simp at hd
        | fault f => rw [hrec] at hd; simp at hd
        | refused q => rw [hrec] at hd; simp at hd
      · simp only [Ran.done.injEq, Prod.mk.injEq] at hd
        obtain ⟨⟨rfl, rfl⟩, rfl⟩ := hd
        have hc0 : r.count = 0 := by
          rcases hc with hc | hc
          · exact hc
          · simp [clamp8] at hc; exact hc
        rw [Reader.drained_of_empty ok hc0] at hu1 ok1
        refine ⟨r, hu1, ok1, hi, rfl, Reader.Reads.refl r, by simp, by simp, ?_⟩
        simpa [Status.extra] using hresp
    | blocked s1 => rw [hb] at hd; simp at hd
    | fault f => rw [hb] at hd; simp at hd
    | refused q => rw [hb] at hd; simp at hd

/-! ### Buffers -/

section Buffers

variable {s : State} {b c i : Nat}

theorem buffer_set_same (l : List (List Byte)) (b : Nat) (x : List Byte) (hx : l.length ≤ b → x = []) :
    (l.set b x).getD b [] = x := by
  by_cases hb : b < l.length
  · simp [List.getD, hb]
  · rw [List.getD_eq_default _ _ (by simpa using hb), hx (Nat.not_lt.mp hb)]

theorem buffer_of_length_le (hb : s.buffers.length ≤ b) : s.buffer b = [] := List.getD_eq_default _ _ hb

theorem State.bufWrite_same (v : Byte) : (s.bufWrite b i v).buffer b = (s.buffer b).set i v :=
  buffer_set_same _ _ _ fun hb => by simp [buffer_of_length_le hb]

theorem State.bufWrite_other (hc : c ≠ b) (v : Byte) : (s.bufWrite b i v).buffer c = s.buffer c := by
  simp [State.buffer, State.bufWrite, List.getD, List.getElem?_set_ne (Ne.symm hc)]

theorem State.spoilBuffer_same : ∃ l : List Byte, l.length = (s.buffer b).length - i ∧
    (s.spoilBuffer b i).buffer b = (s.buffer b).take i ++ l := by
  refine ⟨_, ?_, buffer_set_same _ _ _ fun hb => ?_⟩
  · simp
  · simp [buffer_of_length_le hb]

theorem State.spoilBuffer_other (hc : c ≠ b) : (s.spoilBuffer b i).buffer c = s.buffer c := by
  simp [State.buffer, State.spoilBuffer, List.getD, List.getElem?_set_ne (Ne.symm hc)]

theorem State.spoilBuffer_length : ((s.spoilBuffer b i).buffer b).length = (s.buffer b).length := by
  obtain ⟨l, hl, he⟩ := State.spoilBuffer_same (s := s) (b := b) (i := i)
  rw [he, List.length_append, List.length_take, hl]
  omega

theorem State.spoilBuffer_take (hi : i ≤ (s.buffer b).length) :
    ((s.spoilBuffer b i).buffer b).take i = (s.buffer b).take i := by
  obtain ⟨l, hl, he⟩ := State.spoilBuffer_same (s := s) (b := b) (i := i)
  rw [he, List.take_append_of_le_length (by simpa using hi), List.take_take, Nat.min_self]

end Buffers

/-- What a done readByteStream loop has done (R75): elements `i` to `n` filled with the next bits of the stream. -/
theorem readBytes_reads (h b m : Nat) : ∀ (i : Nat) {s t : State} {r : Reader} {n : Nat} {st : Status},
    s.units[h]? = some (.reader r) → r.micro = .idle → r.Ok → readBytes h b m i s = .done (n, st) t →
    i + m ≤ (s.buffer b).length →
    ∃ r' : Reader, t.units[h]? = some (.reader r') ∧ r'.Ok ∧ r'.micro = .idle ∧ r'.src = r.src ∧
      (t.buffer b).length = (s.buffer b).length ∧ (t.buffer b).take i = (s.buffer b).take i ∧ i ≤ n ∧ n ≤ i + m ∧
      (∀ c, c ≠ b → t.buffer c = s.buffer c) ∧
      (t.responsesOf h).length = (s.responsesOf h).length + (n - i) + st.extra ∧
      (st = .ok → n = i + m ∧ r.Reads r' (streamOf (((t.buffer b).take n).drop i)) ∧ t.freeDraws = s.freeDraws ∧
        (t.buffer b).drop n = (s.buffer b).drop n) ∧
      (∀ e, st = .err e → n < i + m ∧ ∃ r1 : Reader, r.Reads r1 (streamOf (((t.buffer b).take n).drop i)) ∧ r1.Ok ∧
        r1.count ≤ r.count ∧ r' = r1.drained) := by
  induction m with
  | zero =>
    intro i s t r n st hu hi ok hd _
    simp only [readBytes, Ran.done.injEq, Prod.mk.injEq] at hd
    obtain ⟨⟨rfl, rfl⟩, rfl⟩ := hd
    refine ⟨r, hu, ok, hi, rfl, rfl, rfl, le_rfl, le_rfl, fun _ _ => rfl, by simp [Status.extra], fun _ => ?_, by simp⟩
    refine ⟨rfl, ?_, rfl, rfl⟩
    have : ((s.buffer b).take i).drop i = [] := List.drop_eq_nil_of_le (by simp)
    rw [this]
    exact Reader.Reads.refl r
  | succ m ih =>
    intro i s t r n st hu hi ok hd hlen
    simp only [readBytes] at hd
    have fr := rdBits_frame h 8 s
    cases hb : rdBits h 8 s with
    | done resp s1 =>
      rw [hb, Ran.bind_done] at hd
      rw [hb] at fr
      simp only [Ran.post_done] at fr
      have hbuf : ∀ c, s1.buffer c = s.buffer c := fun c => by simp [State.buffer, fr.buffers]
      have hresp := congrArg List.length (rdBits_response hb)
      obtain ⟨r1, hu1, ok1, hi1, hs1, hcase⟩ := rdBits_reads hu hi ok hb
      rcases hcase with ⟨hst, hdat, hreads, hcount⟩ | ⟨e, rfl, rfl, hc⟩
      · rw [hst] at hd
        simp only at hd
        obtain ⟨r2, hu2, ok2, hi2, hs2, hlen2, htake, hin, hnm, hother, hresp2, hok, herr⟩ :=
          ih (i + 1) (s := s1.bufWrite b i resp.data) hu1 hi1 ok1 hd (by rw [State.bufWrite_same, hbuf]; simp; omega)
        rw [State.bufWrite_same, hbuf] at hlen2 htake
        simp only [List.length_set] at hlen2
        have htake' : (t.buffer b).take i = (s.buffer b).take i := by
          have := congrArg (List.take i) htake
          simp only [List.take_take, show min i (i + 1) = i by omega] at this
          rw [this, List.take_set_of_le le_rfl]
        have hel : (t.buffer b)[i]? = some resp.data := by
          have := congrArg (fun l => l[i]?) htake
          simp only [List.getElem?_take, show i < i + 1 by omega, if_true] at this
          rw [this, List.getElem?_set_self (by omega)]
        have hseg : ((t.buffer b).take n).drop i = resp.data :: ((t.buffer b).take n).drop (i + 1) := by
          have : ((t.buffer b).take n)[i]? = some resp.data := by
            rw [List.getElem?_take]; simp [show i < n by omega, hel]
          obtain ⟨hl, he⟩ := List.getElem?_eq_some_iff.mp this
          rw [List.drop_eq_getElem_cons hl, he]
        have hbits : streamOf (((t.buffer b).take n).drop i) =
            bitsOf resp.data (clamp8 8) ++ streamOf (((t.buffer b).take n).drop (i + 1)) := by
          rw [hseg]; simp [streamOf, clamp8]
        refine ⟨r2, hu2, ok2, hi2, hs2.trans hs1, hlen2, htake', by omega, by omega, ?_, ?_, ?_, ?_⟩
        · intro c hc
          rw [hother c hc, State.bufWrite_other hc, hbuf]
        · rw [hresp2]
          have h1 : (s1.bufWrite b i resp.data).responsesOf h = s1.responsesOf h := rfl
          rw [h1]
          simp at hresp; omega
        · intro h0
          obtain ⟨hn, hr, hf, hdrop⟩ := hok h0
          refine ⟨by omega, ?_, hf.trans fr.freeDraws, ?_⟩
          · rw [hbits]; exact hreads.trans hr
          · rw [hdrop, State.bufWrite_same, hbuf, List.drop_set_of_lt (by omega)]
        · intro e h0
          obtain ⟨hn, r3, hr3, ok3, hc3, he3⟩ := herr e h0
          refine ⟨by omega, r3, ?_, ok3, ?_, he3⟩
          · rw [hbits]; exact hreads.trans hr3
          · simp [clamp8] at hcount; omega
      · simp only [Ran.done.injEq, Prod.mk.injEq] at hd
        obtain ⟨⟨rfl, rfl⟩, rfl⟩ := hd
        refine ⟨r.drained, hu1, ok1, hi, rfl, ?_, ?_, le_rfl, by omega, ?_, ?_, by simp, ?_⟩
        · rw [State.spoilBuffer_length, hbuf]
        · rw [State.spoilBuffer_take (by rw [hbuf]; omega), hbuf]
        · intro c hc; rw [State.spoilBuffer_other hc, hbuf]
        · have h1 : (s1.spoilBuffer b i).responsesOf h = s1.responsesOf h := rfl
          rw [h1]; simpa [Status.extra] using hresp
        · intro e' he'
          refine ⟨by omega, r, ?_, ok, le_rfl, rfl⟩
          rw [List.drop_eq_nil_of_le (by simp)]
          exact Reader.Reads.refl r
    | blocked s1 => rw [hb] at hd; simp at hd
    | fault f => rw [hb] at hd; simp at hd
    | refused q => rw [hb] at hd; simp at hd

end Sys2Proof.Machine
end

