-- ==== Sys2Proof/Laws/Leaves.lean ====
section
/-! SUPPORT. What whole operations of the host leave as it was: `ReadingLeaves` and `WritingLeaves` of Safety.lean,
through every command and loop. -/

namespace Sys2Proof.Machine

/-- Only the unit at `h` and the source number `k` are touched. -/
def TouchesSource (h k : Nat) (s t : State) : Prop :=
  (∀ j, j ≠ h → SameAt s t j) ∧ ∀ j, j ≠ k → t.source j = s.source j

/-- Only the unit at `h` and the sink number `k` are touched. -/
def TouchesSink (h k : Nat) (s t : State) : Prop :=
  (∀ j, j ≠ h → SameAt s t j) ∧ ∀ j, j ≠ k → t.sink j = s.sink j

theorem SameAt.refl (s : State) (j : Nat) : SameAt s s j := ⟨rfl, rfl⟩

theorem SameAt.trans {s t u : State} {j : Nat} (h1 : SameAt s t j) (h2 : SameAt t u j) : SameAt s u j :=
  ⟨h2.1.trans h1.1, h2.2.trans h1.2⟩

theorem SameAt.setUnit {s t : State} {j h : Nat} (hs : SameAt s t j) (hj : j ≠ h) (u : BitUnit) :
    SameAt s (t.setUnit h u) j :=
  ⟨(State.setUnit_get_other _ hj).trans hs.1, hs.2⟩

theorem SameAt.addResponse {s t : State} {j h : Nat} (hs : SameAt s t j) (hj : j ≠ h) (r : Response) :
    SameAt s (t.addResponse h r) j :=
  ⟨hs.1, by rw [responsesOf_addResponse_other t r hj]; exact hs.2⟩

section Reading

variable {h : Nat}

theorem TouchesSource.setUnit {k : Nat} {s t : State} (ht : TouchesSource h k s t) (u : BitUnit) :
    TouchesSource h k s (t.setUnit h u) :=
  ⟨fun j hj => (ht.1 j hj).setUnit hj u, ht.2⟩

theorem TouchesSource.respond {k : Nat} {s t : State} (ht : TouchesSource h k s t) (st : Status) (d : Byte) :
    (Machine.respond h st d t).Post (fun _ t => TouchesSource h k s t) (TouchesSource h k s) :=
  ⟨fun j hj => (ht.1 j hj).addResponse hj _, ht.2⟩

theorem afterSrcRead_touches {r : Reader} {need : Nat} {held : Byte} {k : Nat} {s s0 : State}
    (hs : TouchesSource h k s s0) :
    (afterSrcRead h r need held (pullSource k s0)).Post (fun _ t => TouchesSource h k s t) (TouchesSource h k s) := by
  have moved : ∀ x, TouchesSource h k s (s0.setSource k x) := fun x =>
    ⟨fun j hj => hs.1 j hj, fun j hj => (State.source_setSource_other _ x hj).trans (hs.2 j hj)⟩
  unfold pullSource
  split
  · next a _ =>
    cases a with
    | byte b => exact ((moved _).setUnit _).respond _ _
    | err e => exact (moved _).respond _ _
  · exact hs.setUnit _
  · trivial
  · trivial

/-- RD.BITS over an external source touches its reader and that source. -/
theorem rdBits_touches {s : State} {r : Reader} {k : Nat} (hu : s.units[h]? = some (.reader r)) (hs : r.src = .external k)
    (N : Nat) : (rdBits h N s).Post (fun _ t => TouchesSource h k s t) (TouchesSource h k s) := by
  have self : TouchesSource h k s s := ⟨fun _ _ => ⟨rfl, rfl⟩, fun _ _ => rfl⟩
  by_cases hi : r.micro = .idle
  · by_cases hc : r.count = 0
    · rw [rdBits_empty hu hi N hc, hs, srcRead_external]
      exact afterSrcRead_touches self
    · by_cases hn : clamp8 N ≤ r.count
      · rw [rdBits_held hu hi N hc hn]
        exact (self.setUnit _).respond _ _
      · rw [rdBits_straddle hu hi N hc (Nat.not_le.mp hn), hs, srcRead_external]
        exact afterSrcRead_touches (self.setUnit _)
  · rw [rdBits, rdBitsVia]
    simp only [asReader, hu, hi, if_false]
    trivial

theorem ReadingLeaves.refl (s : State) (h : Nat) : ReadingLeaves s s h :=
  ⟨rfl, fun _ _ => ⟨rfl, rfl⟩, fun _ _ _ => ⟨rfl, rfl⟩, fun _ _ _ _ _ _ => rfl, fun _ _ hw => hw, rfl, rfl, rfl⟩

/-- The reader at `h` is bound as it was. -/
def SameBinding (s t : State) (h : Nat) : Prop :=
  ∀ r : Reader, s.units[h]? = some (.reader r) → ∃ r' : Reader, t.units[h]? = some (.reader r') ∧ r'.src = r.src

/-- The writer at `h` is bound as it was. -/
def SameSink (s t : State) (h : Nat) : Prop :=
  ∀ w : Writer, s.units[h]? = some (.writer w) → ∃ w' : Writer, t.units[h]? = some (.writer w') ∧ w'.snk = w.snk

theorem boundOutside_of_same {s t : State} {r : Reader} (hu : s.units[h]? = some (.reader r)) (hb : SameBinding s t h)
    (ho : boundOutside s h = true) : boundOutside t h = true := by
  obtain ⟨r', hu', hs⟩ := hb r hu
  simp only [boundOutside, hu] at ho
  simp only [boundOutside, hu', hs]
  exact ho

theorem boundOutside_of_sameSink {s t : State} {w : Writer} (hu : s.units[h]? = some (.writer w)) (hb : SameSink s t h)
    (ho : boundOutside s h = true) : boundOutside t h = true := by
  obtain ⟨w', hu', hs⟩ := hb w hu
  simp only [boundOutside, hu] at ho
  simp only [boundOutside, hu', hs]
  exact ho

theorem ReadingLeaves.trans {s t u : State} {r : Reader} (hu : s.units[h]? = some (.reader r)) (hb : SameBinding s t h)
    (h1 : ReadingLeaves s t h) (h2 : ReadingLeaves t u h) : ReadingLeaves s u h := by
  obtain ⟨a1, a2, a3, a4, a5, a6, a7, a8⟩ := h1
  obtain ⟨b1, b2, b3, b4, b5, b6, b7, b8⟩ := h2
  refine ⟨b1.trans a1, fun j hj => (a2 j hj).trans (b2 j hj),
    fun ho j hj => (a3 ho j hj).trans (b3 (boundOutside_of_same hu hb ho) j hj), fun q k hq hk j hj => ?_,
    fun j w hw => b5 j w (a5 j w hw), b6.trans a6, b7.trans a7, b8.trans a8⟩
  obtain ⟨q', hq', hs'⟩ := hb q hq
  exact (b4 q' k hq' (hs'.trans hk) j hj).trans (a4 q k hq hk j hj)

/-- What a reader's host operation keeps: how it is bound, and what reading leaves. -/
def KeepsReading (s : State) (h : Nat) (t : State) : Prop := SameBinding s t h ∧ ReadingLeaves s t h

theorem KeepsReading.refl (s : State) (h : Nat) : KeepsReading s h s :=
  ⟨fun r hu => ⟨r, hu, rfl⟩, ReadingLeaves.refl s h⟩

theorem KeepsReading.trans {s t u : State} (hr : ∃ r, s.units[h]? = some (BitUnit.reader r)) (h1 : KeepsReading s h t)
    (h2 : KeepsReading t h u) : KeepsReading s h u := by
  obtain ⟨r, hu⟩ := hr
  refine ⟨fun q hq => ?_, ReadingLeaves.trans hu h1.1 h1.2 h2.2⟩
  obtain ⟨q1, hq1, e1⟩ := h1.1 q hq
  obtain ⟨q2, hq2, e2⟩ := h2.1 q1 hq1
  exact ⟨q2, hq2, e2.trans e1⟩

theorem KeepsReading.congr {s t u : State} (ht : KeepsReading s h t) (hu : u.units = t.units)
    (hsrc : u.sources = t.sources) (hsnk : u.sinks = t.sinks) (hq : u.queue = t.queue) (htg : u.target = t.target)
    (hr : u.responses = t.responses) : KeepsReading s h u := by
  obtain ⟨a0, a1, a2, a3, a4, a5, a6, a7, a8⟩ := ht
  refine ⟨?_, ?_⟩
  · intro r hr; rw [hu]; exact a0 r hr
  · simp only [ReadingLeaves, SameAt, State.responsesOf, State.source_congr hsrc, hu, hsnk, hq, htg, hr]
    exact ⟨a1, a2, a3, a4, a5, a6, a7, a8⟩

theorem rdBits_keepsReading {s : State} {r : Reader} (hu : s.units[h]? = some (.reader r)) (N : Nat) :
    (rdBits h N s).Post (fun _ t => KeepsReading s h t) (KeepsReading s h) := by
  have frame := rdBits_frame h N s
  have keep : ∀ t : State, ReadFrame (h + 1) s t → (∀ k, r.src = .external k → TouchesSource h k s t) →
      KeepsReading s h t := by
    intro t f ht
    refine ⟨f.readers h, f.length, fun j hj => ⟨f.above j hj, responsesOf_below f.responses hj⟩,
      fun ho j hj => ?_, fun q k hq hk j hj => ?_, f.writers,
      f.sinks, f.queue, f.target⟩
    · simp only [boundOutside, hu] at ho
      cases hs : r.src with
      | external k => exact (ht k hs).1 j hj
      | adapter g => simp [hs] at ho
    · obtain rfl : r = q := by simpa [hu] using hq
      exact (ht k hk).2 j hj
  cases hd : rdBits h N s with
  | done a t =>
    rw [hd] at frame
    refine keep t frame fun k hk => ?_
    have := rdBits_touches hu hk N
    rw [hd] at this
    exact this
  | blocked t =>
    rw [hd] at frame
    refine keep t frame fun k hk => ?_
    have := rdBits_touches hu hk N
    rw [hd] at this
    exact this
  | fault f => trivial
  | refused q => trivial

theorem reader_of_keeps {s t : State} (hr : ∃ r, s.units[h]? = some (BitUnit.reader r)) (hk : KeepsReading s h t) :
    ∃ r, t.units[h]? = some (BitUnit.reader r) := by
  obtain ⟨r, hu⟩ := hr
  obtain ⟨r', hu', -⟩ := hk.1 r hu
  exact ⟨r', hu'⟩

theorem readBools_keepsReading (m : Nat) : ∀ {s : State}, (∃ r, s.units[h]? = some (BitUnit.reader r)) →
    (readBools h m s).Post (fun _ t => KeepsReading s h t ∧ t.buffers = s.buffers ∧ t.boolSeqs = s.boolSeqs ∧
      t.freeDraws = s.freeDraws) (KeepsReading s h) := by
  induction m with
  | zero => intro s _; exact ⟨KeepsReading.refl s h, rfl, rfl, rfl⟩
  | succ m ih =>
    intro s hr
    obtain ⟨r, hu⟩ := id hr
    have first : (rdBits h 1 s).Post (fun _ t => KeepsReading s h t ∧ t.buffers = s.buffers ∧ t.boolSeqs = s.boolSeqs ∧
        t.freeDraws = s.freeDraws) (KeepsReading s h) := by
      have h1 := rdBits_keepsReading hu 1
      have h2 := rdBits_frame h 1 s
      cases hd : rdBits h 1 s with
      | done a t => rw [hd] at h1 h2; exact ⟨h1, h2.buffers, h2.boolSeqs, h2.freeDraws⟩
      | blocked t => rw [hd] at h1; exact h1
      | fault f => trivial
      | refused q => trivial
    refine Ran.post_bind first fun resp t ht => ?_
    split
    · exact ht
    · refine Ran.post_bind (Ran.post_mono (ih (reader_of_keeps hr ht.1)) (fun _ u hk => ?_) fun u hk =>
        KeepsReading.trans hr ht.1 hk) fun _ u hk => hk
      exact ⟨KeepsReading.trans hr ht.1 hk.1, hk.2.1.trans ht.2.1, hk.2.2.1.trans ht.2.2.1, hk.2.2.2.trans ht.2.2.2⟩

theorem rdBits_keepsReading_seqs {s : State} {r : Reader} (hu : s.units[h]? = some (.reader r)) (N : Nat) :
    (rdBits h N s).Post (fun _ t => KeepsReading s h t ∧ t.boolSeqs = s.boolSeqs) (KeepsReading s h) := by
  have h1 := rdBits_keepsReading hu N
  have h2 := rdBits_frame h N s
  cases hd : rdBits h N s with
  | done a t => rw [hd] at h1 h2; exact ⟨h1, h2.boolSeqs⟩
  | blocked t => rw [hd] at h1; exact h1
  | fault f => trivial
  | refused q => trivial

theorem readBytes_keepsReading (b m : Nat) : ∀ (i : Nat) {s : State}, (∃ r, s.units[h]? = some (BitUnit.reader r)) →
    (readBytes h b m i s).Post (fun _ t => KeepsReading s h t ∧ t.boolSeqs = s.boolSeqs) (KeepsReading s h) := by
  induction m with
  | zero => intro i s _; exact ⟨KeepsReading.refl s h, rfl⟩
  | succ m ih =>
    intro i s hr
    obtain ⟨r, hu⟩ := id hr
    refine Ran.post_bind (rdBits_keepsReading_seqs hu 8) fun resp t ht => ?_
    split
    · exact ⟨ht.1.congr rfl rfl rfl rfl rfl rfl, ht.2⟩
    · have hk : KeepsReading s h (t.bufWrite b i resp.data) := ht.1.congr rfl rfl rfl rfl rfl rfl
      exact Ran.post_mono (ih (i + 1) (reader_of_keeps hr hk))
        (fun _ u hu2 => ⟨KeepsReading.trans hr hk hu2.1, hu2.2.trans ht.2⟩) fun u hu2 => KeepsReading.trans hr hk hu2

theorem readBitsInto_keepsReading (b totalBits : Nat) {s : State} (hr : ∃ r, s.units[h]? = some (BitUnit.reader r)) :
    (readBitsInto h b totalBits s).Post (fun _ t => KeepsReading s h t ∧ t.boolSeqs = s.boolSeqs) (KeepsReading s h) := by
  refine Ran.post_bind (readBytes_keepsReading b _ 0 hr) fun p t ht => ?_
  split
  · exact ht
  · split
    · exact ht
    · obtain ⟨r1, hu1⟩ := reader_of_keeps hr ht.1
      refine Ran.post_bind (Ran.post_mono (rdBits_keepsReading_seqs hu1 _)
        (fun _ u hu2 => (⟨KeepsReading.trans hr ht.1 hu2.1, hu2.2.trans ht.2⟩ :
          KeepsReading s h u ∧ u.boolSeqs = s.boolSeqs)) fun u hu2 => KeepsReading.trans hr ht.1 hu2)
        fun resp u hk => ?_
      split <;> exact ⟨hk.1.congr rfl rfl rfl rfl rfl rfl, hk.2⟩

end Reading

/-! ## Writing -/

section Writing

variable {h : Nat}

theorem TouchesSink.setUnit {k : Nat} {s t : State} (ht : TouchesSink h k s t) (u : BitUnit) :
    TouchesSink h k s (t.setUnit h u) :=
  ⟨fun j hj => (ht.1 j hj).setUnit hj u, ht.2⟩

theorem TouchesSink.respond {k : Nat} {s t : State} (ht : TouchesSink h k s t) (st : Status) (d : Byte) :
    (Machine.respond h st d t).Post (fun _ t => TouchesSink h k s t) (TouchesSink h k s) :=
  ⟨fun j hj => (ht.1 j hj).addResponse hj _, ht.2⟩

theorem offerSink_touches {k : Nat} (b : Byte) {s s0 : State} (hs : TouchesSink h k s s0) :
    (offerSink k b s0).Post (fun _ t => TouchesSink h k s t) (TouchesSink h k s) := by
  unfold offerSink
  split
  · exact ⟨hs.1, fun j hj => (State.sink_setSink_other _ _ hj).trans (hs.2 j hj)⟩
  · exact hs
  · trivial

theorem emit_touches {s s0 : State} {w : Writer} {k : Nat} (hu : s0.units[h]? = some (.writer w))
    (hs : w.snk = .external k) (ht : TouchesSink h k s s0) (b v : Byte) (need : Nat) :
    (emit (sinkWrite h h) h b v need s0).Post (fun _ t => TouchesSink h k s t) (TouchesSink h k s) := by
  have key := offerSink_touches b ht
  simp only [emit, State.writerAt_of_get hu, hs, sinkWrite_external]
  split
  · next he => rw [he] at key; exact TouchesSink.setUnit key _
  · next he => rw [he] at key; exact TouchesSink.setUnit key _
  · next he => rw [he] at key; exact TouchesSink.setUnit key _
  · trivial
  · trivial

theorem writeChunks_touches {k : Nat} (v : Byte) (passes : Nat) : ∀ (need : Nat) {s s0 : State} {w : Writer},
    s0.units[h]? = some (.writer w) → w.snk = .external k → TouchesSink h k s s0 →
    (writeChunks (sinkWrite h h) h v passes need s0).Post (fun _ t => TouchesSink h k s t) (TouchesSink h k s) := by
  induction passes with
  | zero =>
    intro need s s0 w hu hs ht
    cases need with
    | zero => exact ht.respond _ _
    | succ need => trivial
  | succ passes ih =>
    intro need s s0 w hu hs ht
    cases need with
    | zero => exact ht.respond _ _
    | succ need =>
      simp only [writeChunks, State.writerAt_of_get hu]
      have hu1 := State.setUnit_get_same (.writer (w.place v (need + 1))) (lt_of_get hu)
      have ht1 := ht.setUnit (.writer (w.place v (need + 1)))
      split
      · have e1 := emit_touches hu1 hs ht1 (w.place v (need + 1)).acc v (need + 1 - min (need + 1) (8 - w.filled))
        have e2 := emit_frame (sinkWrite_frame h h) hu1 (w.place v (need + 1)).acc v
          (need + 1 - min (need + 1) (8 - w.filled))
        cases hd : emit (sinkWrite h h) h (w.place v (need + 1)).acc v (need + 1 - min (need + 1) (8 - w.filled))
            (s0.setUnit h (.writer (w.place v (need + 1)))) with
        | done st t =>
          rw [hd] at e1 e2
          cases st with
          | err e => exact TouchesSink.respond e1 _ _
          | ok =>
            obtain ⟨w2, hu2, hs2⟩ := e2.writers h _ hu1
            exact ih _ hu2 (hs2.trans hs) e1
        | blocked t => rw [hd] at e1; exact e1
        | fault f => trivial
        | refused q => trivial
      · exact ih _ hu1 hs ht1

/-- WR.BITS over an external sink touches its writer and that sink. -/
theorem wrBits_touches {s : State} {w : Writer} {k : Nat} (hu : s.units[h]? = some (.writer w)) (hs : w.snk = .external k)
    (V N : Nat) : (wrBits h V N s).Post (fun _ t => TouchesSink h k s t) (TouchesSink h k s) := by
  refine asWriter_post fun w' hu' _ => ?_
  obtain rfl : w = w' := by simpa [hu] using hu'
  exact writeChunks_touches _ 2 _ hu hs ⟨fun _ _ => ⟨rfl, rfl⟩, fun _ _ => rfl⟩

/-- WR.FLUSH over an external sink touches its writer and that sink. -/
theorem wrFlush_touches {s : State} {w : Writer} {k : Nat} (hu : s.units[h]? = some (.writer w))
    (hs : w.snk = .external k) : (wrFlush h s).Post (fun _ t => TouchesSink h k s t) (TouchesSink h k s) := by
  have self : TouchesSink h k s s := ⟨fun _ _ => ⟨rfl, rfl⟩, fun _ _ => rfl⟩
  refine asWriter_post fun w' hu' _ => ?_
  obtain rfl : w = w' := by simpa [hu] using hu'
  split
  · exact self.respond _ _
  · refine Ran.post_bind (emit_touches hu hs self _ _ _) fun st t ht => ?_
    cases st <;> exact TouchesSink.respond ht _ _

theorem WritingLeaves.refl (s : State) (h : Nat) : WritingLeaves s s h :=
  ⟨rfl, fun _ _ => ⟨rfl, rfl⟩, fun _ _ _ => ⟨rfl, rfl⟩, fun _ _ _ _ _ _ => rfl, fun _ _ hr => hr, rfl, rfl, rfl, rfl, rfl, rfl⟩

/-- What a writer's host operation keeps: how it is bound, and what writing leaves. -/
def KeepsWriting (s : State) (h : Nat) (t : State) : Prop := SameSink s t h ∧ WritingLeaves s t h

theorem KeepsWriting.refl (s : State) (h : Nat) : KeepsWriting s h s :=
  ⟨fun w hu => ⟨w, hu, rfl⟩, WritingLeaves.refl s h⟩

theorem KeepsWriting.trans {s t u : State} (hw : ∃ w, s.units[h]? = some (BitUnit.writer w)) (h1 : KeepsWriting s h t)
    (h2 : KeepsWriting t h u) : KeepsWriting s h u := by
  obtain ⟨w, hu⟩ := hw
  obtain ⟨a0, a1, a2, a3, a4, a5, a6, a7, a8, a9, a10, a11⟩ := h1
  obtain ⟨b0, b1, b2, b3, b4, b5, b6, b7, b8, b9, b10, b11⟩ := h2
  refine ⟨fun q hq => ?_, b1.trans a1, fun j hj => (a2 j hj).trans (b2 j hj),
    fun ho j hj => (a3 ho j hj).trans (b3 (boundOutside_of_sameSink hu a0 ho) j hj), fun q k hq hk j hj => ?_,
    fun j r hr => b5 j r (a5 j r hr), b6.trans a6, b7.trans a7, b8.trans a8, b9.trans a9, b10.trans a10, b11.trans a11⟩
  · obtain ⟨q1, hq1, e1⟩ := a0 q hq
    obtain ⟨q2, hq2, e2⟩ := b0 q1 hq1
    exact ⟨q2, hq2, e2.trans e1⟩
  · obtain ⟨q', hq', hs'⟩ := a0 q hq
    exact (b4 q' k hq' (hs'.trans hk) j hj).trans (a4 q k hq hk j hj)

theorem keepsWriting_of {α : Type} {s : State} {w : Writer} (hu : s.units[h]? = some (.writer w)) {m : Ran α}
    (hf : m.KeepsWrite (h + 1) s)
    (ht : ∀ k, w.snk = .external k → m.Post (fun _ t => TouchesSink h k s t) (TouchesSink h k s)) :
    m.Post (fun _ t => KeepsWriting s h t) (KeepsWriting s h) := by
  have keep : ∀ t : State, WriteFrame (h + 1) s t → (∀ k, w.snk = .external k → TouchesSink h k s t) →
      KeepsWriting s h t := by
    intro t f ht
    refine ⟨f.writers h, f.length, fun j hj => ⟨f.above j hj, responsesOf_below f.responses hj⟩,
      fun ho j hj => ?_, fun q k hq hk j hj => ?_, f.readers,
      f.sources, f.queue, f.target, f.buffers, f.boolSeqs, f.freeDraws⟩
    · simp only [boundOutside, hu] at ho
      cases hs : w.snk with
      | external k => exact (ht k hs).1 j hj
      | adapter g => simp [hs] at ho
    · obtain rfl : w = q := by simpa [hu] using hq
      exact (ht k hk).2 j hj
  cases m with
  | done a t => exact keep t hf fun k hk => ht k hk
  | blocked t => exact keep t hf fun k hk => ht k hk
  | fault f => trivial
  | refused q => trivial

theorem wrBits_keepsWriting {s : State} {w : Writer} (hu : s.units[h]? = some (.writer w)) (V N : Nat) :
    (wrBits h V N s).Post (fun _ t => KeepsWriting s h t) (KeepsWriting s h) :=
  keepsWriting_of hu (wrBits_frame h V N s) fun _ hk => wrBits_touches hu hk V N

theorem writer_of_keeps {s t : State} (hw : ∃ w, s.units[h]? = some (BitUnit.writer w)) (hk : KeepsWriting s h t) :
    ∃ w, t.units[h]? = some (BitUnit.writer w) := by
  obtain ⟨w, hu⟩ := hw
  obtain ⟨w', hu', -⟩ := hk.1 w hu
  exact ⟨w', hu'⟩

theorem writeBytes_keepsWriting (bytes : List Byte) : ∀ (i : Nat) {s : State},
    (∃ w, s.units[h]? = some (BitUnit.writer w)) →
    (writeBytes h bytes i s).Post (fun _ t => KeepsWriting s h t) (KeepsWriting s h) := by
  induction bytes with
  | nil => intro i s _; exact KeepsWriting.refl s h
  | cons b bytes ih =>
    intro i s hw
    obtain ⟨w, hu⟩ := id hw
    refine Ran.post_bind (wrBits_keepsWriting hu _ 8) fun resp t ht => ?_
    split
    · exact ht
    · exact Ran.post_mono (ih (i + 1) (writer_of_keeps hw ht)) (fun _ u hk => KeepsWriting.trans hw ht hk)
        fun u hk => KeepsWriting.trans hw ht hk

theorem writeBools_keepsWriting (seq : List Bool) : ∀ {s : State}, (∃ w, s.units[h]? = some (BitUnit.writer w)) →
    (writeBools h seq s).Post (fun _ t => KeepsWriting s h t) (KeepsWriting s h) := by
  induction seq with
  | nil => intro s _; exact KeepsWriting.refl s h
  | cons b seq ih =>
    intro s hw
    obtain ⟨w, hu⟩ := id hw
    refine Ran.post_bind (wrBits_keepsWriting hu _ 1) fun resp t ht => ?_
    split
    · exact ht
    · exact Ran.post_mono (ih (writer_of_keeps hw ht)) (fun _ u hk => KeepsWriting.trans hw ht hk)
        fun u hk => KeepsWriting.trans hw ht hk

theorem writeBitsFrom_keepsWriting (b totalBits : Nat) {s : State} (hw : ∃ w, s.units[h]? = some (BitUnit.writer w)) :
    (writeBitsFrom h b totalBits s).Post (fun _ t => KeepsWriting s h t) (KeepsWriting s h) := by
  refine Ran.post_bind (writeBytes_keepsWriting _ 0 hw) fun p t ht => ?_
  split
  · exact ht
  · split
    · exact ht
    · obtain ⟨w1, hu1⟩ := writer_of_keeps hw ht
      refine Ran.post_bind (Ran.post_mono (wrBits_keepsWriting hu1 _ _)
        (fun _ u hk => KeepsWriting.trans hw ht hk) fun u hk => KeepsWriting.trans hw ht hk) fun resp u hk => ?_
      split <;> exact hk

end Writing

end Sys2Proof.Machine
end

