-- ==== Sys2Proof/Laws/PerInstr.lean ====
section
/-! SUPPORT. Statements about every instruction as syntax, one lemma per constructor. -/

namespace Sys2Proof.Laws.Encoding

/-- The word of a well-formed instruction decodes to the instruction's canonical command (`30_encoding.md` R57, R58,
R66). -/
def Statement (i : Instr) : Prop :=
  i.wellFormed = true → ∀ w, encode i = some w → decode w = .command i.canonical

theorem rdBits (N : Nat) : Statement (.rdBits N) := by
  intro h w hw
  simp only [Instr.wellFormed, fitsField, decide_eq_true_eq] at h
  obtain rfl : cmd32 0x01 N 0 = w := by simpa [encode] using hw
  exact decode_rdBits h

theorem rdCount : Statement .rdCount := by rintro - w ⟨⟩; rfl

theorem wrBits (V N : Nat) : Statement (.wrBits V N) := by
  intro h w hw
  simp only [Instr.wellFormed, fitsField, Bool.and_eq_true, decide_eq_true_eq] at h
  obtain rfl : cmd32 0x81 N V = w := by simpa [encode] using hw
  exact decode_wrBits h.1 h.2

theorem wrFlush : Statement .wrFlush := by rintro - w ⟨⟩; rfl

theorem wrCount : Statement .wrCount := by rintro - w ⟨⟩; rfl

theorem rdBit : Statement .rdBit := by rintro - w ⟨⟩; rfl

theorem rdBool : Statement .rdBool := by rintro - w ⟨⟩; rfl

theorem wrBit (b : Nat) : Statement (.wrBit b) := by
  intro h w hw
  simp only [Instr.wellFormed, decide_eq_true_eq] at h
  obtain rfl : cmd32 0x81 1 b = w := by simpa [encode] using hw
  exact decode_wrBits (by omega) (by omega)

theorem wrBool (t : Bool) : Statement (.wrBool t) := by
  rintro - w ⟨⟩
  cases t <;> rfl

theorem wrapReader (s : StreamHandle) : Statement (.wrapReader s) := by rintro - w ⟨⟩

theorem readBoolSequence (r n : Nat) : Statement (.readBoolSequence r n) := by rintro - w ⟨⟩

theorem readByteStream (r buf : Nat) : Statement (.readByteStream r buf) := by rintro - w ⟨⟩

theorem readBitSequenceInto (r buf totalBits : Nat) : Statement (.readBitSequenceInto r buf totalBits) := by
  rintro - w ⟨⟩

theorem wrapWriter (k : StreamHandle) : Statement (.wrapWriter k) := by rintro - w ⟨⟩

theorem writeByteStream (w buf : Nat) : Statement (.writeByteStream w buf) := by rintro - w ⟨⟩

theorem writeBitSequenceFrom (w buf totalBits : Nat) : Statement (.writeBitSequenceFrom w buf totalBits) := by
  rintro - w ⟨⟩

theorem writeBoolSequence (w seq : Nat) : Statement (.writeBoolSequence w seq) := by rintro - w ⟨⟩

end Sys2Proof.Laws.Encoding
end

