-- ==== Sys2Proof/Laws/WriterStream.lean ====
section
/-! SUPPORT. What writing puts into the bit stream of a sink (`20_memory.md` R36, `41_writer.md` R81), and the responses of
the writer's commands. -/

namespace Sys2Proof.Machine

/-- Bits inserted are at the end of the writer's stream. -/
theorem Writer.stream_insert (w : Writer) (v : Byte) {n : Nat} (hn : w.filled + n ≤ 8) :
    (w.insert v n).stream = w.stream ++ bitsOf v n := by
  simp [Writer.stream, Writer.insert, bitsOf_insert w.acc v hn]

/-- A full byte accepted leaves the stream as it was. -/
theorem Writer.stream_afterAccepted {w : Writer} (hf : w.filled = 8) : (w.afterAccepted w.acc).stream = w.stream := by
  simp [Writer.stream, Writer.afterAccepted, streamOf_append, bitsOf, hf]

/-- The byte of a flush is the bits held, then zeros (R82). -/
theorem Writer.flushByte_bits {w : Writer} (hf : w.filled ≤ 8) :
    bitsOf w.flushByte 8 = bitsOf w.acc w.filled ++ List.replicate (8 - w.filled) false := by
  have h1 := bitsOf_insert w.acc 0 (f := w.filled) (k := 8 - w.filled) (by omega)
  have h2 : bitsOf (0 : Byte) (8 - w.filled) = List.replicate (8 - w.filled) false := by
    generalize 8 - w.filled = n
    induction n with
    | zero => rfl
    | succ n ih => rw [bitsOf, ih, List.replicate_succ]; simp
  rw [show w.filled + (8 - w.filled) = 8 by omega, h2] at h1
  rw [← h1, Writer.flushByte]
  simp

/-- What a sink transaction leaves of the writer it is for. -/
theorem sinkWrite_keeps {h : Nat} {k : Binding} {b : Byte} {s t : State} {a : SinkReply}
    (hd : sinkWrite h h k b s = .done a t) {w : Writer} (hu : s.units[h]? = some (.writer w)) :
    t.units[h]? = some (.writer w) := by
  have f := sinkWrite_frame h h k b s
  rw [hd] at f
  exact WriteFrame.writer_above f le_rfl hu

/-- How a command with one sink transaction can be done. -/
theorem afterSinkWrite_done {h : Nat} {w : Writer} {b v : Byte} {need : Nat} {rest : State → Ran Response} {s t : State}
    {k : Binding} {resp : Response} (hu : s.units[h]? = some (.writer w))
    (hd : afterSinkWrite h w b v need rest (sinkWrite h h k b s) = .done resp t) :
    (∃ s1, sinkWrite h h k b s = .done .ok s1 ∧ s1.units[h]? = some (.writer w) ∧
      rest (s1.setUnit h (.writer (w.afterAccepted b))) = .done resp t) ∨
    (∃ e s1, sinkWrite h h k b s = .done (.err e) s1 ∧ s1.units[h]? = some (.writer w) ∧
      resp = { status := .err e, data := 0x00 } ∧ t.units[h]? = some (.writer w.afterRejected) ∧
      t.responses = s1.responses ++ [(h, resp)]) := by
  cases he : sinkWrite h h k b s with
  | done a s1 =>
    rw [he] at hd
    have hu1 := sinkWrite_keeps he hu
    cases a with
    | ok => exact .inl ⟨s1, rfl, hu1, hd⟩
    | err e =>
      simp only [afterSinkWrite, respondError, respond, Ran.done.injEq] at hd
      obtain ⟨rfl, rfl⟩ := hd
      exact .inr ⟨e, s1, rfl, hu1, rfl, State.setUnit_get_same _ (lt_of_get hu1), rfl⟩
  | blocked s1 => rw [he] at hd; simp [afterSinkWrite] at hd
  | fault f => rw [he] at hd; simp [afterSinkWrite] at hd
  | refused q => rw [he] at hd; simp [afterSinkWrite] at hd

/-- What a done WR.BITS has done to the writer: the field's bits are in its stream, or an emission failed and it is
empty. -/
theorem wrBits_writes {s t : State} {h V N : Nat} {resp : Response} {w : Writer} (hu : s.units[h]? = some (.writer w))
    (hi : w.micro = .idle) (ok : w.Ok) (hd : wrBits h V N s = .done resp t) :
    ∃ w' : Writer, t.units[h]? = some (.writer w') ∧ w'.Ok ∧ w'.micro = .idle ∧ w'.snk = w.snk ∧
      ((resp = { status := .ok, data := 0x00 } ∧ w.accepted <+: w'.accepted ∧
          w'.stream = w.stream ++ bitsOf (valueOperand V (clamp8 N)) (clamp8 N)) ∨
        (∃ e, resp = { status := .err e, data := 0x00 } ∧ w' = w.afterRejected ∧ 8 ≤ w.filled + clamp8 N)) := by
  have h7 := Writer.filled_of_idle ok hi
  have h8 := clamp8_le N
  by_cases h0 : clamp8 N = 0
  · rw [wrBits_zero hu hi V N h0] at hd
    simp only [respond, Ran.done.injEq] at hd
    obtain ⟨rfl, rfl⟩ := hd
    exact ⟨w, hu, ok, hi, rfl, .inl ⟨rfl, List.prefix_rfl, by simp [h0, bitsOf]⟩⟩
  · have hrej : w.afterRejected.Ok := Writer.ok_emptied (w' := w.afterRejected) hi rfl rfl
    rcases Nat.lt_trichotomy (w.filled + clamp8 N) 8 with hn | hn | hn
    · rw [wrBits_fits hu hi V N h0 hn] at hd
      simp only [respond, Ran.done.injEq] at hd
      obtain ⟨rfl, rfl⟩ := hd
      exact ⟨_, State.setUnit_get_same _ (lt_of_get hu), Writer.ok_insert ok.1 hi _ hn, hi, rfl,
        .inl ⟨rfl, List.prefix_rfl, Writer.stream_insert w _ hn.le⟩⟩
    · rw [wrBits_exact hu hi V N h0 hn] at hd
      rcases afterSinkWrite_done (State.setUnit_get_same _ (lt_of_get hu)) hd with
        ⟨s1, -, hu1, hr⟩ | ⟨e, s1, -, -, hresp, hut, -⟩
      · simp only [respond, Ran.done.injEq] at hr
        obtain ⟨rfl, rfl⟩ := hr
        refine ⟨_, State.setUnit_get_same _ (lt_of_get hu1), Writer.ok_emptied (w' := Writer.afterAccepted _ _) hi rfl rfl,
          hi, rfl, .inl ⟨rfl, ⟨_, rfl⟩, ?_⟩⟩
        rw [Writer.stream_afterAccepted (by simp only [Writer.insert]; exact hn), Writer.stream_insert w _ hn.le]
      · exact ⟨w.afterRejected, hut, hrej, hi, rfl, .inr ⟨e, hresp, rfl, hn.ge⟩⟩
    · rw [wrBits_over hu hi V N h7 hn] at hd
      simp only at hd
      generalize valueOperand V (clamp8 N) = v at hd ⊢
      have hstr : (w.insert (v >>> (clamp8 N - (8 - w.filled))) (8 - w.filled)).stream =
          w.stream ++ bitsOf (v >>> (clamp8 N - (8 - w.filled))) (8 - w.filled) := Writer.stream_insert w _ (by omega)
      have hfill : (w.insert (v >>> (clamp8 N - (8 - w.filled))) (8 - w.filled)).filled = 8 := by
        simp only [Writer.insert]; omega
      have hmic : (w.insert (v >>> (clamp8 N - (8 - w.filled))) (8 - w.filled)).micro = .idle := hi
      have hsnk : (w.insert (v >>> (clamp8 N - (8 - w.filled))) (8 - w.filled)).snk = w.snk := rfl
      have hacc : (w.insert (v >>> (clamp8 N - (8 - w.filled))) (8 - w.filled)).accepted = w.accepted := rfl
      have hrejf : (w.insert (v >>> (clamp8 N - (8 - w.filled))) (8 - w.filled)).afterRejected = w.afterRejected := rfl
      generalize w.insert (v >>> (clamp8 N - (8 - w.filled))) (8 - w.filled) = full at hd hstr hfill hmic hsnk hacc hrejf
      rcases afterSinkWrite_done (State.setUnit_get_same _ (lt_of_get hu)) hd with
        ⟨s1, -, hu1, hr⟩ | ⟨e, s1, -, -, hresp, hut, -⟩
      · simp only [respond, State.setUnit_setUnit, Ran.done.injEq] at hr
        obtain ⟨rfl, rfl⟩ := hr
        have hacc0 : (full.afterAccepted full.acc).acc >>> (full.afterAccepted full.acc).filled = 0 := by
          simp [Writer.afterAccepted]
        have hfill0 : (full.afterAccepted full.acc).filled = 0 := rfl
        refine ⟨_, State.setUnit_get_same _ (lt_of_get hu1), Writer.ok_insert hacc0 hmic v (by omega), hmic, hsnk,
          .inl ⟨rfl, ⟨[full.acc], by rw [← hacc]; rfl⟩, ?_⟩⟩
        rw [Writer.stream_insert _ _ (by omega), Writer.stream_afterAccepted hfill, hstr, List.append_assoc]
        have := bitsOf_add v (8 - w.filled) (clamp8 N - (8 - w.filled))
        rw [show 8 - w.filled + (clamp8 N - (8 - w.filled)) = clamp8 N by omega] at this
        rw [this, show w.filled + clamp8 N - 8 = clamp8 N - (8 - w.filled) by omega]
      · exact ⟨w.afterRejected, hrejf ▸ hut, hrej, hi, rfl, .inr ⟨e, hresp, rfl, hn.le⟩⟩

/-- What a done WR.FLUSH has done to the writer. -/
theorem wrFlush_writes {s t : State} {h : Nat} {resp : Response} {w : Writer} (hu : s.units[h]? = some (.writer w))
    (hi : w.micro = .idle) (hd : wrFlush h s = .done resp t) :
    ∃ w' : Writer, t.units[h]? = some (.writer w') ∧ w'.micro = .idle ∧ w'.snk = w.snk ∧
      ((resp = { status := .ok, data := 0x00 } ∧ w' = if w.filled = 0 then w else w.afterAccepted w.flushByte) ∨
        (∃ e, resp = { status := .err e, data := 0x00 } ∧ w' = w.afterRejected ∧ w.filled ≠ 0)) := by
  by_cases h0 : w.filled = 0
  · rw [wrFlush_empty hu hi h0] at hd
    simp only [respond, Ran.done.injEq] at hd
    obtain ⟨rfl, rfl⟩ := hd
    exact ⟨w, hu, hi, rfl, .inl ⟨rfl, by simp [h0]⟩⟩
  · rw [wrFlush_partial hu hi h0] at hd
    rcases afterSinkWrite_done hu hd with ⟨s1, -, hu1, hr⟩ | ⟨e, s1, -, -, hresp, hut, -⟩
    · simp only [respond, Ran.done.injEq] at hr
      obtain ⟨rfl, rfl⟩ := hr
      exact ⟨_, State.setUnit_get_same _ (lt_of_get hu1), hi, rfl, .inl ⟨rfl, by simp [h0]⟩⟩
    · exact ⟨_, hut, hi, rfl, .inr ⟨e, hresp, rfl, h0⟩⟩

/-! ## Responses -/

theorem emit_responses {h : Nat} {s : State} {w : Writer} (hu : s.units[h]? = some (.writer w)) (b v : Byte) (need : Nat) :
    (emit (sinkWrite h h) h b v need s).Post
      (fun _ t => t.responsesOf h = s.responsesOf h ∧ ∃ w', t.units[h]? = some (.writer w')) (fun _ => True) := by
  have f := sinkWrite_frame h h w.snk b s
  simp only [emit, State.writerAt_of_get hu]
  split
  · next s1 he =>
    rw [he] at f
    exact ⟨responsesOf_below f.responses le_rfl, _, State.setUnit_get_same _ (lt_of_get (sinkWrite_keeps he hu))⟩
  · next e s1 he =>
    rw [he] at f
    exact ⟨responsesOf_below f.responses le_rfl, _, State.setUnit_get_same _ (lt_of_get (sinkWrite_keeps he hu))⟩
  · trivial
  · trivial
  · trivial

theorem writeChunks_responses {h : Nat} (v : Byte) (passes : Nat) : ∀ (need : Nat) {s : State} {w : Writer},
    s.units[h]? = some (.writer w) →
    (writeChunks (sinkWrite h h) h v passes need s).Post (fun a t => t.responsesOf h = s.responsesOf h ++ [a])
      (fun _ => True) := by
  induction passes with
  | zero =>
    intro need s w _
    cases need with
    | zero => exact responsesOf_addResponse s h _
    | succ need => trivial
  | succ passes ih =>
    intro need s w hu
    cases need with
    | zero => exact responsesOf_addResponse s h _
    | succ need =>
      simp only [writeChunks, State.writerAt_of_get hu]
      have hu1 := State.setUnit_get_same (.writer (w.place v (need + 1))) (lt_of_get hu)
      split
      · refine Ran.post_bind (emit_responses hu1 _ v _) fun st t ht => ?_
        obtain ⟨he, w2, hu2⟩ := ht
        cases st with
        | err e =>
          simp only [respondError, respond, Ran.post_done, responsesOf_addResponse, he]; rfl
        | ok =>
          refine Ran.post_mono (ih _ hu2) (fun a u hau => ?_) fun _ hh => hh
          rw [hau, he]; rfl
      · refine Ran.post_mono (ih _ hu1) (fun a u hau => ?_) fun _ hh => hh
        rw [hau]; rfl

/-- A done WR.BITS has delivered its one response. -/
theorem wrBits_response {s t : State} {h V N : Nat} {resp : Response} (hd : wrBits h V N s = .done resp t) :
    t.responsesOf h = s.responsesOf h ++ [resp] := by
  have key : (wrBits h V N s).Post (fun a u => u.responsesOf h = s.responsesOf h ++ [a]) (fun _ => True) :=
    asWriter_post fun w hu _ => writeChunks_responses _ 2 _ hu
  rw [hd] at key
  exact key

/-- A done WR.FLUSH has delivered its one response. -/
theorem wrFlush_response {s t : State} {h : Nat} {resp : Response} (hd : wrFlush h s = .done resp t) :
    t.responsesOf h = s.responsesOf h ++ [resp] := by
  have key : (wrFlush h s).Post (fun a u => u.responsesOf h = s.responsesOf h ++ [a]) (fun _ => True) := by
    refine asWriter_post fun w hu _ => ?_
    split
    · exact responsesOf_addResponse s h _
    · refine Ran.post_bind (emit_responses hu _ _ _) fun st u hu2 => ?_
      cases st <;> simp only [respondError, respond, Ran.post_done, responsesOf_addResponse, hu2.1]
  rw [hd] at key
  exact key

/-! ## The sequences -/

/-- The response of a command in a run of successes, or of the failure that ends it. -/
theorem writeBytes_writes (h : Nat) (bytes : List Byte) : ∀ (i : Nat) {s t : State} {w : Writer} {n : Nat} {st : Status},
    s.units[h]? = some (.writer w) → w.micro = .idle → w.Ok → writeBytes h bytes i s = .done (n, st) t →
    ∃ w' : Writer, t.units[h]? = some (.writer w') ∧ w'.Ok ∧ w'.micro = .idle ∧ w'.snk = w.snk ∧
      i ≤ n ∧ n ≤ i + bytes.length ∧ w.accepted <+: w'.accepted ∧
      (t.responsesOf h).length = (s.responsesOf h).length + (n - i) + st.extra ∧
      (st = .ok → n = i + bytes.length ∧ w'.stream = w.stream ++ streamOf bytes) ∧
      (∀ e, st = .err e → n < i + bytes.length ∧ ∃ w1 : Writer, w1.stream = w.stream ++ streamOf (bytes.take (n - i)) ∧
        w1.filled = w.filled ∧ w' = w1.afterRejected) := by
  induction bytes with
  | nil =>
    intro i s t w n st hu hi ok hd
    simp only [writeBytes, Ran.done.injEq, Prod.mk.injEq] at hd
    obtain ⟨⟨rfl, rfl⟩, rfl⟩ := hd
    exact ⟨w, hu, ok, hi, rfl, le_rfl, le_rfl, List.prefix_rfl, by simp [Status.extra], fun _ => ⟨rfl, by simp⟩, by simp⟩
  | cons b bytes ih =>
    intro i s t w n st hu hi ok hd
    simp only [writeBytes] at hd
    cases hb : wrBits h b.toNat 8 s with
    | done resp s1 =>
      rw [hb, Ran.bind_done] at hd
      have hresp := congrArg List.length (wrBits_response hb)
      have h7 := Writer.filled_of_idle ok hi
      obtain ⟨w1, hu1, ok1, hi1, hs1, hcase⟩ := wrBits_writes hu hi ok hb
      have h71 := Writer.filled_of_idle ok1 hi1
      rcases hcase with ⟨rfl, hpre, hstr⟩ | ⟨e, rfl, rfl, -⟩
      · simp only at hd
        obtain ⟨w2, hu2, ok2, hi2, hs2, hin, hnm, hpre2, hlen, hok, herr⟩ := ih (i + 1) hu1 hi1 ok1 hd
        have hval : bitsOf (valueOperand b.toNat (clamp8 8)) (clamp8 8) = bitsOf b 8 := by
          simp [clamp8, valueOperand]
        rw [hval] at hstr
        have hfill : w1.filled = w.filled := by
          have := congrArg List.length hstr
          simp [Writer.stream] at this
          omega
        refine ⟨w2, hu2, ok2, hi2, hs2.trans hs1, by omega, by simp; omega, hpre.trans hpre2, ?_, fun h0 => ?_,
          fun e h0 => ?_⟩
        · rw [hlen]; simp at hresp; omega
        · obtain ⟨hn, hstr2⟩ := hok h0
          refine ⟨by simp; omega, ?_⟩
          rw [hstr2, hstr]
          simp [streamOf]
        · obtain ⟨hn, w3, hstr3, hf3, he3⟩ := herr e h0
          refine ⟨by simp; omega, w3, ?_, hf3.trans hfill, he3⟩
          rw [hstr3, hstr, show n - i = (n - (i + 1)) + 1 by omega, List.take_succ_cons]
          simp [streamOf]
      · simp only [Ran.done.injEq, Prod.mk.injEq] at hd
        obtain ⟨⟨rfl, rfl⟩, rfl⟩ := hd
        refine ⟨w.afterRejected, hu1, ok1, hi, rfl, le_rfl, by simp, List.prefix_rfl, ?_, by simp, fun e' _ => ?_⟩
        · simpa [Status.extra] using hresp
        · exact ⟨by simp, w, by simp, rfl, rfl⟩
    | blocked s1 => rw [hb] at hd; simp at hd
    | fault f => rw [hb] at hd; simp at hd
    | refused q => rw [hb] at hd; simp at hd

theorem writeBools_writes (h : Nat) (seq : List Bool) : ∀ {s t : State} {w : Writer} {st : Status},
    s.units[h]? = some (.writer w) → w.micro = .idle → w.Ok → writeBools h seq s = .done st t →
    ∃ w' : Writer, t.units[h]? = some (.writer w') ∧ w'.Ok ∧ w'.micro = .idle ∧ w'.snk = w.snk ∧
      w.accepted <+: w'.accepted ∧
      (st = .ok → w'.stream = w.stream ++ seq ∧ (t.responsesOf h).length = (s.responsesOf h).length + seq.length) ∧
      (∀ e, st = .err e → ∃ m, m < seq.length ∧ (t.responsesOf h).length = (s.responsesOf h).length + m + 1 ∧
        ∃ w1 : Writer, w1.stream = w.stream ++ seq.take m ∧ w1.filled ≤ 7 ∧ w' = w1.afterRejected) := by
  induction seq with
  | nil =>
    intro s t w st hu hi ok hd
    simp only [writeBools, Ran.done.injEq] at hd
    obtain ⟨rfl, rfl⟩ := hd
    exact ⟨w, hu, ok, hi, rfl, List.prefix_rfl, by simp, by simp⟩
  | cons b seq ih =>
    intro s t w st hu hi ok hd
    simp only [writeBools] at hd
    cases hb : wrBits h (boolOperand b) 1 s with
    | done resp s1 =>
      rw [hb, Ran.bind_done] at hd
      have hresp := congrArg List.length (wrBits_response hb)
      obtain ⟨w1, hu1, ok1, hi1, hs1, hcase⟩ := wrBits_writes hu hi ok hb
      rcases hcase with ⟨rfl, hpre, hstr⟩ | ⟨e, rfl, rfl, -⟩
      · simp only at hd
        obtain ⟨w2, hu2, ok2, hi2, hs2, hpre2, hok, herr⟩ := ih hu1 hi1 ok1 hd
        have hval : bitsOf (valueOperand (boolOperand b) (clamp8 1)) (clamp8 1) = [b] := by
          cases b <;> decide
        rw [hval] at hstr
        refine ⟨w2, hu2, ok2, hi2, hs2.trans hs1, hpre.trans hpre2, fun h0 => ?_, fun e h0 => ?_⟩
        · obtain ⟨hstr2, hlen⟩ := hok h0
          exact ⟨by rw [hstr2, hstr]; simp, by rw [hlen]; simp at hresp ⊢; omega⟩
        · obtain ⟨m, hm, hlen, w3, hstr3, he3⟩ := herr e h0
          refine ⟨m + 1, by simpa using hm, by rw [hlen]; simp at hresp; omega, w3, ?_, he3⟩
          rw [hstr3, hstr]; simp
      · simp only [Ran.done.injEq] at hd
        obtain ⟨rfl, rfl⟩ := hd
        refine ⟨w.afterRejected, hu1, ok1, hi, rfl, List.prefix_rfl, by simp, fun e' _ => ?_⟩
        exact ⟨0, by simp, by simpa using hresp, w, by simp, Writer.filled_of_idle ok hi, rfl⟩
    | blocked s1 => rw [hb] at hd; simp at hd
    | fault f => rw [hb] at hd; simp at hd
    | refused q => rw [hb] at hd; simp at hd

end Sys2Proof.Machine
end

