-- ==== Sys2Proof/Laws/Step.lean ====
section
/-! SUPPORT. One step, by what stands at the head of the queue; and the words of `readWords` and `writeWords`. -/

namespace Sys2Proof.Machine

section Step

variable {s : State} {h : Nat} {rest : List HostOp}

theorem step_word {w : Word} {i : Instr} (hq : s.queue = .word h w :: rest) (hd : decode w = .command i) :
    step s = exec i (s.takeOp h rest) := by
  simp only [step, State.fetch, hq, hd]

theorem step_line {i : Instr} (hq : s.queue = .line h i :: rest) (hw : i.wellFormed = true) :
    step s = exec i (s.takeOp h rest) := by
  simp only [step, State.fetch, hq, hw, if_true]

theorem step_empty (hq : s.queue = []) : step s = .next s := by
  simp only [step, State.fetch, hq]

/-- The step of the first of `readWords`. -/
theorem step_readWord {n : Nat} {widths : List Nat} (hq : s.queue = readWords h (n :: widths) ++ rest) (hn : n < 256) :
    step s = (rdBits h n (s.takeOp h (readWords h widths ++ rest))).finish .response :=
  step_word (rest := readWords h widths ++ rest) hq (decode_rdBits hn)

/-- The step of the first of `writeWords`. -/
theorem step_writeWord {V N : Nat} {groups : List (Nat × Nat)} (hq : s.queue = writeWords h ((V, N) :: groups) ++ rest)
    (hV : V < 256) (hN : N < 256) :
    step s = (wrBits h V N (s.takeOp h (writeWords h groups ++ rest))).finish .response :=
  step_word (rest := writeWords h groups ++ rest) hq (decode_wrBits hV hN)

/-- A run of one step and more. -/
theorem run_succ (k : Nat) {t : State} (ht : step s = .next t) :
    Host.Core.run Sys2Proof.core (k + 1) s = Host.Core.run Sys2Proof.core k t := by
  have : Sys2Proof.core.step s = .next t := ht
  simp only [Host.Core.run, this]

/-- A run goes on only from a next state. -/
theorem run_succ_next {k : Nat} {t : State} (hr : Host.Core.run Sys2Proof.core (k + 1) s = .next t) :
    ∃ s1, step s = .next s1 ∧ Host.Core.run Sys2Proof.core k s1 = .next t := by
  simp only [Host.Core.run] at hr
  cases he : Sys2Proof.core.step s with
  | next s1 => rw [he] at hr; exact ⟨s1, he, hr⟩
  | fault f => rw [he] at hr; cases hr
  | refused r => rw [he] at hr; cases hr

end Step

/-! ## A unit that waits -/

/-- A writer whose sink never answers is left inside its command. -/
theorem writeChunks_blocked {h : Nat} (v : Byte) (passes : Nat) : ∀ (need : Nat) {s : State} {w : Writer},
    s.units[h]? = some (.writer w) →
    (writeChunks (sinkWrite h h) h v passes need s).Post (fun _ _ => True)
      (fun t => ∃ w1 : Writer, t.units[h]? = some (.writer w1) ∧ w1.micro ≠ .idle) := by
  induction passes with
  | zero => intro need s w _; cases need <;> trivial
  | succ passes ih =>
    intro need s w hu
    cases need with
    | zero => trivial
    | succ need =>
      simp only [writeChunks, State.writerAt_of_get hu]
      have hu1 := State.setUnit_get_same (.writer (w.place v (need + 1))) (lt_of_get hu)
      split
      · have one : (emit (sinkWrite h h) h (w.place v (need + 1)).acc v (need + 1 - min (need + 1) (8 - w.filled))
            (s.setUnit h (.writer (w.place v (need + 1))))).Post
              (fun _ t => ∃ w1 : Writer, t.units[h]? = some (.writer w1))
              (fun t => ∃ w1 : Writer, t.units[h]? = some (.writer w1) ∧ w1.micro ≠ .idle) := by
          have f := sinkWrite_frame h h (w.place v (need + 1)).snk (w.place v (need + 1)).acc
            (s.setUnit h (.writer (w.place v (need + 1))))
          simp only [emit, State.writerAt_of_get hu1]
          split
          · next he => exact ⟨_, State.setUnit_get_same _ (lt_of_get (sinkWrite_keeps he hu1))⟩
          · next he => exact ⟨_, State.setUnit_get_same _ (lt_of_get (sinkWrite_keeps he hu1))⟩
          · next he =>
            rw [he] at f
            exact ⟨_, State.setUnit_get_same _ (lt_of_get (WriteFrame.writer_above f le_rfl hu1)), by simp⟩
          · trivial
          · trivial
        refine Ran.post_bind one fun st t ht => ?_
        obtain ⟨w1, hw1⟩ := ht
        cases st with
        | ok => exact ih _ hw1
        | err e => trivial
      · exact ih _ hu1

theorem wrBits_blocked {h V N : Nat} {s t : State} (hd : wrBits h V N s = .blocked t) :
    ∃ w1 : Writer, t.units[h]? = some (.writer w1) ∧ w1.micro ≠ .idle := by
  have key : (wrBits h V N s).Post (fun _ _ => True)
      (fun t => ∃ w1 : Writer, t.units[h]? = some (.writer w1) ∧ w1.micro ≠ .idle) :=
    asWriter_post fun _ hu _ => writeChunks_blocked _ 2 _ hu
  rw [hd] at key
  exact key

/-- A writer inside a command is busy for the next. -/
theorem wrBits_busy {h V N : Nat} {s : State} {w : Writer} (hu : s.units[h]? = some (.writer w)) (hi : w.micro ≠ .idle) :
    wrBits h V N s = .refused (.busy h) := by
  simp only [wrBits, wrBitsVia, asWriter, hu, hi, if_false]

end Sys2Proof.Machine
end

