-- ==== Sys2Proof/Laws/Supply.lean ====
section
/-! SUPPORT. Commands over external streams whose answers State settles: RD.BITS over a source that is to deliver enough
bytes, and WR.BITS over a sink that is to accept, end with OK; what they use up of the stream's script. -/

namespace Sys2Proof.Machine

/-- What a source's script says of the bytes it is to deliver, before `rest`. -/
def deliveries (bytes : List Byte) (rest : List SrcEvent) : List SrcEvent :=
  bytes.map (fun v => .reply (.byte v)) ++ rest

section Sources

variable {s : State} {k : Nat} (hw : portWf Source.untouched s.sources)
include hw

/-- A source transaction that delivers the first byte of the script. -/
theorem pullSource_delivers {b : Byte} {bytes : List Byte} {rest : List SrcEvent}
    (hs : (s.source k).script = deliveries (b :: bytes) rest) :
    ∃ t, pullSource k s = .done (.byte b) t ∧ t.units = s.units ∧ portWf Source.untouched t.sources ∧
      (t.source k).script = deliveries bytes rest ∧ (t.source k).tail = (s.source k).tail ∧ t.responses = s.responses := by
  have hn : (s.source k).next k = .reply (.byte b) := by simp [Source.next, hs, deliveries]
  refine ⟨s.setSource k ((s.source k).advance (.byte b)), by simp only [pullSource, hn], rfl, portSet_wf _ _ _ hw, ?_, ?_, rfl⟩
  · rw [State.source_setSource_same _ _ hw]; simp [Source.advance, hs, deliveries]
  · rw [State.source_setSource_same _ _ hw]; rfl

variable {h N : Nat} {r : Reader} (hu : s.units[h]? = some (.reader r)) (hi : r.micro = .idle) (ok : r.Ok)
  (hsrc : r.src = .external k) {bytes : List Byte} {rest : List SrcEvent}
  (hs : (s.source k).script = deliveries bytes rest)
include hu hi ok hsrc hs

/-- RD.BITS over a source that is to deliver enough bytes for it. -/
theorem rdBits_served (h1 : 1 ≤ clamp8 N) (hn : clamp8 N ≤ r.count + 8 * bytes.length) :
    ∃ d t r' bytes', rdBits h N s = .done { status := .ok, data := d } t ∧ t.units[h]? = some (.reader r') ∧ r'.Ok ∧
      r'.micro = .idle ∧ r'.src = .external k ∧ portWf Source.untouched t.sources ∧
      (t.source k).script = deliveries bytes' rest ∧ (t.source k).tail = (s.source k).tail ∧
      r'.delivered ++ bytes' = r.delivered ++ bytes ∧
      r'.count + 8 * bytes'.length + clamp8 N = r.count + 8 * bytes.length ∧
      d >>> clamp8 N = 0 ∧ r.Reads r' (bitsOf d (clamp8 N)) ∧
      t.responses = s.responses ++ [(h, { status := .ok, data := d })] := by
  have h8 := clamp8_le N
  have key : ∃ d t r' bytes', rdBits h N s = .done { status := .ok, data := d } t ∧ t.units[h]? = some (.reader r') ∧
      portWf Source.untouched t.sources ∧ (t.source k).script = deliveries bytes' rest ∧
      (t.source k).tail = (s.source k).tail ∧ r'.delivered ++ bytes' = r.delivered ++ bytes ∧
      r'.count + 8 * bytes'.length + clamp8 N = r.count + 8 * bytes.length ∧
      t.responses = s.responses ++ [(h, { status := .ok, data := d })] := by
    by_cases hc : r.count = 0
    · obtain _ | ⟨b, bytes⟩ := bytes
      · simp only [List.length_nil] at hn; omega
      obtain ⟨t, hp, htu, htw, hts, htt, htr⟩ := pullSource_delivers hw hs
      rw [rdBits_empty hu hi N hc, hsrc, srcRead_external, hp]
      refine ⟨_, _, r.afterByte b (clamp8 N), bytes, rfl, State.setUnit_get_same _ (htu ▸ lt_of_get hu), htw, hts, htt,
        by simp [Reader.afterByte], ?_, by simp [htr]⟩
      simp only [Reader.afterByte, List.length_cons]; omega
    · by_cases hle : clamp8 N ≤ r.count
      · rw [rdBits_held hu hi N hc hle]
        refine ⟨_, _, _, bytes, rfl, State.setUnit_get_same _ (lt_of_get hu), hw, hs, rfl, rfl, ?_, rfl⟩
        show r.count - clamp8 N + 8 * bytes.length + clamp8 N = _
        omega
      · obtain _ | ⟨b, bytes⟩ := bytes
        · simp only [List.length_nil] at hn; omega
        obtain ⟨t, hp, htu, htw, hts, htt, htr⟩ :=
          pullSource_delivers (s := s.setUnit h (.reader r.drained)) hw hs
        rw [rdBits_straddle hu hi N hc (Nat.not_le.mp hle), hsrc, srcRead_external, hp]
        refine ⟨_, _, r.drained.afterByte b (clamp8 N - r.count), bytes, rfl,
          State.setUnit_get_same _ (by rw [htu]; simpa using lt_of_get hu), htw, hts, htt,
          by simp [Reader.afterByte, Reader.drained], ?_, by simp [htr]⟩
        simp only [Reader.afterByte, List.length_cons]; omega
  obtain ⟨d, t, r', bytes', hd, hu', hw', hs', ht', hdel, hcnt, hresp⟩ := key
  obtain ⟨r2, hu2, ok2, hi2, hsrc2, ⟨-, hz, hreads, -⟩ | ⟨e, he, -⟩⟩ := rdBits_reads hu hi ok hd
  · obtain rfl : r' = r2 := by simpa [hu'] using hu2
    exact ⟨d, t, r', bytes', hd, hu', ok2, hi2, hsrc2.trans hsrc, hw', hs', ht', hdel, hcnt, hz, hreads, hresp⟩
  · cases he

end Sources

section Sinks

variable {s : State} {k h V N : Nat} {w : Writer} (hw : portWf Sink.untouched s.sinks)
  (hu : s.units[h]? = some (.writer w)) (hi : w.micro = .idle) (ok : w.Ok) (hsnk : w.snk = .external k)
include hw hu hi ok hsnk

/-- WR.BITS over a sink that accepts the byte it completes, if it completes one. -/
theorem wrBits_accepted (hn : 8 ≤ w.filled + clamp8 N → (s.sink k).next k = .reply .ok) :
    ∃ t w', wrBits h V N s = .done { status := .ok, data := 0x00 } t ∧ t.units[h]? = some (.writer w') ∧ w'.Ok ∧
      w'.micro = .idle ∧ w'.snk = .external k ∧ portWf Sink.untouched t.sinks ∧
      w'.filled = (w.filled + clamp8 N) % 8 ∧ w'.stream = w.stream ++ bitsOf (valueOperand V (clamp8 N)) (clamp8 N) ∧
      ((w.filled + clamp8 N < 8 ∧ w'.accepted = w.accepted ∧ t.sink k = s.sink k) ∨
        (8 ≤ w.filled + clamp8 N ∧ ∃ b, w'.accepted = w.accepted ++ [b] ∧ t.sink k = (s.sink k).advance b .ok)) := by
  have h8 := clamp8_le N
  have h7 := Writer.filled_of_idle ok hi
  have offer : 8 ≤ w.filled + clamp8 N → ∀ b u, sinkWrite h h (.external k) b (s.setUnit h u) =
      .done .ok ((s.setUnit h u).setSink k ((s.sink k).advance b .ok)) := by
    intro h b u
    rw [sinkWrite_external, offerSink, show (s.setUnit _ u).sink k = s.sink k from rfl, hn h]
  have key : ∃ t w', wrBits h V N s = .done { status := .ok, data := 0x00 } t ∧ t.units[h]? = some (.writer w') ∧
      portWf Sink.untouched t.sinks ∧ w'.filled = (w.filled + clamp8 N) % 8 ∧
      ((w.filled + clamp8 N < 8 ∧ w'.accepted = w.accepted ∧ t.sink k = s.sink k) ∨
        (8 ≤ w.filled + clamp8 N ∧ ∃ b, w'.accepted = w.accepted ++ [b] ∧ t.sink k = (s.sink k).advance b .ok)) := by
    by_cases h0 : clamp8 N = 0
    · exact ⟨_, w, wrBits_zero hu hi V N h0, hu, hw, by omega, .inl ⟨by omega, rfl, rfl⟩⟩
    · rcases Nat.lt_trichotomy (w.filled + clamp8 N) 8 with hlt | heq | hgt
      · refine ⟨_, _, wrBits_fits hu hi V N h0 hlt, State.setUnit_get_same _ (lt_of_get hu), hw, ?_,
          .inl ⟨hlt, rfl, rfl⟩⟩
        simp only [Writer.insert]; omega
      · rw [wrBits_exact hu hi V N h0 heq, hsnk, offer heq.ge]
        refine ⟨_, _, rfl, State.setUnit_get_same _ (by simpa using lt_of_get hu), portSet_wf _ _ _ hw, ?_,
          .inr ⟨heq.ge, _, rfl, State.sink_setSink_same s _ hw⟩⟩
        simp only [Writer.afterAccepted]; omega
      · rw [wrBits_over hu hi V N h7 hgt]
        simp only
        rw [hsnk, offer hgt.le]
        simp only [afterSinkWrite, State.setUnit_setUnit]
        refine ⟨_, _, rfl, State.setUnit_get_same _ (by simpa using lt_of_get hu), portSet_wf _ _ _ hw, ?_,
          .inr ⟨hgt.le, _, rfl, State.sink_setSink_same s _ hw⟩⟩
        simp only [Writer.insert, Writer.afterAccepted]; omega
  obtain ⟨t, w', hd, hu', hw', hf, hcase⟩ := key
  obtain ⟨w2, hu2, ok2, hi2, hs2, ⟨-, -, hstr⟩ | ⟨e, he, -⟩⟩ := wrBits_writes hu hi ok hd
  · obtain rfl : w' = w2 := by simpa [hu'] using hu2
    exact ⟨t, w', hd, hu', ok2, hi2, hs2.trans hsnk, hw', hf, hstr, hcase⟩
  · cases he

end Sinks

end Sys2Proof.Machine
end

