-- ==== Sys2Proof/Laws/Transactions.lean ====
section
/-! SUPPORT. The transactions of a command (`20_memory.md` R43) and where its errors come from (`60_exceptions.md` R100).
First, the shapes a command of each kind can have, so that a property of all of them is shown shape by shape. -/

namespace Sys2Proof.Machine

/-! ## The shapes of a command -/

/-- RD.BITS is refused, or served from held bits, or asks for one byte while its reader is EMPTY. -/
theorem rdBits_elim {motive : Ran Response → Prop} (h N : Nat) (s : State) (refused : ∀ q, motive (.refused q))
    (held : ∀ d u, motive (respond h .ok d (s.setUnit h u)))
    (read : ∀ (r0 r : Reader) need held, s.units[h]? = some (.reader r0) → r.count = 0 →
      motive (afterSrcRead h r need held (srcRead h h r.src (s.setUnit h (.reader r))))) :
    motive (rdBits h N s) := by
  by_cases hr : ∃ r, s.units[h]? = some (.reader r) ∧ r.micro = .idle
  · obtain ⟨r, hu, hi⟩ := hr
    by_cases hc : r.count = 0
    · rw [rdBits_empty hu hi N hc]
      have := read r r (clamp8 N) 0x00 hu hc
      rwa [State.setUnit_get_self hu] at this
    · by_cases hn : clamp8 N ≤ r.count
      · rw [rdBits_held hu hi N hc hn]
        exact held _ _
      · rw [rdBits_straddle hu hi N hc (Nat.not_le.mp hn)]
        exact read r r.drained _ _ hu rfl
  · rw [rdBits, rdBitsVia, asReader]
    split
    · exact refused _
    · exact refused _
    · next r hu =>
      split
      · next hi => exact absurd ⟨r, hu, hi⟩ hr
      · exact refused _

/-- WR.BITS is refused, or placed without a transaction, or offers one byte; then the rest is placed. -/
theorem wrBits_elim {motive : Ran Response → Prop} (h V N : Nat) {s : State} (ok : s.Ok) (refused : ∀ q, motive (.refused q))
    (placed : ∀ u, motive (respond h .ok 0x00 (s.setUnit h u)))
    (write : ∀ (w0 w : Writer) b v need rest, s.units[h]? = some (.writer w0) →
      (∀ t : State, ∃ u : BitUnit → BitUnit, ∀ x, rest (t.setUnit h x) = respond h .ok 0x00 (t.setUnit h (u x))) →
      motive (afterSinkWrite h w b v need rest (sinkWrite h h w.snk b (s.setUnit h (.writer w))))) :
    motive (wrBits h V N s) := by
  by_cases hw : ∃ w, s.units[h]? = some (.writer w) ∧ w.micro = .idle
  · obtain ⟨w, hu, hi⟩ := hw
    have h7 := Writer.filled_of_idle (ok.writer hu) hi
    by_cases h0 : clamp8 N = 0
    · rw [wrBits_zero hu hi V N h0]
      have := placed (.writer w)
      rwa [State.setUnit_get_self hu] at this
    · rcases Nat.lt_trichotomy (w.filled + clamp8 N) 8 with hn | hn | hn
      · rw [wrBits_fits hu hi V N h0 hn]
        exact placed _
      · rw [wrBits_exact hu hi V N h0 hn]
        exact write w (w.insert _ _) _ _ _ _ hu fun t => ⟨id, fun _ => rfl⟩
      · rw [wrBits_over hu hi V N h7 hn]
        exact write w (w.insert _ _) _ _ _ _ hu fun t => ⟨fun _ => _, fun x => by simp only [State.setUnit_setUnit]; rfl⟩
  · rw [wrBits, wrBitsVia, asWriter]
    split
    · exact refused _
    · exact refused _
    · next w hu =>
      split
      · next hi => exact absurd ⟨w, hu, hi⟩ hw
      · exact refused _

/-- WR.FLUSH likewise. -/
theorem wrFlush_elim {motive : Ran Response → Prop} (h : Nat) (s : State) (refused : ∀ q, motive (.refused q))
    (placed : ∀ u, motive (respond h .ok 0x00 (s.setUnit h u)))
    (write : ∀ (w0 w : Writer) b v need rest, s.units[h]? = some (.writer w0) →
      (∀ t : State, ∃ u : BitUnit → BitUnit, ∀ x, rest (t.setUnit h x) = respond h .ok 0x00 (t.setUnit h (u x))) →
      motive (afterSinkWrite h w b v need rest (sinkWrite h h w.snk b (s.setUnit h (.writer w))))) :
    motive (wrFlush h s) := by
  by_cases hw : ∃ w, s.units[h]? = some (.writer w) ∧ w.micro = .idle
  · obtain ⟨w, hu, hi⟩ := hw
    by_cases h0 : w.filled = 0
    · rw [wrFlush_empty hu hi h0]
      have := placed (.writer w)
      rwa [State.setUnit_get_self hu] at this
    · rw [wrFlush_partial hu hi h0]
      have := write w w w.flushByte 0x00 0 (respond h .ok 0x00) hu fun t => ⟨id, fun _ => rfl⟩
      rwa [State.setUnit_get_self hu] at this
  · rw [wrFlush, asWriter]
    split
    · exact refused _
    · exact refused _
    · next w hu =>
      split
      · next hi => exact absurd ⟨w, hu, hi⟩ hw
      · exact refused _

/-! ## At most one transaction -/

/-- At most one source has answered, once. -/
def OneAnswer (s t : State) : Prop :=
  ∃ k, (∀ j, j ≠ k → t.source j = s.source j) ∧
    (t.source k = s.source k ∨ ∃ a, t.source k = (s.source k).advance a)

/-- At most one sink has answered, once. -/
def OneOffer (s t : State) : Prop :=
  ∃ k, (∀ j, j ≠ k → t.sink j = s.sink j) ∧
    (t.sink k = s.sink k ∨ ∃ b a, t.sink k = (s.sink k).advance b a)

theorem OneAnswer.none {s t : State} (h : t.sources = s.sources) : OneAnswer s t :=
  ⟨0, fun j _ => State.source_congr h j, .inl (State.source_congr h 0)⟩

theorem OneOffer.none {s t : State} (h : t.sinks = s.sinks) : OneOffer s t :=
  ⟨0, fun j _ => State.sink_congr h j, .inl (State.sink_congr h 0)⟩

theorem OneAnswer.congr {s s' t t' : State} (h : OneAnswer s t) (hs : s'.sources = s.sources)
    (ht : t'.sources = t.sources) : OneAnswer s' t' := by
  simpa only [OneAnswer, State.source, hs, ht] using h

theorem OneOffer.congr {s s' t t' : State} (h : OneOffer s t) (hs : s'.sinks = s.sinks) (ht : t'.sinks = t.sinks) :
    OneOffer s' t' := by
  simpa only [OneOffer, State.sink, hs, ht] using h

theorem pullSource_one (k : Nat) {s : State} (hw : portWf Source.untouched s.sources) :
    (pullSource k s).Post (fun _ t => OneAnswer s t) (OneAnswer s) := by
  unfold pullSource
  split
  · exact ⟨k, fun j hj => State.source_setSource_other _ _ hj, .inr ⟨_, State.source_setSource_same _ _ hw⟩⟩
  · exact OneAnswer.none rfl
  · trivial
  · trivial

theorem offerSink_one (k : Nat) (b : Byte) {s : State} (hw : portWf Sink.untouched s.sinks) :
    (offerSink k b s).Post (fun _ t => OneOffer s t) (OneOffer s) := by
  unfold offerSink
  split
  · exact ⟨k, fun j hj => State.sink_setSink_other _ _ hj, .inr ⟨_, _, State.sink_setSink_same _ _ hw⟩⟩
  · exact OneOffer.none rfl
  · trivial

theorem srcRead_one (h : Nat) : ∀ b {s : State}, portWf Source.untouched s.sources →
    (srcRead h h b s).Post (fun _ t => OneAnswer s t) (OneAnswer s) := by
  induction h using Nat.strong_induction_on with
  | _ h ih =>
    intro b s hw
    cases b with
    | external k => rw [srcRead_external]; exact pullSource_one k hw
    | adapter g =>
      by_cases hg : g < h
      · rw [srcRead_adapter hg]
        refine Ran.post_bind (Q := fun _ t => OneAnswer s t) ?_ fun _ _ ht => ht
        refine rdBits_elim g 8 s (fun _ => trivial) (fun d u => OneAnswer.none rfl) fun r0 r need held _ _ => ?_
        have key := ih g hg r.src (s := s.setUnit g (.reader r)) hw
        cases hd : srcRead g g r.src (s.setUnit g (.reader r)) with
        | done a t => rw [hd] at key; cases a <;> exact OneAnswer.congr key rfl rfl
        | blocked t => rw [hd] at key; exact OneAnswer.congr key rfl rfl
        | fault f => trivial
        | refused q => trivial
      · cases h <;> simp [srcRead, hg]

/-- RD.BITS performs at most one source transaction. -/
theorem rdBits_one (h N : Nat) {s : State} (hw : portWf Source.untouched s.sources) :
    (rdBits h N s).Post (fun _ t => OneAnswer s t) (OneAnswer s) := by
  refine rdBits_elim h N s (fun _ => trivial) (fun d u => OneAnswer.none rfl) fun r0 r need held _ _ => ?_
  have key := srcRead_one h r.src (s := s.setUnit h (.reader r)) hw
  cases hd : srcRead h h r.src (s.setUnit h (.reader r)) with
  | done a t => rw [hd] at key; cases a <;> exact OneAnswer.congr key rfl rfl
  | blocked t => rw [hd] at key; exact OneAnswer.congr key rfl rfl
  | fault f => trivial
  | refused q => trivial

theorem afterSinkWrite_one {h : Nat} {s : State} {w : Writer} {b v : Byte} {need : Nat} {rest : State → Ran Response}
    (hrest : ∀ t : State, ∃ u : BitUnit → BitUnit, ∀ x, rest (t.setUnit h x) = respond h .ok 0x00 (t.setUnit h (u x))) {m : Ran SinkReply}
    (hm : m.Post (fun _ t => OneOffer s t) (OneOffer s)) :
    (afterSinkWrite h w b v need rest m).Post (fun _ t => OneOffer s t) (OneOffer s) := by
  cases m with
  | done a t =>
    cases a with
    | ok =>
      obtain ⟨u, hu⟩ := hrest t
      simp only [afterSinkWrite, hu]
      exact OneOffer.congr hm rfl rfl
    | err e => exact OneOffer.congr hm rfl rfl
  | blocked t => exact OneOffer.congr hm rfl rfl
  | fault f => trivial
  | refused q => trivial

/-- Whether a writer is in range does not depend on younger writers; what stands for the writer at `h` inside its command
is not looked at. -/
theorem sinkWrite_one (h : Nat) : ∀ k b {s : State}, s.Ok →
    (sinkWrite h h k b s).Post (fun _ t => OneOffer s t) (OneOffer s) := by
  induction h using Nat.strong_induction_on with
  | _ h ih =>
    intro k b s ok
    cases k with
    | external k => rw [sinkWrite_external]; exact offerSink_one k b ok.2.2
    | adapter g =>
      by_cases hg : g < h
      · rw [sinkWrite_adapter hg]
        refine Ran.post_bind (Q := fun _ t => OneOffer s t) ?_ fun _ _ ht => ht
        refine wrBits_elim g b.toNat 8 ok (fun _ => trivial) (fun u => OneOffer.none rfl)
          fun w0 w c v need rest hu hrest => afterSinkWrite_one hrest ?_
        rw [sinkWrite_setUnit g _ le_rfl]
        have key := ih g hg w.snk c ok
        cases hd : sinkWrite g g w.snk c s with
        | done a t => rw [hd] at key; exact OneOffer.congr key rfl rfl
        | blocked t => rw [hd] at key; exact OneOffer.congr key rfl rfl
        | fault f => trivial
        | refused q => trivial
      · cases h <;> simp [sinkWrite, hg]

theorem sinkWrite_one_inside (h : Nat) (k : Binding) (b : Byte) (u : BitUnit) {s : State} (ok : s.Ok) :
    (sinkWrite h h k b (s.setUnit h u)).Post (fun _ t => OneOffer s t) (OneOffer s) := by
  rw [sinkWrite_setUnit h u le_rfl]
  have key := sinkWrite_one h k b ok
  cases hd : sinkWrite h h k b s with
  | done a t => rw [hd] at key; exact OneOffer.congr key rfl rfl
  | blocked t => rw [hd] at key; exact OneOffer.congr key rfl rfl
  | fault f => trivial
  | refused q => trivial

/-- WR.BITS performs at most one sink transaction. -/
theorem wrBits_one (h V N : Nat) {s : State} (ok : s.Ok) :
    (wrBits h V N s).Post (fun _ t => OneOffer s t) (OneOffer s) :=
  wrBits_elim h V N ok (fun _ => trivial) (fun _ => OneOffer.none rfl)
    fun _ w b _ _ _ _ hrest => afterSinkWrite_one hrest (sinkWrite_one_inside h w.snk b _ ok)

/-- WR.FLUSH performs at most one sink transaction. -/
theorem wrFlush_one (h : Nat) {s : State} (ok : s.Ok) :
    (wrFlush h s).Post (fun _ t => OneOffer s t) (OneOffer s) :=
  wrFlush_elim h s (fun _ => trivial) (fun _ => OneOffer.none rfl)
    fun _ w b _ _ _ _ hrest => afterSinkWrite_one hrest (sinkWrite_one_inside h w.snk b _ ok)

/-! ## Errors come from streams -/

/-- The error `e` is among the answers that some source has given since `s`. -/
def SourceError (e : ExtErr) (s t : State) : Prop :=
  ∃ k, SrcReply.err e ∈ (t.source k).log.drop (s.source k).log.length

/-- The error `e` is among the answers that some sink has given since `s`. -/
def SinkError (e : ExtErr) (s t : State) : Prop :=
  ∃ k b, (b, SinkReply.err e) ∈ (t.sink k).log.drop (s.sink k).log.length

/-- From `s` to `t` answers and responses have been added, and every new error response is an error of a stream (`E`). -/
structure ErrorsTraced (E : ExtErr → State → State → Prop) (s t : State) : Prop where
  sources   : ∀ k, (s.source k).log <+: (t.source k).log
  sinks     : ∀ k, (s.sink k).log <+: (t.sink k).log
  responses : s.responses <+: t.responses
  traced    : ∀ (h : Nat) e d, (h, { status := .err e, data := d }) ∈ t.responses.drop s.responses.length → E e s t
  wf        : portWf Source.untouched s.sources → portWf Source.untouched t.sources

/-- The errors of sources or of sinks. -/
def StreamErrors (E : ExtErr → State → State → Prop) : Prop := E = SourceError ∨ E = SinkError

theorem mem_drop_of_prefix {α : Type} {a : α} {l m : List α} {n : Nat} (h : l <+: m) (ha : a ∈ l.drop n) :
    a ∈ m.drop n := by
  obtain ⟨c, rfl⟩ := h
  rw [List.drop_append]
  exact List.mem_append_left _ ha

theorem mem_drop_of_le {α : Type} {a : α} {l : List α} {m n : Nat} (h : m ≤ n) (ha : a ∈ l.drop n) : a ∈ l.drop m := by
  obtain ⟨c, rfl⟩ := Nat.exists_eq_add_of_le h
  rw [← List.drop_drop] at ha
  exact List.mem_of_mem_drop ha

section Traced

variable {E : ExtErr → State → State → Prop} {s t u : State}

theorem StreamErrors.earlier (hE : StreamErrors E) (h2 : ErrorsTraced E t u) {e : ExtErr} (h : E e s t) : E e s u := by
  rcases hE with rfl | rfl
  · obtain ⟨k, hk⟩ := h
    exact ⟨k, mem_drop_of_prefix (h2.sources k) hk⟩
  · obtain ⟨k, b, hk⟩ := h
    exact ⟨k, b, mem_drop_of_prefix (h2.sinks k) hk⟩

theorem StreamErrors.later (hE : StreamErrors E) (h1 : ErrorsTraced E s t) {e : ExtErr} (h : E e t u) : E e s u := by
  rcases hE with rfl | rfl
  · obtain ⟨k, hk⟩ := h
    exact ⟨k, mem_drop_of_le (h1.sources k).length_le hk⟩
  · obtain ⟨k, b, hk⟩ := h
    exact ⟨k, b, mem_drop_of_le (h1.sinks k).length_le hk⟩

theorem ErrorsTraced.refl (s : State) : ErrorsTraced E s s :=
  ⟨fun _ => List.prefix_rfl, fun _ => List.prefix_rfl, List.prefix_rfl, by simp, id⟩

theorem ErrorsTraced.trans (hE : StreamErrors E) (h1 : ErrorsTraced E s t) (h2 : ErrorsTraced E t u) :
    ErrorsTraced E s u where
  sources k := (h1.sources k).trans (h2.sources k)
  sinks k := (h1.sinks k).trans (h2.sinks k)
  responses := h1.responses.trans h2.responses
  traced h e d hm := by
    obtain ⟨l1, e1⟩ := h1.responses
    obtain ⟨l2, e2⟩ := h2.responses
    rw [← e2, ← e1, List.append_assoc, List.drop_left] at hm
    rcases List.mem_append.mp hm with hm | hm
    · exact hE.earlier h2 (h1.traced h e d (by rw [← e1, List.drop_left]; exact hm))
    · exact hE.later h1 (h2.traced h e d (by rw [← e2, List.drop_left]; exact hm))
  wf h := h2.wf (h1.wf h)

/-- Fields of the host's, and units, do not matter. -/
theorem ErrorsTraced.congr (hE : StreamErrors E) (h : ErrorsTraced E s t) {u : State} (hs : u.sources = t.sources) (hk : u.sinks = t.sinks)
    (hr : u.responses = t.responses) : ErrorsTraced E s u where
  sources k := by rw [State.source_congr hs]; exact h.sources k
  sinks k := by rw [State.sink_congr hk]; exact h.sinks k
  responses := hr ▸ h.responses
  traced j e d hm := by
    rw [hr] at hm
    have := h.traced j e d hm
    rcases hE with rfl | rfl
    · simpa only [SourceError, State.source, hs] using this
    · simpa only [SinkError, State.sink, hk] using this
  wf hw := hs ▸ h.wf hw

theorem ErrorsTraced.setUnit (hE : StreamErrors E) (h : ErrorsTraced E s t) (j : Nat) (v : BitUnit) :
    ErrorsTraced E s (t.setUnit j v) := h.congr hE rfl rfl rfl

/-- A response added is traced where its error is. -/
theorem ErrorsTraced.addResponse (hE : StreamErrors E) (h : ErrorsTraced E s t) (j : Nat) (r : Response)
    (hr : ∀ e, r.status = .err e → E e s t) : ErrorsTraced E s (t.addResponse j r) where
  sources k := h.sources k
  sinks k := h.sinks k
  responses := h.responses.trans ⟨_, rfl⟩
  traced i e d hm := by
    have same : ∀ e, E e s t → E e s (t.addResponse j r) := by
      intro e he
      rcases hE with rfl | rfl <;> exact he
    obtain ⟨l, hl⟩ := h.responses
    simp only [State.addResponse, ← hl, List.append_assoc, List.drop_left] at hm
    rcases List.mem_append.mp hm with hm | hm
    · exact same e (h.traced i e d (by rw [← hl, List.drop_left]; exact hm))
    · simp only [List.mem_singleton, Prod.mk.injEq] at hm
      exact same e (hr e (by rw [← hm.2]))
  wf hw := h.wf hw

/-- What an operation that answers `err`, or a response with an error, has been told by a stream. -/
def Ran.Traced {α : Type} (E : ExtErr → State → State → Prop) (s : State) (err : α → Option ExtErr) (m : Ran α) : Prop :=
  m.Post (fun a t => ErrorsTraced E s t ∧ ∀ e, err a = some e → E e s t) (ErrorsTraced E s)

/-- The error of a source's answer. -/
def SrcReply.error? : SrcReply → Option ExtErr
  | .byte _ => none
  | .err e => some e

/-- The error of a sink's answer. -/
def SinkReply.error? : SinkReply → Option ExtErr
  | .ok => none
  | .err e => some e

/-- The error of a status. -/
def Status.error? : Status → Option ExtErr
  | .ok => none
  | .err e => some e

/-- The error of a response. -/
def Response.error? (r : Response) : Option ExtErr := r.status.error?

theorem pullSource_traced (k : Nat) {s : State} (hw : portWf Source.untouched s.sources) :
    (pullSource k s).Traced SourceError s SrcReply.error? := by
  unfold pullSource Ran.Traced
  split
  · next a _ =>
    have hk : ((s.setSource k ((s.source k).advance a)).source k) = (s.source k).advance a :=
      State.source_setSource_same _ _ hw
    refine ⟨⟨fun j => ?_, fun j => List.prefix_rfl, List.prefix_rfl, by simp, fun h => portSet_wf _ _ _ h⟩, fun e he => ?_⟩
    · by_cases hj : j = k
      · subst hj; rw [hk]; exact ⟨[a], rfl⟩
      · rw [State.source_setSource_other _ _ hj]
    · refine ⟨k, ?_⟩
      rw [hk]
      cases a with
      | byte b => simp [SrcReply.error?] at he
      | err e' => simp only [SrcReply.error?, Option.some.injEq] at he; simp [Source.advance, he]
  · exact ErrorsTraced.refl s
  · trivial
  · trivial

theorem offerSink_traced (k : Nat) (b : Byte) {s : State} (hw : portWf Sink.untouched s.sinks) :
    (offerSink k b s).Traced SinkError s SinkReply.error? := by
  unfold offerSink Ran.Traced
  split
  · next a _ =>
    have hk : ((s.setSink k ((s.sink k).advance b a)).sink k) = (s.sink k).advance b a :=
      State.sink_setSink_same _ _ hw
    refine ⟨⟨fun j => List.prefix_rfl, fun j => ?_, List.prefix_rfl, by simp, id⟩, fun e he => ?_⟩
    · by_cases hj : j = k
      · subst hj; rw [hk]; exact ⟨[(b, a)], rfl⟩
      · rw [State.sink_setSink_other _ _ hj]
    · refine ⟨k, b, ?_⟩
      rw [hk]
      cases a with
      | ok => simp [SinkReply.error?] at he
      | err e' => simp only [SinkReply.error?, Option.some.injEq] at he; simp [Sink.advance, he]
  · exact ErrorsTraced.refl s
  · trivial

theorem respond_traced (hE : StreamErrors E) (h : ErrorsTraced E s t) (j : Nat) (st : Status) (d : Byte)
    (hst : ∀ e, st.error? = some e → E e s t) : (respond j st d t).Traced E s Response.error? := by
  have hr : ∀ e, st = .err e → E e s t := fun e he => hst e (by rw [he]; rfl)
  refine ⟨h.addResponse hE j _ hr, fun e he => ?_⟩
  have := hst e he
  rcases hE with rfl | rfl <;> exact this

theorem traced_onState {α : Type} {err : α → Option ExtErr} (hE : StreamErrors E) {h : Nat} {u : BitUnit} {m : Ran α}
    (hm : m.Traced E s err) : (m.onState (·.setUnit h u)).Traced E s err := by
  cases m with
  | done a t =>
    refine ⟨hm.1.setUnit hE h u, fun e he => ?_⟩
    have := hm.2 e he
    rcases hE with rfl | rfl <;> exact this
  | blocked t => exact ErrorsTraced.setUnit hE hm h u
  | fault f => trivial
  | refused q => trivial

theorem afterSrcRead_traced {h : Nat} {r : Reader} {need : Nat} {held : Byte} {m : Ran SrcReply}
    (hm : m.Traced SourceError s SrcReply.error?) : (afterSrcRead h r need held m).Traced SourceError s Response.error? := by
  have hE : StreamErrors SourceError := .inl rfl
  cases m with
  | done a t =>
    cases a with
    | byte b => exact respond_traced hE (hm.1.setUnit hE h _) h .ok _ (by simp [Status.error?])
    | err e =>
      refine respond_traced hE hm.1 h (.err e) _ fun e' he => ?_
      simp only [Status.error?, Option.some.injEq] at he
      exact hm.2 e' (by rw [← he]; rfl)
  | blocked t => exact ErrorsTraced.congr hE hm rfl rfl rfl
  | fault f => trivial
  | refused q => trivial

theorem srcRead_traced (h : Nat) : ∀ b {s : State}, portWf Source.untouched s.sources →
    (srcRead h h b s).Traced SourceError s SrcReply.error? := by
  induction h using Nat.strong_induction_on with
  | _ h ih =>
    intro b s hw
    cases b with
    | external k => rw [srcRead_external]; exact pullSource_traced k hw
    | adapter g =>
      by_cases hg : g < h
      · rw [srcRead_adapter hg]
        have key : (rdBits g 8 s).Traced SourceError s Response.error? := by
          refine rdBits_elim g 8 s (fun _ => trivial) (fun d u => ?_) fun r0 r need held _ _ => ?_
          · exact respond_traced (.inl rfl) ((ErrorsTraced.refl s).setUnit (.inl rfl) g u) g .ok d
              (by simp [Status.error?])
          · rw [srcRead_setUnit g _ le_rfl]
            exact afterSrcRead_traced (traced_onState (.inl rfl) (ih g hg r.src hw))
        refine Ran.post_bind key fun resp t ht => ⟨ht.1, fun e he => ht.2 e ?_⟩
        revert he
        simp only [Response.asSrcReply, Response.error?]
        cases resp.status <;> simp [SrcReply.error?, Status.error?]
      · cases h <;> simp [srcRead, hg, Ran.Traced]

/-- RD.BITS reports only errors of sources. -/
theorem rdBits_traced (h N : Nat) {s : State} (hw : portWf Source.untouched s.sources) :
    (rdBits h N s).Traced SourceError s Response.error? := by
  refine rdBits_elim h N s (fun _ => trivial) (fun d u => ?_) fun r0 r need held _ _ => ?_
  · exact respond_traced (.inl rfl) ((ErrorsTraced.refl s).setUnit (.inl rfl) h u) h .ok d
      (by simp [Status.error?])
  · rw [srcRead_setUnit h _ le_rfl]
    exact afterSrcRead_traced (traced_onState (.inl rfl) (srcRead_traced h r.src hw))

theorem afterSinkWrite_traced {h : Nat} {w : Writer} {b v : Byte} {need : Nat} {rest : State → Ran Response}
    (hrest : ∀ t : State, ∃ u : BitUnit → BitUnit, ∀ x, rest (t.setUnit h x) = respond h .ok 0x00 (t.setUnit h (u x))) {m : Ran SinkReply}
    (hm : m.Traced SinkError s SinkReply.error?) :
    (afterSinkWrite h w b v need rest m).Traced SinkError s Response.error? := by
  have hE : StreamErrors SinkError := .inr rfl
  cases m with
  | done a t =>
    cases a with
    | ok =>
      obtain ⟨u, hu⟩ := hrest t
      simp only [afterSinkWrite, hu]
      exact respond_traced hE (hm.1.setUnit hE h _) h .ok _ (by simp [Status.error?])
    | err e =>
      refine respond_traced hE (hm.1.setUnit hE h _) h (.err e) _ fun e' he => ?_
      simp only [Status.error?, Option.some.injEq] at he
      exact hm.2 e' (by rw [← he]; rfl)
  | blocked t => exact ErrorsTraced.congr hE hm rfl rfl rfl
  | fault f => trivial
  | refused q => trivial

theorem wrBits_traced_of {h : Nat} (hsnk : ∀ k b {s : State}, s.Ok → (sinkWrite h h k b s).Traced SinkError s SinkReply.error?)
    (V N : Nat) {s : State} (ok : s.Ok) : (wrBits h V N s).Traced SinkError s Response.error? := by
  refine wrBits_elim h V N ok (fun _ => trivial) (fun u => ?_) fun w0 w b v need rest _ hrest => ?_
  · exact respond_traced (.inr rfl) ((ErrorsTraced.refl s).setUnit (.inr rfl) h u) h .ok _
      (by simp [Status.error?])
  · rw [sinkWrite_setUnit h _ le_rfl]
    exact afterSinkWrite_traced hrest (traced_onState (.inr rfl) (hsnk w.snk b ok))

theorem sinkWrite_traced (h : Nat) : ∀ k b {s : State}, s.Ok → (sinkWrite h h k b s).Traced SinkError s SinkReply.error? := by
  induction h using Nat.strong_induction_on with
  | _ h ih =>
    intro k b s ok
    cases k with
    | external k => rw [sinkWrite_external]; exact offerSink_traced k b ok.2.2
    | adapter g =>
      by_cases hg : g < h
      · rw [sinkWrite_adapter hg]
        refine Ran.post_bind (wrBits_traced_of (ih g hg) b.toNat 8 ok) fun resp t ht => ⟨ht.1, fun e he => ht.2 e ?_⟩
        revert he
        simp only [Response.asSinkReply, Response.error?]
        cases resp.status <;> simp [SinkReply.error?, Status.error?]
      · cases h <;> simp [sinkWrite, hg, Ran.Traced]

/-- WR.BITS reports only errors of sinks. -/
theorem wrBits_traced (h V N : Nat) {s : State} (ok : s.Ok) : (wrBits h V N s).Traced SinkError s Response.error? :=
  wrBits_traced_of (sinkWrite_traced h) V N ok

/-- WR.FLUSH reports only errors of sinks. -/
theorem wrFlush_traced (h : Nat) {s : State} (ok : s.Ok) : (wrFlush h s).Traced SinkError s Response.error? := by
  refine wrFlush_elim h s (fun _ => trivial) (fun u => ?_) fun w0 w b v need rest _ hrest => ?_
  · exact respond_traced (.inr rfl) ((ErrorsTraced.refl s).setUnit (.inr rfl) h u) h .ok _
      (by simp [Status.error?])
  · rw [sinkWrite_setUnit h _ le_rfl]
    exact afterSinkWrite_traced hrest (traced_onState (.inr rfl) (sinkWrite_traced h w.snk b ok))

end Traced

end Sys2Proof.Machine
end

