-- ==== Sys2Proof/Tests/Slice0.lean ====
section
/-! SUPPORT. The model's own tests, each of one step at most, with results taken from the spec (the vector or example is
named), and for every statement of Obligations.lean with hypotheses a witness that meets them. A witness that shows only
hypotheses says nothing of the statement itself. -/

namespace Sys2Proof.Tests

open Sys2Proof Sys2Proof.Machine

/-! ## Small states -/

/-- Source answers that deliver bytes. -/
def gives (bytes : List Byte) : List SrcEvent := bytes.map fun b => .reply (.byte b)

/-- One reader, over a source that does `events` and is then exhausted (`95_test_vectors.md`, notation). -/
def overSource (r : Reader) (events : List SrcEvent) : State :=
  { State.reset with
    units := [.reader r]
    sources := [(0, { script := events, tail := .always (.reply (.err .exhausted)), log := [] })] }

/-- One writer, over a sink that does `events` and then accepts. -/
def overSink (w : Writer) (events : List SinkEvent) : State :=
  { State.reset with
    units := [.writer w]
    sinks := [(0, { script := events, tail := .always (.reply .ok), log := [] })] }

/-- A reader in the state (0, -). -/
def r0 : Reader := Reader.fresh (.external 0)
/-- A reader in the state (5, 01010), after RD.BITS 3 on 0x2A. -/
def r5 : Reader := { r0 with acc := 0x0A, count := 5, delivered := [0x2A] }
/-- A reader in the state (8, 00101010), after RD.BITS 0 on 0x2A. -/
def r8 : Reader := { r0 with acc := 0x2A, count := 8, delivered := [0x2A] }
/-- A reader in the state (1, 1). -/
def r1 : Reader := { r0 with acc := 0x01, count := 1, delivered := [0x01] }
/-- A reader in the state (4, 1011), after RD.BITS 4 on 0xAB. -/
def r4 : Reader := { r0 with acc := 0x0B, count := 4, delivered := [0xAB] }
/-- A reader that waits for its source (R93). -/
def rWaits : Reader := { r0 with micro := .waitSrc 8 0x00 }

/-- A writer in the state (0, -). -/
def w0 : Writer := Writer.fresh (.external 0)
/-- A writer in the state (6, 110011). -/
def w6 : Writer := { w0 with acc := 0x33, filled := 6 }
/-- A writer in the state (7, 1010101). -/
def w7 : Writer := { w0 with acc := 0x55, filled := 7 }
/-- A writer in the state (5, 10000). -/
def w5 : Writer := { w0 with acc := 0x10, filled := 5 }
/-- A writer in the state (3, 101). -/
def w3 : Writer := { w0 with acc := 0x05, filled := 3 }
/-- A writer that waits for its sink (R97). -/
def wWaits : Writer := { w5 with micro := .waitSnk 0x00 0 }

/-- What a test looks at: the value returned, and the count and accumulator of the reader at handle 0. -/
def readerSeen : Host.Outcome State Fault Refusal → Option (Option Returned × Nat × Byte)
  | .next t => some (t.returned, (t.readerAt 0).count, (t.readerAt 0).acc)
  | .fault _ => none
  | .refused _ => none

/-- What a test looks at: the value returned, the fill and accumulator of the writer at handle 0, and the offers to
sink 0 with its answers. -/
def writerSeen : Host.Outcome State Fault Refusal → Option (Option Returned × Nat × Byte × List (Byte × SinkReply))
  | .next t => some (t.returned, (t.writerAt 0).filled, (t.writerAt 0).acc, (t.sink 0).log)
  | .fault _ => none
  | .refused _ => none

/-- The state after a step that gives one. -/
def after : Host.Outcome State Fault Refusal → State
  | .next t => t
  | .fault _ => State.reset
  | .refused _ => State.reset

/-- The state after an operation that is done. -/
def doneState {α : Type} : Ran α → State
  | .done _ t => t
  | .blocked _ => State.reset
  | .fault _ => State.reset
  | .refused _ => State.reset

def okResponse (d : Byte) : Returned := .response { status := .ok, data := d }
def errResponse (e : ExtErr) : Returned := .response { status := .err e, data := 0x00 }

/-! ## WellFormed (`30_encoding.md` R65, R66): each check refuses an ill-formed instruction and accepts the largest -/

theorem test_rdBits_width_must_fit : (Instr.rdBits 256).wellFormed = false ∧ (Instr.rdBits 255).wellFormed = true := by
  decide
theorem test_wrBits_value_must_fit :
    (Instr.wrBits 256 8).wellFormed = false ∧ (Instr.wrBits 255 8).wellFormed = true := by decide
theorem test_wrBits_width_must_fit :
    (Instr.wrBits 0 256).wellFormed = false ∧ (Instr.wrBits 0 255).wellFormed = true := by decide
theorem test_wrBit_operand_is_a_bit : (Instr.wrBit 2).wellFormed = false ∧ (Instr.wrBit 1).wellFormed = true := by
  decide

/-! ## Decoding, words written out field by field from R56, R57, R66: OPC, RSV, N, V -/

theorem test_decode_rdBits : decode (0x01#8 ++ 0x00#8 ++ 0b00101010#8 ++ 0x00#8) = .command (.rdBits 42) := by decide
theorem test_decode_rdCount : decode (0x02#8 ++ 0x00#8 ++ 0x00#8 ++ 0x00#8) = .command .rdCount := by decide
theorem test_decode_wrBits :
    decode (0x81#8 ++ 0x00#8 ++ 0b00000110#8 ++ 0b00110011#8) = .command (.wrBits 0b110011 6) := by decide
theorem test_decode_wrFlush : decode (0x82#8 ++ 0x00#8 ++ 0x00#8 ++ 0x00#8) = .command .wrFlush := by decide
theorem test_decode_wrCount : decode (0x83#8 ++ 0x00#8 ++ 0x00#8 ++ 0x00#8) = .command .wrCount := by decide
theorem test_decode_rdBit_rdBool :
    encode .rdBit = some (0x01#8 ++ 0x00#8 ++ 0x01#8 ++ 0x00#8) ∧
    encode .rdBool = some (0x01#8 ++ 0x00#8 ++ 0x01#8 ++ 0x00#8) ∧
    decode (0x01#8 ++ 0x00#8 ++ 0x01#8 ++ 0x00#8) = .command (.rdBits 1) := by decide
theorem test_decode_wrBit_wrBool :
    encode (.wrBit 1) = some (0x81#8 ++ 0x00#8 ++ 0x01#8 ++ 0x01#8) ∧
    encode (.wrBool false) = some (0x81#8 ++ 0x00#8 ++ 0x01#8 ++ 0x00#8) ∧
    decode (0x81#8 ++ 0x00#8 ++ 0x01#8 ++ 0x01#8) = .command (.wrBits 1 1) ∧
    decode (0x81#8 ++ 0x00#8 ++ 0x01#8 ++ 0x00#8) = .command (.wrBits 0 1) := by decide
theorem test_calls_have_no_word :
    encode (.wrapReader (.external 0)) = none ∧ encode (.readBoolSequence 0 1) = none ∧
    encode (.readByteStream 0 0) = none ∧ encode (.readBitSequenceInto 0 0 1) = none ∧
    encode (.wrapWriter (.external 0)) = none ∧ encode (.writeByteStream 0 0) = none ∧
    encode (.writeBitSequenceFrom 0 0 1) = none ∧ encode (.writeBoolSequence 0 0) = none := by decide
theorem test_decodeTableWord_reads_one_word :
    decodeTableWord 32 0x8100060F = some (.wrBits 0b001111 6) ∧ decodeTableWord 32 0x82000100 = none ∧
    decodeTableWord 16 0x0100 = none := by decide

/-! ## The assembler (R65): decimal, hexadecimal and binary numbers, and lines it refuses -/

theorem test_assemble_binary :
    assembleLine "w0: WR.BITS 0b110011, 6".toList = some ("w0".toList, .wrBits 0x33 6) := by decide
theorem test_assemble_hexadecimal : assembleLine "r0: RD.BITS 0x2A".toList = some ("r0".toList, .rdBits 42) := by decide
theorem test_assemble_no_operands : assembleLine "w0: WR.FLUSH".toList = some ("w0".toList, .wrFlush) := by decide
theorem test_assemble_boolean : assembleLine "w0: WR.BOOL true".toList = some ("w0".toList, .wrBool true) := by decide
theorem test_assembler_refuses :
    assembleLine "r0: RD.BITS 256".toList = none ∧ assembleLine "w0: WR.BIT 2".toList = none ∧
    assembleLine "w0: WR.BITS 6".toList = none := by decide

/-- R65's own examples, and a command addressed by name. -/
theorem test_assemble_calls :
    assembleOp [("src0".toList, .stream 4)] "r0 = wrap_reader(src0)".toList =
      some (some "r0".toList, .line 0 (.wrapReader (.external 4))) ∧
    assembleOp [("r0".toList, .unit 2)] "readBoolSequence(r0, 16)".toList =
      some (none, .line 0 (.readBoolSequence 2 16)) ∧
    assembleOp [("r0".toList, .unit 2)] "r0: RD.BITS 3".toList = some (none, .line 2 (.rdBits 3)) ∧
    assembleOp [("buf".toList, .buffer 0)] "readByteStream(buf, buf)".toList = none := by decide

/-! ## The step -/

/-- A word placed from reset is the first instruction run: R-1's word, over a source of zeros (log 24). -/
theorem test_withFetchWord_runs_the_word :
    readerSeen (step (State.reset.withFetchWord 32 0x01000300)) = some (some (okResponse 0x00), 5, 0x00) := by decide
/-- W-1's word from reset. -/
theorem test_withFetchWord_runs_a_writer_word :
    writerSeen (step (State.reset.withFetchWord 32 0x81000633)) = some (some (okResponse 0x00), 6, 0x33, []) := by decide
/-- P6: the refused word gets no step. -/
theorem test_refused_word_stops :
    step { overSink w6 [] with queue := [.word 0 0x00000000] } = .refused (.undecodable .unknownOpcode) := rfl

/-! ## RD.BITS, RD.BIT, RD.BOOL, RD.COUNT (`95_test_vectors.md` 2.1) -/

/-- R-6: straddle, 01010 then 110 from 0xC3. -/
theorem test_rdBits_straddles :
    readerSeen (exec (.rdBits 8) (overSource r5 (gives [0xC3]))) = some (some (okResponse 0x56), 5, 0x03) := by decide
/-- R-3: width 0 on EMPTY refills. -/
theorem test_rdBits_zero_refills :
    readerSeen (exec (.rdBits 0) (overSource r0 (gives [0x2A]))) = some (some (okResponse 0x00), 8, 0x2A) := by decide
/-- R-14. -/
theorem test_rdBit_takes_the_last_bit :
    readerSeen (exec .rdBit (overSource r1 [])) = some (some (okResponse 0x01), 0, 0x00) := by decide
/-- R-15. -/
theorem test_rdBit_fails_when_exhausted :
    readerSeen (exec .rdBit (overSource r0 [])) = some (some (errResponse .exhausted), 0, 0x00) := by decide
/-- R-16, the first of the eight. -/
theorem test_rdBool_is_true :
    readerSeen (exec .rdBool (overSource r0 (gives [0xAA]))) = some (some (.boolean true .ok), 7, 0x2A) := by decide
/-- R73: an error is read as false alongside the error. -/
theorem test_rdBool_error_is_false :
    readerSeen (exec .rdBool (overSource r0 [.reply (.err .ioFailure)])) =
      some (some (.boolean false (.err .ioFailure)), 0, 0x00) := by decide
/-- R-18. -/
theorem test_rdCount_of_eight :
    readerSeen (exec .rdCount (overSource r8 [])) = some (some (okResponse 0x08), 8, 0x2A) := by decide
/-- R-21. -/
theorem test_flush_sent_to_a_reader_is_refused : exec .wrFlush (overSource r5 []) = .refused (.wrongKind 0) := rfl

/-! ## The reader's calls (`95_test_vectors.md` 2.2) -/

/-- RP-1, the elements read. -/
theorem test_readBoolSequence_stops_when_exhausted :
    ((after (exec (.readBoolSequence 0 17) (overSource r0 (gives [0xAA, 0xFF])))).boolSeq 0).take 16 =
      [true, false, true, false, true, false, true, false, true, true, true, true, true, true, true, true] := by decide
/-- RP-1, the result. -/
theorem test_readBoolSequence_reports_the_error :
    readerSeen (exec (.readBoolSequence 0 17) (overSource r0 (gives [0xAA, 0xFF]))) =
      some (some (.sequence 0 (.err .exhausted)), 0, 0x00) := by decide
/-- RP-3. -/
theorem test_readByteStream_counts_what_it_filled :
    readerSeen (exec (.readByteStream 0 0) { overSource r0 (gives [0x12, 0x34]) with buffers := [[0, 0, 0]] }) =
      some (some (.count 2 (.err .exhausted)), 0, 0x00) := by decide
/-- RP-4, its second command: the buffer is the stream shifted by 4 bits. -/
theorem test_readByteStream_is_shifted :
    (after (exec (.readByteStream 0 0) { overSource r4 (gives [0xCD, 0xEF]) with buffers := [[0, 0]] })).buffers =
      [[0xBC, 0xDE]] := by decide
/-- RP-5. -/
theorem test_readBitSequenceInto_right_aligns_the_rest :
    (after (exec (.readBitSequenceInto 0 0 12) { overSource r0 (gives [0xAB, 0xCD]) with buffers := [[0, 0]] })).buffers =
      [[0xAB, 0x0C]] := by decide
/-- RP-6: clamped to 16 bits, and no RD.BITS 0. -/
theorem test_readBitSequenceInto_clamps :
    readerSeen (exec (.readBitSequenceInto 0 0 100) { overSource r0 (gives [0xAB, 0xCD]) with buffers := [[0, 0]] }) =
      some (some (.count 2 .ok), 0, 0x00) := by decide
/-- C-2. -/
theorem test_wrapReader_returns_an_existing_reader :
    exec (.wrapReader (.unit 0)) (overSource r5 []) =
      .next { overSource r5 [] with returned := some (.handle 0) } := rfl
/-- C-5. -/
theorem test_wrapReader_of_a_writer_is_refused :
    exec (.wrapReader (.unit 0)) (overSink w0 []) = .refused (.wrapKind 0) := rfl

/-! ## WR.BITS, WR.FLUSH, WR.BIT, WR.BOOL, WR.COUNT (`95_test_vectors.md` 2.3) -/

/-- W-3: straddle. -/
theorem test_wrBits_straddles :
    writerSeen (exec (.wrBits 0b001111 6) (overSink w6 [])) =
      some (some (okResponse 0x00), 4, 0x0F, [(0xCC, .ok)]) := by decide
/-- W-4: straddle fails, and the writer is reset. -/
theorem test_wrBits_resets_on_error :
    writerSeen (exec (.wrBits 0b001111 6) (overSink w6 [.reply (.err .ioFailure)])) =
      some (some (errResponse .ioFailure), 0, 0x00, [(0xCC, .err .ioFailure)]) := by decide
/-- W-12. -/
theorem test_wrFlush_pads_low_bits :
    writerSeen (exec .wrFlush (overSink w5 [])) = some (some (okResponse 0x00), 0, 0x00, [(0x80, .ok)]) := by decide
/-- W-11. -/
theorem test_wrFlush_of_an_empty_writer_emits_nothing :
    writerSeen (exec .wrFlush (overSink w0 [])) = some (some (okResponse 0x00), 0, 0x00, []) := by decide
/-- W-16. -/
theorem test_wrBit_eighth_bit_can_fail :
    writerSeen (exec (.wrBit 1) (overSink w7 [.reply (.err .ioFailure)])) =
      some (some (errResponse .ioFailure), 0, 0x00, [(0xAB, .err .ioFailure)]) := by decide
/-- W-17. -/
theorem test_wrBool_writes_a_one :
    writerSeen (exec (.wrBool true) (overSink w0 [])) = some (some (okResponse 0x00), 1, 0x01, []) := by decide
/-- W-18. -/
theorem test_wrCount_of_six :
    writerSeen (exec .wrCount (overSink w6 [])) = some (some (okResponse 0x06), 6, 0x33, []) := by decide
/-- W-20. -/
theorem test_read_sent_to_a_writer_is_refused : exec (.rdBits 1) (overSink w0 []) = .refused (.wrongKind 0) := rfl

/-! ## The writer's calls (`95_test_vectors.md` 2.4, 2.5) -/

/-- WP-3. -/
theorem test_writeByteStream_straddles :
    writerSeen (exec (.writeByteStream 0 0) { overSink w3 [] with buffers := [[0x12, 0x34]] }) =
      some (some (.count 2 .ok), 3, 0x04, [(0xA2, .ok), (0x46, .ok)]) := by decide
/-- WP-2. -/
theorem test_writeByteStream_stops_at_the_error :
    writerSeen (exec (.writeByteStream 0 0)
        { overSink w0 [.reply .ok, .reply (.err .ioFailure)] with buffers := [[0x12, 0x34]] }) =
      some (some (.count 1 (.err .ioFailure)), 0, 0x00, [(0x12, .ok), (0x34, .err .ioFailure)]) := by decide
/-- WP-4. -/
theorem test_writeBitSequenceFrom_takes_low_bits :
    writerSeen (exec (.writeBitSequenceFrom 0 0 12) { overSink w0 [] with buffers := [[0xAB, 0x0C]] }) =
      some (some (.count 2 .ok), 4, 0x0C, [(0xAB, .ok)]) := by decide
/-- WP-5. -/
theorem test_writeBitSequenceFrom_clamps :
    writerSeen (exec (.writeBitSequenceFrom 0 0 100) { overSink w0 [] with buffers := [[0xAB, 0xCD]] }) =
      some (some (.count 2 .ok), 0, 0x00, [(0xAB, .ok), (0xCD, .ok)]) := by decide
/-- WP-7. -/
theorem test_writeBoolSequence_emits_each_eighth :
    writerSeen (exec (.writeBoolSequence 0 0)
        { overSink w0 [] with
          boolSeqs := [[true, false, true, false, true, false, true, false,
            true, true, true, true, true, true, true, true]] }) =
      some (some (.status .ok), 0, 0x00, [(0xAA, .ok), (0xFF, .ok)]) := by decide
/-- C-3. -/
theorem test_wrapWriter_makes_an_empty_writer :
    exec (.wrapWriter (.external 4)) State.reset =
      .next { State.reset with units := [.writer (Writer.fresh (.external 4))], returned := some (.handle 0) } := rfl

/-! ## Witnesses: states and operands that meet a statement's hypotheses, each clause at a boundary -/

theorem witness_DecodeInvertsEncode :
    (Instr.wrBits 255 255).wellFormed = true ∧ (Instr.wrBits 255 255).canonical = .wrBits 255 255 ∧
    encode (.wrBits 255 255) = some 0x8100FFFF := by decide

/-- One word for each of the four reasons, at the least and the greatest offending field. -/
theorem witness_RefusedWordsGetNoStep :
    decode 0x01010000 = .refused .reservedField ∧ decode 0x01FF0000 = .refused .reservedField ∧
    decode 0x00000000 = .refused .unknownOpcode ∧ decode 0x84000000 = .refused .unknownOpcode ∧
    decode 0x01000001 = .refused .nonzeroValue ∧ decode 0x83000001 = .refused .nonzeroValue ∧
    decode 0x02000100 = .refused .nonzeroWidth ∧ decode 0x82000100 = .refused .nonzeroWidth := by decide

theorem witness_RefusedWordsGetNoStep_wrong_kind :
    decode 0x82000000 = .command .wrFlush ∧ (overSource r0 []).units[0]? = some (.reader r0) ∧
    (BitUnit.reader r0).kind ≠ kindOfWord 0x82000000 ∧
    decode 0x01000100 = .command (.rdBits 1) ∧ (overSink w0 []).units[0]? = some (.writer w0) ∧
    (BitUnit.writer w0).kind ≠ kindOfWord 0x01000100 := by decide

theorem witness_AliasesAreTheirCanonicalCommands :
    (Instr.wrBit 1).wellFormed = true ∧ encode (.wrBit 1) = some 0x81000101 := by decide

theorem witness_WidthsClampAndValuesMask : 8 ≤ 8 ∧ 0xFF % 2 ^ min 3 8 = 0x07 % 2 ^ min 3 8 := by decide

theorem witness_ResponseWordFields :
    (0 : Nat) < 253 ∧ (252 : Nat) < 253 ∧ errCode 252 = errCode 252 := ⟨by decide, by decide, rfl⟩

theorem witness_StepRunsDecodedInstruction :
    decode 0x01000300 = .command (.rdBits 3) ∧
    ({ overSource r0 [] with queue := [.word 0 0x01000300] } : State).queue = [.word 0 0x01000300] ∧
    (Instr.wrBit 1).wellFormed = true ∧ (Instr.wrBit 2).wellFormed = false := by decide

theorem witness_AssembledLineRunsAsItsWord :
    (Instr.rdBits 255).wellFormed = true ∧ encode (.rdBits 255) = some 0x0100FF00 ∧ Instr.rdBits 255 ≠ .rdBool := by
  decide

theorem witness_IdleMachineStays : State.reset.queue = [] := rfl

/-- A command that responds, and one that waits for ever. -/
theorem witness_OneResponsePerCommand :
    (encode (.rdBits 8)).isSome = true ∧
    exec (.rdBits 8) (overSource r0 (gives [0xFF])) = .next (after (exec (.rdBits 8) (overSource r0 (gives [0xFF])))) ∧
    exec (.rdBits 8) (overSource r0 [.never]) = .next (after (exec (.rdBits 8) (overSource r0 [.never]))) :=
  ⟨rfl, rfl, rfl⟩

/-- A reader inside a command beside one that answers, and beside one that then waits for the same silent source. -/
def besideStuck (r : Reader) : State :=
  { overSource r0 [.never] with
    units := [.reader { r0 with micro := .waitSrc 8 0x00 }, .reader r], target := 1, queue := [.word 1 0x01000100] }

theorem witness_InstancesInsideACommandStayThere :
    (besideStuck r8).insideCommand 0 = true ∧
    exec (.rdBits 1) (besideStuck r8) = .next (after (exec (.rdBits 1) (besideStuck r8))) ∧
    (after (exec (.rdBits 1) (besideStuck r8))).responsesOf 1 ≠ [] ∧
    step (besideStuck r0) = .next (after (step (besideStuck r0))) ∧
    (after (step (besideStuck r0))).insideCommand 1 = true := ⟨rfl, rfl, by decide, rfl, rfl⟩

/-- RD.BITS with and without an error. -/
theorem witness_ResponseDataByCommand_rdBits :
    exec (.rdBits 8) (overSource r0 (gives [0xFF])) = .next (after (exec (.rdBits 8) (overSource r0 (gives [0xFF])))) ∧
    (after (exec (.rdBits 8) (overSource r0 (gives [0xFF])))).returned = some (okResponse 0xFF) ∧
    exec (.rdBits 8) (overSource r5 []) = .next (after (exec (.rdBits 8) (overSource r5 []))) ∧
    (after (exec (.rdBits 8) (overSource r5 []))).returned = some (errResponse .exhausted) := ⟨rfl, rfl, rfl, rfl⟩

theorem witness_ResponseDataByCommand_others :
    exec .rdCount (overSource r8 []) = .next (after (exec .rdCount (overSource r8 []))) ∧
    (after (exec .rdCount (overSource r8 []))).returned = some (okResponse 0x08) ∧
    exec (.wrBits 255 8) (overSink w6 []) = .next (after (exec (.wrBits 255 8) (overSink w6 []))) ∧
    (after (exec (.wrBits 255 8) (overSink w6 []))).returned = some (okResponse 0x00) ∧
    exec .wrFlush (overSink w5 []) = .next (after (exec .wrFlush (overSink w5 []))) ∧
    (after (exec .wrFlush (overSink w5 []))).returned = some (okResponse 0x00) ∧
    exec .wrCount (overSink w7 []) = .next (after (exec .wrCount (overSink w7 []))) ∧
    (after (exec .wrCount (overSink w7 []))).returned = some (okResponse 0x07) :=
  ⟨rfl, rfl, rfl, rfl, rfl, rfl, rfl, rfl⟩

theorem witness_AtMostOneTransactionPerCommand :
    (overSource r5 (gives [0xC3])).Ok ∧ (encode (.rdBits 8)).isSome = true ∧
    exec (.rdBits 8) (overSource r5 (gives [0xC3])) = .next (after (exec (.rdBits 8) (overSource r5 (gives [0xC3])))) ∧
    (overSink w6 []).Ok ∧ (encode (.wrBits 15 6)).isSome = true ∧
    exec (.wrBits 15 6) (overSink w6 []) = .next (after (exec (.wrBits 15 6) (overSink w6 []))) :=
  ⟨by decide, rfl, rfl, by decide, rfl, rfl⟩

theorem witness_ExternalTransactions :
    ((overSource r0 (gives [0x2A])).source 0).next 0 = .reply (.byte 0x2A) ∧
    ((overSource r0 []).source 0).next 0 = .reply (.err .exhausted) ∧
    ((overSource r0 [.never]).source 0).next 0 = .never ∧
    ((overSource r0 [.zeroBytes]).source 0).next 0 = .zeroBytes ∧
    ((overSource r0 [.byteWithError 0x2A .ioFailure]).source 0).next 0 = .byteWithError 0x2A .ioFailure ∧
    ((overSink w0 []).sink 0).next 0 = .reply .ok ∧ ((overSink w0 [.never]).sink 0).next 0 = .never ∧
    ((overSink w0 [.partialWrite]).sink 0).next 0 = .partialWrite := by decide

theorem witness_AdapterTransactions :
    rdBits 0 8 (overSource r4 (gives [0xCD])) =
      .done { status := .ok, data := 0xBC } (doneState (rdBits 0 8 (overSource r4 (gives [0xCD])))) ∧
    rdBits 0 8 (overSource r0 [.never]) =
      .blocked { overSource r0 [.never] with units := [.reader { r0 with micro := .waitSrc 8 0x00 }] } ∧
    wrBits 0 0xA5 8 (overSink w3 []) =
      .done { status := .ok, data := 0x00 } (doneState (wrBits 0 0xA5 8 (overSink w3 []))) ∧
    wrBits 0 0xA5 8 (overSink w0 [.never]) =
      .blocked { overSink w0 [.never] with
        units := [.writer { w0 with acc := 0xA5, filled := 8, micro := .waitSnk 0xA5 0 }] } := by decide

theorem witness_WrapReader_WrapWriter :
    (overSource r5 []).units[0]? = some (.reader r5) ∧ (overSink w6 []).units[0]? = some (.writer w6) := by decide

/-! Every row of R92 and R96 has an operand at the edge of its range. -/

theorem witness_ReaderTransitions_empty :
    (overSource r0 (gives [0x2A])).units[0]? = some (.reader r0) ∧ r0.micro = .idle ∧ r0.Ok ∧ r0.count = 0 ∧
    srcRead 0 0 r0.src (overSource r0 (gives [0x2A])) =
      .done (.byte 0x2A) (doneState (srcRead 0 0 r0.src (overSource r0 (gives [0x2A])))) ∧
    srcRead 0 0 r0.src (overSource r0 []) =
      .done (.err .exhausted) (doneState (srcRead 0 0 r0.src (overSource r0 []))) := by decide

/-- Width 0, and all the bits held; one bit more than held, and eight. -/
theorem witness_ReaderTransitions_holding :
    (overSource r5 []).units[0]? = some (.reader r5) ∧ r5.micro = .idle ∧ r5.Ok ∧ 1 ≤ r5.count ∧
    min 0 8 ≤ r5.count ∧ min 5 8 ≤ r5.count ∧ r5.count < min 6 8 ∧ r5.count < min 255 8 ∧
    srcRead 0 0 r5.src ((overSource r5 (gives [0xC3])).setUnit 0 (.reader { r5 with acc := 0x00, count := 0 })) =
      .done (.byte 0xC3) (doneState (srcRead 0 0 r5.src
        ((overSource r5 (gives [0xC3])).setUnit 0 (.reader { r5 with acc := 0x00, count := 0 })))) ∧
    srcRead 0 0 r5.src ((overSource r5 []).setUnit 0 (.reader { r5 with acc := 0x00, count := 0 })) =
      .done (.err .exhausted) (doneState (srcRead 0 0 r5.src
        ((overSource r5 []).setUnit 0 (.reader { r5 with acc := 0x00, count := 0 })))) := by decide

theorem witness_ReadBitAndReadBool :
    r1.Ok ∧ 1 ≤ r1.count ∧ (overSource r1 []).units[0]? = some (.reader r1) ∧ r1.micro = .idle ∧ r8.Ok ∧ r8.count = 8 ∧
    r0.Ok ∧ r0.count = 0 ∧ (overSource r0 []).units[0]? = some (.reader r0) ∧ r0.micro = .idle := by decide

/-- A success, a failure at the first refill and one at the continuation. -/
theorem witness_ReaderStreamCorrectness :
    (overSource r5 (gives [0xC3])).units[0]? = some (.reader r5) ∧ r5.Ok ∧
    exec (.rdBits 8) (overSource r5 (gives [0xC3])) = .next (after (exec (.rdBits 8) (overSource r5 (gives [0xC3])))) ∧
    (after (exec (.rdBits 8) (overSource r5 (gives [0xC3])))).returned = some (okResponse 0x56) ∧ r0.Ok ∧
    exec (.rdBits 0) (overSource r0 []) = .next (after (exec (.rdBits 0) (overSource r0 []))) ∧
    (after (exec (.rdBits 0) (overSource r0 []))).returned = some (errResponse .exhausted) ∧
    exec (.rdBits 6) (overSource r5 []) = .next (after (exec (.rdBits 6) (overSource r5 []))) ∧
    (after (exec (.rdBits 6) (overSource r5 []))).returned = some (errResponse .exhausted) :=
  ⟨rfl, by decide, rfl, rfl, by decide, rfl, rfl, rfl, rfl⟩

theorem witness_SilentSourceBlocksReader :
    (overSource r5 [.never]).units[0]? = some (.reader r5) ∧ r5.micro = .idle ∧ r5.Ok ∧ r5.src = .external 0 ∧
    ((overSource r5 [.never]).source 0).next 0 = .never ∧ r5.count < min 6 8 ∧
    (overSource r0 [.never]).units[0]? = some (.reader r0) ∧ r0.micro = .idle ∧ r0.Ok ∧ r0.src = .external 0 ∧
    ((overSource r0 [.never]).source 0).next 0 = .never ∧ r0.count = 0 := by decide

theorem witness_ReaderHandshakeRunsRdBits :
    (overSource r5 (gives [0xC3])).units[0]? = some (.reader r5) ∧ r5.micro = .idle ∧ r5.count ≤ 8 ∧
    portWf Source.untouched (overSource r5 (gives [0xC3])).sources ∧
    exec (.rdBits 8) (overSource r5 (gives [0xC3])) = .next (after (exec (.rdBits 8) (overSource r5 (gives [0xC3])))) ∧
    exec (.rdBits 8) (overSource r5 [.never]) = .next (after (exec (.rdBits 8) (overSource r5 [.never]))) :=
  ⟨rfl, rfl, by decide, by decide, rfl, rfl⟩

/-- P3. -/
theorem witness_ExactlyTheBitsOfTheSource :
    (overSource r0 (gives [0xDE, 0xAD])).units[0]? = some (.reader r0) ∧ r0.micro = .idle ∧ r0.acc = 0x00 ∧
    r0.count = 0 ∧ r0.src = .external 0 ∧ portWf Source.untouched (overSource r0 (gives [0xDE, 0xAD])).sources ∧
    ((overSource r0 (gives [0xDE, 0xAD])).source 0).script = gives [0xDE, 0xAD] ∧
    ((overSource r0 (gives [0xDE, 0xAD])).source 0).tail = .always (.reply (.err .exhausted)) ∧
    (∀ n ∈ [5, 5, 6], 1 ≤ n ∧ n ≤ 8) ∧ [5, 5, 6].sum = 8 * [0xDE, 0xAD].length ∧
    ({ overSource r0 (gives [0xDE, 0xAD]) with
      queue := readWords 0 [5, 5, 6] ++ [.word 0 0x01000100] } : State).queue =
      readWords 0 [5, 5, 6] ++ [.word 0 0x01000100] := by decide

/-- RP-1, RP-3 and RP-5's states, in each of which the operation can succeed or fail with the operand given. -/
theorem witness_ReadBoolSequence_ReadByteStream_ReadBitSequenceInto :
    (overSource r0 (gives [0xAA, 0xFF])).Fair ∧ (overSource r0 (gives [0xAA, 0xFF])).units[0]? = some (.reader r0) ∧
    readerSeen (exec (.readBoolSequence 0 16) (overSource r0 (gives [0xAA, 0xFF]))) =
      some (some (.sequence 0 .ok), 0, 0x00) ∧
    ({ overSource r5 (gives [0x12]) with buffers := [[0, 0]] } : State).Fair ∧
    readerSeen (exec (.readByteStream 0 0) { overSource r5 (gives [0x12]) with buffers := [[0, 0]] }) =
      some (some (.count 1 (.err .exhausted)), 0, 0x00) ∧
    readerSeen (exec (.readBitSequenceInto 0 0 13) { overSource r5 (gives [0x12]) with buffers := [[0, 0]] }) =
      some (some (.count 2 .ok), 0, 0x00) ∧
    readerSeen (exec (.readBitSequenceInto 0 0 14) { overSource r5 (gives [0x12]) with buffers := [[0, 0]] }) =
      some (some (.count 1 (.err .exhausted)), 0, 0x00) := by decide

/-- Exactly the bits held and delivered: 5 + 8. -/
theorem witness_EnoughInputLetsReadsSucceed :
    (overSource r5 (gives [0x12])).units[0]? = some (.reader r5) ∧ r5.micro = .idle ∧ r5.Ok ∧ r5.src = .external 0 ∧
    portWf Source.untouched (overSource r5 (gives [0x12])).sources ∧
    ((overSource r5 (gives [0x12])).source 0).script = [(0x12 : Byte)].map (fun v => .reply (.byte v)) ++ [] ∧
    13 ≤ r5.count + 8 * [(0x12 : Byte)].length ∧
    8 * (({ overSource r5 [] with buffers := [[0]] } : State).buffer 0).length ≤ r5.count + 8 * 1 ∧
    min 13 (8 * (({ overSource r5 [] with buffers := [[0, 0]] } : State).buffer 0).length) ≤ r5.count + 8 * 1 := by decide

theorem witness_WriterTransitions :
    (overSink w6 []).units[0]? = some (.writer w6) ∧ w6.micro = .idle ∧ w6.Ok ∧
    w6.filled + min 1 8 < 8 ∧ w6.filled + min 2 8 = 8 ∧ 8 < w6.filled + min 3 8 ∧ 8 < w6.filled + min 255 8 ∧
    1 ≤ w6.filled ∧ (overSink w0 []).units[0]? = some (.writer w0) ∧ w0.micro = .idle ∧ w0.Ok ∧ w0.filled = 0 ∧
    w7.Ok ∧ 8 < w7.filled + min 8 8 := by decide

/-- The sink's two answers to a byte completed, and to a flush. -/
theorem witness_WriterTransitions_answers :
    let full : Writer := { w6 with acc := 0xCE, filled := 8 }
    sinkWrite 0 0 w6.snk 0xCE ((overSink w6 []).setUnit 0 (.writer full)) =
      .done .ok (doneState (sinkWrite 0 0 w6.snk 0xCE ((overSink w6 []).setUnit 0 (.writer full)))) ∧
    sinkWrite 0 0 w6.snk 0xCE ((overSink w6 [.reply (.err .ioFailure)]).setUnit 0 (.writer full)) =
      .done (.err .ioFailure)
        (doneState (sinkWrite 0 0 w6.snk 0xCE ((overSink w6 [.reply (.err .ioFailure)]).setUnit 0 (.writer full)))) ∧
    sinkWrite 0 0 w6.snk 0xCC (overSink w6 []) =
      .done .ok (doneState (sinkWrite 0 0 w6.snk 0xCC (overSink w6 []))) ∧
    sinkWrite 0 0 w6.snk 0xCC (overSink w6 [.reply (.err .ioFailure)]) =
      .done (.err .ioFailure) (doneState (sinkWrite 0 0 w6.snk 0xCC (overSink w6 [.reply (.err .ioFailure)]))) := by decide

theorem witness_WriteBitAndWriteBool :
    (overSink w6 []).units[0]? = some (.writer w6) ∧ w6.micro = .idle ∧ w6.Ok ∧ w6.filled < 7 ∧
    (overSink w7 []).units[0]? = some (.writer w7) ∧ w7.micro = .idle ∧ w7.Ok ∧ w7.filled = 7 := by decide

/-- P1's groups, and its flush. -/
def groupsP1 : List (Nat × Nat) := [(0b110011, 6), (0b001111, 6), (0b1, 1), (0b11110000, 8)]

/-- P1 before its first command. -/
def startP1 : State := { overSink w0 [] with queue := writeWords 0 groupsP1 ++ [.word 0 0x82000000] }

/-- P1's sink has accepted 0xCC and 0xFF after the four groups, and the writer holds 10000 (`95_test_vectors.md` P1). -/
theorem witness_WriterStreamCorrectness :
    startP1.units[0]? = some (.writer w0) ∧ w0.micro = .idle ∧ w0.acc = 0x00 ∧ w0.filled = 0 ∧
    (∀ g ∈ groupsP1, g.1 < 256 ∧ g.2 < 256) ∧
    Host.Core.run Sys2Proof.core 4 startP1 = .next (after (Host.Core.run Sys2Proof.core 4 startP1)) ∧
    (after (Host.Core.run Sys2Proof.core 4 startP1)).units =
      [.writer { w0 with acc := 0x10, filled := 5, accepted := [0xCC, 0xFF] }] ∧
    (after (Host.Core.run Sys2Proof.core 4 startP1)).responsesOf 0 = List.replicate 4 { status := .ok, data := 0x00 } ∧
    (after (exec .wrFlush (after (Host.Core.run Sys2Proof.core 4 startP1)))).returned = some (okResponse 0x00) :=
  ⟨rfl, rfl, rfl, rfl, by decide, rfl, rfl, rfl, rfl⟩

theorem witness_SilentSinkBlocksWriter :
    (overSink w6 [.never]).units[0]? = some (.writer w6) ∧ w6.micro = .idle ∧ w6.Ok ∧ w6.snk = .external 0 ∧
    ((overSink w6 [.never]).sink 0).next 0 = .never ∧ 8 ≤ w6.filled + min 2 8 ∧ 1 ≤ w6.filled := by decide

theorem witness_WriterHandshakeRunsCommands :
    (overSink w6 []).units[0]? = some (.writer w6) ∧ w6.micro = .idle ∧ w6.Ok ∧
    portWf Sink.untouched (overSink w6 []).sinks ∧
    exec (.wrBits 15 6) (overSink w6 []) = .next (after (exec (.wrBits 15 6) (overSink w6 []))) ∧
    exec .wrFlush (overSink w6 []) = .next (after (exec .wrFlush (overSink w6 []))) ∧
    exec .wrFlush (overSink w6 [.never]) = .next (after (exec .wrFlush (overSink w6 [.never]))) :=
  ⟨rfl, rfl, by decide, by decide, rfl, rfl, rfl⟩

/-- WP-2's state, in which each operation fails with the operand given, and WP-3's, in which it succeeds. -/
theorem witness_WriteByteStream_WriteBitSequenceFrom_WriteBoolSequence :
    let failing : State :=
      { overSink w0 [.reply .ok, .reply (.err .ioFailure)] with
        buffers := [[0x12, 0x34]], boolSeqs := [List.replicate 16 true] }
    failing.Fair ∧ failing.units[0]? = some (.writer w0) ∧
    (after (exec (.writeByteStream 0 0) failing)).returned = some (.count 1 (.err .ioFailure)) ∧
    (after (exec (.writeBitSequenceFrom 0 0 16) failing)).returned = some (.count 1 (.err .ioFailure)) ∧
    (after (exec (.writeBitSequenceFrom 0 0 15) failing)).returned = some (.count 2 .ok) ∧
    (after (exec (.writeBoolSequence 0 0) failing)).returned = some (.status (.err .ioFailure)) ∧
    ({ overSink w3 [] with buffers := [[0x12, 0x34]] } : State).Fair := by decide

/-- Room for exactly the bytes completed: (6 + 2) / 8 = 1. -/
theorem witness_AcceptingSinksLetWritesSucceed :
    (overSink w6 [.reply .ok]).units[0]? = some (.writer w6) ∧ w6.micro = .idle ∧ w6.Ok ∧ w6.snk = .external 0 ∧
    portWf Sink.untouched (overSink w6 [.reply .ok]).sinks ∧
    ((overSink w6 [.reply .ok]).sink 0).script = List.replicate 1 (.reply .ok) ++ [] ∧
    (({ overSink w6 [] with buffers := [[0x12]] } : State).buffer 0).length ≤ 1 ∧
    (w6.filled + min 2 (8 * (({ overSink w6 [] with buffers := [[0x12]] } : State).buffer 0).length)) / 8 ≤ 1 ∧
    (w6.filled + (({ overSink w6 [] with boolSeqs := [[true, false]] } : State).boolSeq 0).length) / 8 ≤ 1 := by decide

/-- An error of RD.BITS at each of its refills, of WR.BITS and of WR.FLUSH. -/
theorem witness_StateAfterAnError_ErrorsComeFromStreams :
    (overSource r5 []).Ok ∧ exec (.rdBits 6) (overSource r5 []) = .next (after (exec (.rdBits 6) (overSource r5 []))) ∧
    (after (exec (.rdBits 6) (overSource r5 []))).returned = some (errResponse .exhausted) ∧
    (after (exec (.rdBits 6) (overSource r5 []))).responses = [(0, { status := .err .exhausted, data := 0x00 })] ∧
    (overSink w6 [.reply (.err .ioFailure)]).Ok ∧
    (after (exec (.wrBits 3 2) (overSink w6 [.reply (.err .ioFailure)]))).returned = some (errResponse .ioFailure) ∧
    (after (exec .wrFlush (overSink w6 [.reply (.err .ioFailure)]))).returned = some (errResponse .ioFailure) :=
  ⟨by decide, rfl, rfl, rfl, by decide, rfl, rfl⟩

theorem witness_OperationsStopAtTheFirstError :
    (Instr.readBoolSequence 0 17).addressed State.reset = some 0 ∧
    exec (.readBoolSequence 0 17) (overSource r0 (gives [0xAA, 0xFF])) =
      .next (after (exec (.readBoolSequence 0 17) (overSource r0 (gives [0xAA, 0xFF])))) ∧
    (after (exec (.readBoolSequence 0 17) (overSource r0 (gives [0xAA, 0xFF])))).returned =
      some (.sequence 0 (.err .exhausted)) :=
  ⟨rfl, rfl, rfl⟩

theorem witness_BusyInstancesRefuseCommands :
    (overSource rWaits []).units[0]? = some (.reader rWaits) ∧ (overSource rWaits []).insideCommand 0 = true ∧
    (overSink wWaits []).units[0]? = some (.writer wWaits) ∧ (overSink wWaits []).insideCommand 0 = true ∧
    (encode .rdCount).isSome = true ∧ (encode .wrCount).isSome = true := by decide

theorem witness_InstancesAreIndependent :
    let both : State := { overSource r5 [] with units := [.reader r5, .writer w6] }
    (Instr.rdBits 8).addressed both = some 0 ∧ boundOutside both 0 = true ∧ 1 ≠ 0 ∧
    exec (.rdBits 8) both = .next (after (exec (.rdBits 8) both)) := ⟨rfl, rfl, by decide, rfl⟩

theorem witness_OnlyReadsPullAndOnlyWritesEmit_InstancesKeepTheirKindAndBinding :
    exec .rdCount (overSource r5 []) = .next (after (exec .rdCount (overSource r5 []))) ∧
    Instr.rdCount.readsBits = false ∧ Instr.rdCount.emitsBytes = false ∧
    exec (.wrapReader (.external 0)) State.reset = .next (after (exec (.wrapReader (.external 0)) State.reset)) :=
  ⟨rfl, rfl, rfl, rfl⟩

theorem witness_FairStreamsLetEveryOperationEnd :
    (overSource r5 []).Fair ∧ (Instr.rdBits 8).applies (overSource r5 []) = true ∧
    (overSink w6 []).Fair ∧ (Instr.writeBitSequenceFrom 0 0 12).applies (overSink w6 []) = true ∧
    (Instr.wrapWriter (.external 7)).applies State.reset = true := by decide

/-- The invariant holds of a reader over an adapter over another, and of one that waits for ever. -/
theorem witness_EveryStepKeepsTheInvariant_NoFaultOfTheModelsOwn :
    ({ overSource r4 [] with units := [.reader r4, .reader { r5 with src := .adapter 0 }] } : State).Ok ∧
    (overSource rWaits []).Ok ∧ (overSink wWaits []).Ok ∧
    step { overSource r5 [] with queue := [.word 0 0x01000800] } =
      .next (after (step { overSource r5 [] with queue := [.word 0 0x01000800] })) :=
  ⟨by decide, by decide, by decide, rfl⟩

/-- P1, and a reader over the bytes its sink accepts. -/
theorem witness_RoundTrip :
    (∀ g ∈ groupsP1, g.1 < 256 ∧ 1 ≤ g.2 ∧ g.2 ≤ 8) ∧ portWf Sink.untouched startP1.sinks ∧
    startP1.units[0]? = some (.writer (Writer.fresh (.external 0))) ∧ (startP1.sink 0).script = [] ∧
    (startP1.sink 0).tail = .always (.reply .ok) ∧
    startP1.queue = writeWords 0 groupsP1 ++ [.word 0 0x82000000] ∧
    portWf Source.untouched (overSource r0 (gives [0xCC, 0xFF, 0x80])).sources ∧
    (overSource r0 (gives [0xCC, 0xFF, 0x80])).units[0]? = some (.reader (Reader.fresh (.external 0))) ∧
    ((overSource r0 (gives [0xCC, 0xFF, 0x80])).source 0).script = gives [0xCC, 0xFF, 0x80] := by decide

end Sys2Proof.Tests
end

/-! PROOFS. The statements about the state of the machine (`10_state.md`): the invariant through every step, what an
operation reaches, what it keeps of every unit, and transactions through adapters. -/

namespace Sys2Proof.Machine

/-! ## The invariant through a step -/

section Invariant

variable {fair : Prop}

/-- What an instruction in a state that `Keeps fair` comes to: `Ran.Good` for the outcome of a step. -/
def OutcomeGood (fair : Prop) : Host.Outcome State Fault Refusal → Prop
  | .next t => t.Keeps fair ∧ (fair → t.returned.isSome = true)
  | .fault f => f ≠ .adapterOrder ∧ f ≠ .chunkLoop ∧ ¬ fair
  | .refused _ => ¬ fair

theorem Ran.Good.finish {α : Type} {m : Ran α} (hm : m.Good fair) (ret : α → Returned) :
    OutcomeGood fair (m.finish ret) := by
  cases m with
  | done a t => exact ⟨State.Keeps.congr hm rfl rfl rfl, fun _ => rfl⟩
  | blocked t => exact ⟨⟨hm.1.congr rfl rfl rfl, fun f => absurd f hm.2⟩, fun f => absurd f hm.2⟩
  | fault f => exact hm
  | refused q => exact hm

theorem exec_good (i : Instr) {s : State} (hk : s.Keeps fair) (ha : fair → i.applies s = true) :
    OutcomeGood fair (exec i s) := by
  cases i with
  | rdBits N => exact (rdBits_good hk ha N).finish _
  | rdCount => exact (rdCount_good hk ha).finish _
  | wrBits V N => exact (wrBits_good hk ha V N).finish _
  | wrFlush => exact (wrFlush_good hk ha).finish _
  | wrCount => exact (wrCount_good hk ha).finish _
  | rdBit => exact (rdBits_good hk ha 1).finish _
  | rdBool => exact (rdBits_good hk ha 1).finish _
  | wrBit b => exact (wrBits_good hk ha b 1).finish _
  | wrBool t => exact (wrBits_good hk ha _ 1).finish _
  | wrapReader src => exact (wrapReader_good src hk ha).finish _
  | readBoolSequence r n =>
    have hloop := Ran.good_bind (f := fun p s1 => .done p.2 (s1.newSequence p.1 n)) (readBools_good r n hk ha)
      fun _ _ _ ht => ht.congr rfl rfl rfl
    exact hloop.finish _
  | readByteStream r b => exact (readBytes_good r b _ 0 hk ha).1.finish _
  | readBitSequenceInto r b totalBits => exact (readBitsInto_good r b totalBits hk ha).finish _
  | wrapWriter snk => exact (wrapWriter_good snk hk ha).finish _
  | writeByteStream w b => exact (writeBytes_good w _ 0 hk ha).1.finish _
  | writeBitSequenceFrom w b totalBits => exact (writeBitsFrom_good w b totalBits hk ha).finish _
  | writeBoolSequence w q => exact (writeBools_good w _ hk ha).finish _

/-- The invariant alone, with nothing said of fairness. -/
theorem State.Ok.keeps {s : State} (ok : s.Ok) : s.Keeps False := ⟨ok, False.elim⟩

/-- Everything a step can be: idling, the instruction at the head of the queue, or a refusal when it is fetched. -/
theorem step_cases (s : State) :
    step s = .next s ∨ (∃ i h rest, step s = exec i (s.takeOp h rest)) ∨ ∃ why, step s = .refused why := by
  cases hq : s.queue with
  | nil => exact .inl (step_empty hq)
  | cons op rest =>
    cases op with
    | word h w =>
      cases hd : decode w with
      | command i => exact .inr (.inl ⟨i, h, rest, step_word hq hd⟩)
      | refused why => exact .inr (.inr ⟨.undecodable why, by simp only [step, State.fetch, hq, hd]⟩)
    | line h i =>
      by_cases hw : i.wellFormed = true
      · exact .inr (.inl ⟨i, h, rest, step_line hq hw⟩)
      · exact .inr (.inr ⟨.notAssembled, by simp [step, State.fetch, hq, hw]⟩)

theorem step_good {s : State} (ok : s.Ok) : OutcomeGood False (step s) := by
  obtain hs | ⟨i, h, rest, hs⟩ | ⟨why, hs⟩ := step_cases s
  · rw [hs]; exact ⟨ok.keeps, False.elim⟩
  · rw [hs]; exact exec_good i (ok.keeps.congr rfl rfl rfl) False.elim
  · rw [hs]; exact id

end Invariant

/-- Settles O46: every instruction keeps the invariant (`exec_good`), and a step is idling or an instruction. -/
theorem everyStepKeepsTheInvariant : Obligations.EveryStepKeepsTheInvariant := by
  intro s t ok ht
  have good := step_good ok
  rw [ht] at good
  exact good.1.1

/-! ## What every operation keeps of the instances -/

/-- From `s` to `t` every unit has kept its kind and its binding, at most `added` have been added, and the responses
delivered have grown at their end. -/
structure InstancesKept (added : Nat) (s t : State) : Prop where
  readers   : ∀ (j : Nat) (r : Reader), s.units[j]? = some (BitUnit.reader r) →
    ∃ r' : Reader, t.units[j]? = some (BitUnit.reader r') ∧ r'.src = r.src
  writers   : ∀ (j : Nat) (w : Writer), s.units[j]? = some (BitUnit.writer w) →
    ∃ w' : Writer, t.units[j]? = some (BitUnit.writer w') ∧ w'.snk = w.snk
  length    : t.units.length ≤ s.units.length + added
  responses : s.responses <+: t.responses

section Kept

variable {s t u : State} {added : Nat}

theorem InstancesKept.of_same (hu : t.units = s.units) (hr : s.responses <+: t.responses) : InstancesKept added s t where
  readers _ r h := ⟨r, by rw [hu, h], rfl⟩
  writers _ w h := ⟨w, by rw [hu, h], rfl⟩
  length := by rw [hu]; exact Nat.le_add_right _ _
  responses := hr

theorem InstancesKept.trans (h1 : InstancesKept 0 s t) (h2 : InstancesKept added t u) : InstancesKept added s u where
  readers j r hr := by
    obtain ⟨r1, hr1, e1⟩ := h1.readers j r hr
    obtain ⟨r2, hr2, e2⟩ := h2.readers j r1 hr1
    exact ⟨r2, hr2, e2.trans e1⟩
  writers j w hw := by
    obtain ⟨w1, hw1, e1⟩ := h1.writers j w hw
    obtain ⟨w2, hw2, e2⟩ := h2.writers j w1 hw1
    exact ⟨w2, hw2, e2.trans e1⟩
  length := h2.length.trans (Nat.add_le_add_right h1.length added)
  responses := h1.responses.trans h2.responses

theorem InstancesKept.mono (hk : InstancesKept 0 s t) : InstancesKept added s t :=
  { hk with length := hk.length.trans (Nat.le_add_right _ _) }

/-- The record of what an operation returned is not part of any unit. -/
theorem InstancesKept.returned (hk : InstancesKept added s t) (x : Option Returned) :
    InstancesKept added s { t with returned := x } := { hk with }

theorem ReadFrame.kept {bound : Nat} (f : ReadFrame bound s t) : InstancesKept 0 s t where
  readers := f.readers
  writers j w hw := ⟨w, f.writers j w hw, rfl⟩
  length := f.length.le
  responses := by obtain ⟨l, hl, -⟩ := f.responses; exact ⟨l, hl.symm⟩

theorem WriteFrame.kept {bound : Nat} (f : WriteFrame bound s t) : InstancesKept 0 s t where
  readers j r hr := ⟨r, f.readers j r hr, rfl⟩
  writers := f.writers
  length := f.length.le
  responses := by obtain ⟨l, hl, -⟩ := f.responses; exact ⟨l, hl.symm⟩

theorem State.addUnit_kept (s : State) (v : BitUnit) : InstancesKept 1 s (s.addUnit v) where
  readers _ r hr := ⟨r, by rw [State.addUnit_units, List.getElem?_append_left (lt_of_get hr), hr], rfl⟩
  writers _ w hw := ⟨w, by rw [State.addUnit_units, List.getElem?_append_left (lt_of_get hw), hw], rfl⟩
  length := by simp
  responses := List.prefix_rfl

/-- A unit bound to an external stream stays so, and where there is none no unit comes to be. -/
theorem InstancesKept.boundOutside {h : Nat} (hk : InstancesKept 0 s t) (hb : boundOutside s h = true) :
    boundOutside t h = true := by
  cases hu : s.units[h]? with
  | none =>
    have ht : t.units[h]? = none :=
      List.getElem?_eq_none (hk.length.trans (List.getElem?_eq_none_iff.mp hu))
    simp only [Machine.boundOutside, ht]
  | some v =>
    cases v with
    | reader r => exact boundOutside_of_same hu (hk.readers h) hb
    | writer w => exact boundOutside_of_sameSink hu (hk.writers h) hb

/-- An operation that keeps the instances, done or waiting. -/
abbrev Ran.KeepsInstances {α : Type} (added : Nat) (s : State) (m : Ran α) : Prop :=
  m.Post (fun _ t => InstancesKept added s t) (InstancesKept added s)

variable {α β : Type} {m : Ran α}

theorem Ran.KeepsInstances.done {a : α} (hm : m.KeepsInstances added s) (hd : m = .done a t) :
    InstancesKept added s t := by
  rw [hd] at hm
  exact hm

theorem Ran.KeepsInstances.mono (hm : m.KeepsInstances 0 s) : m.KeepsInstances added s :=
  Ran.post_mono hm (fun _ _ => InstancesKept.mono) fun _ => InstancesKept.mono

theorem InstancesKept.ran (hk : InstancesKept 0 s t) (hm : m.KeepsInstances 0 t) : m.KeepsInstances 0 s :=
  Ran.post_mono hm (fun _ _ => hk.trans) fun _ => hk.trans

theorem Ran.KeepsInstances.bind (hm : m.KeepsInstances 0 s) {f : α → State → Ran β}
    (hf : ∀ a t, (f a t).KeepsInstances 0 t) : (m.bind f).KeepsInstances 0 s :=
  Ran.post_bind hm fun a t ht => ht.ran (hf a t)

theorem Ran.KeepsInstances.finish (hm : m.KeepsInstances added s) {ret : α → Returned} (ht : m.finish ret = .next t) :
    InstancesKept added s t := by
  obtain ⟨a, s1, rfl, rfl⟩ | ⟨s1, rfl, rfl⟩ := Ran.finish_next ht
  · exact InstancesKept.returned hm _
  · exact InstancesKept.returned hm _

/-- An operation that ends at once, where it has changed no unit and no response. -/
theorem Ran.keepsInstances_done (a : α) (hu : t.units = s.units) (hr : t.responses = s.responses) :
    (Ran.done a t).KeepsInstances added s := InstancesKept.of_same hu (hr ▸ List.prefix_rfl)

theorem respond_kept (h : Nat) (st : Status) (d : Byte) (s : State) : (respond h st d s).KeepsInstances added s :=
  InstancesKept.of_same rfl (List.prefix_append _ _)

theorem rdBits_kept (h N : Nat) (s : State) : (rdBits h N s).KeepsInstances 0 s :=
  Ran.post_mono (rdBits_frame h N s) (fun _ _ => ReadFrame.kept) fun _ => ReadFrame.kept

theorem wrBits_kept (h V N : Nat) (s : State) : (wrBits h V N s).KeepsInstances 0 s :=
  Ran.post_mono (wrBits_frame h V N s) (fun _ _ => WriteFrame.kept) fun _ => WriteFrame.kept

theorem wrFlush_kept (h : Nat) (s : State) : (wrFlush h s).KeepsInstances 0 s :=
  Ran.post_mono (wrFlush_frame h s) (fun _ _ => WriteFrame.kept) fun _ => WriteFrame.kept

theorem rdCount_kept (h : Nat) (s : State) : (rdCount h s).KeepsInstances 0 s :=
  asReader_post fun _ _ _ => respond_kept h _ _ s

theorem wrCount_kept (h : Nat) (s : State) : (wrCount h s).KeepsInstances 0 s :=
  asWriter_post fun _ _ _ => respond_kept h _ _ s

theorem readBools_kept (h m : Nat) : ∀ s, (readBools h m s).KeepsInstances 0 s := by
  induction m with
  | zero => exact fun s => Ran.keepsInstances_done _ rfl rfl
  | succ m ih =>
    refine fun s => (rdBits_kept h 1 s).bind fun resp t => ?_
    split
    · exact Ran.keepsInstances_done _ rfl rfl
    · exact (ih t).bind fun _ _ => Ran.keepsInstances_done _ rfl rfl

theorem readBytes_kept (h b m : Nat) : ∀ i s, (readBytes h b m i s).KeepsInstances 0 s := by
  induction m with
  | zero => exact fun _ s => Ran.keepsInstances_done _ rfl rfl
  | succ m ih =>
    refine fun i s => (rdBits_kept h 8 s).bind fun resp t => ?_
    split
    · exact Ran.keepsInstances_done _ rfl rfl
    · have hw : InstancesKept 0 t (t.bufWrite b i resp.data) := .of_same rfl List.prefix_rfl
      exact hw.ran (ih (i + 1) _)

theorem readBitsInto_kept (h b totalBits : Nat) (s : State) : (readBitsInto h b totalBits s).KeepsInstances 0 s := by
  refine (readBytes_kept h b _ 0 s).bind fun p t => ?_
  split
  · exact Ran.keepsInstances_done _ rfl rfl
  · split
    · exact Ran.keepsInstances_done _ rfl rfl
    · refine (rdBits_kept h _ t).bind fun resp _ => ?_
      split
      · exact Ran.keepsInstances_done _ rfl rfl
      · exact Ran.keepsInstances_done _ rfl rfl

theorem writeBytes_kept (h : Nat) (bytes : List Byte) : ∀ i s, (writeBytes h bytes i s).KeepsInstances 0 s := by
  induction bytes with
  | nil => exact fun _ s => Ran.keepsInstances_done _ rfl rfl
  | cons v bytes ih =>
    refine fun i s => (wrBits_kept h _ 8 s).bind fun resp t => ?_
    split
    · exact Ran.keepsInstances_done _ rfl rfl
    · exact ih (i + 1) t

theorem writeBitsFrom_kept (h b totalBits : Nat) (s : State) : (writeBitsFrom h b totalBits s).KeepsInstances 0 s := by
  refine (writeBytes_kept h _ 0 s).bind fun p t => ?_
  split
  · exact Ran.keepsInstances_done _ rfl rfl
  · split
    · exact Ran.keepsInstances_done _ rfl rfl
    · refine (wrBits_kept h _ _ t).bind fun resp _ => ?_
      split
      · exact Ran.keepsInstances_done _ rfl rfl
      · exact Ran.keepsInstances_done _ rfl rfl

theorem writeBools_kept (h : Nat) (seq : List Bool) : ∀ s, (writeBools h seq s).KeepsInstances 0 s := by
  induction seq with
  | nil => exact fun s => Ran.keepsInstances_done _ rfl rfl
  | cons v seq ih =>
    refine fun s => (wrBits_kept h _ 1 s).bind fun resp t => ?_
    split
    · exact Ran.keepsInstances_done _ rfl rfl
    · exact ih t

theorem wrapReader_kept (src : StreamHandle) (s : State) : (wrapReader src s).KeepsInstances 1 s := by
  cases src with
  | external k => exact s.addUnit_kept _
  | unit h =>
    simp only [wrapReader]
    split
    · trivial
    · exact Ran.keepsInstances_done _ rfl rfl
    · trivial
  | adapter h =>
    simp only [wrapReader]
    split
    · trivial
    · exact s.addUnit_kept _
    · trivial

theorem wrapWriter_kept (snk : StreamHandle) (s : State) : (wrapWriter snk s).KeepsInstances 1 s := by
  cases snk with
  | external k => exact s.addUnit_kept _
  | unit h =>
    simp only [wrapWriter]
    split
    · trivial
    · exact Ran.keepsInstances_done _ rfl rfl
    · trivial
  | adapter h =>
    simp only [wrapWriter]
    split
    · trivial
    · exact s.addUnit_kept _
    · trivial

theorem exec_kept {i : Instr} (ht : exec i s = .next t) : InstancesKept 1 s t := by
  cases i with
  | rdBits N => exact (rdBits_kept _ N s).mono.finish ht
  | rdCount => exact (rdCount_kept _ s).mono.finish ht
  | wrBits V N => exact (wrBits_kept _ V N s).mono.finish ht
  | wrFlush => exact (wrFlush_kept _ s).mono.finish ht
  | wrCount => exact (wrCount_kept _ s).mono.finish ht
  | rdBit => exact (rdBits_kept _ 1 s).mono.finish ht
  | rdBool => exact (rdBits_kept _ 1 s).mono.finish ht
  | wrBit b => exact (wrBits_kept _ b 1 s).mono.finish ht
  | wrBool v => exact (wrBits_kept _ _ 1 s).mono.finish ht
  | wrapReader src => exact (wrapReader_kept src s).finish ht
  | readBoolSequence r n =>
    have hloop := (readBools_kept r n s).bind (f := fun p s1 => .done p.2 (s1.newSequence p.1 n))
      fun _ _ => Ran.keepsInstances_done _ rfl rfl
    exact hloop.mono.finish ht
  | readByteStream r b => exact (readBytes_kept r b _ 0 s).mono.finish ht
  | readBitSequenceInto r b totalBits => exact (readBitsInto_kept r b totalBits s).mono.finish ht
  | wrapWriter snk => exact (wrapWriter_kept snk s).finish ht
  | writeByteStream w b => exact (writeBytes_kept w _ 0 s).mono.finish ht
  | writeBitSequenceFrom w b totalBits => exact (writeBitsFrom_kept w b totalBits s).mono.finish ht
  | writeBoolSequence w q => exact (writeBools_kept w _ s).mono.finish ht

end Kept

/-- Settles O43: the frames of RD.BITS, WR.BITS and WR.FLUSH keep all units, and so do the loops over them; a wrap adds
one unit after the others. -/
theorem instancesKeepTheirKindAndBinding : Obligations.InstancesKeepTheirKindAndBinding := by
  intro i s t ht
  have kept := exec_kept ht
  exact ⟨kept.readers, kept.writers, kept.length, kept.responses⟩

/-! ## What an operation does not look at -/

section Independent

variable {h j : Nat} (u : BitUnit) (hj : j ≠ h)
include hj

theorem rdCount_setUnit (s : State) : rdCount h (s.setUnit j u) = (rdCount h s).onState (·.setUnit j u) :=
  asReader_setUnit hj fun _ _ => respond_setUnit _ _

theorem wrCount_setUnit (s : State) : wrCount h (s.setUnit j u) = (wrCount h s).onState (·.setUnit j u) :=
  asWriter_setUnit hj fun _ _ => respond_setUnit _ _

theorem readBools_setUnit (m : Nat) : ∀ {s : State}, boundOutside s h = true →
    readBools h m (s.setUnit j u) = (readBools h m s).onState (·.setUnit j u) := by
  induction m with
  | zero => exact fun _ => rfl
  | succ m ih =>
    intro s hb
    simp only [readBools, rdBits_setUnit u 1 hj (.inr hb)]
    refine Ran.onState_bind fun resp t ht => ?_
    have hbt := ((rdBits_kept h 1 s).done ht).boundOutside hb
    split
    · rfl
    · rw [ih hbt]
      exact Ran.onState_bind fun _ _ _ => rfl

theorem readBytes_setUnit (b m : Nat) : ∀ (i : Nat) {s : State}, boundOutside s h = true →
    readBytes h b m i (s.setUnit j u) = (readBytes h b m i s).onState (·.setUnit j u) := by
  induction m with
  | zero => exact fun _ _ _ => rfl
  | succ m ih =>
    intro i s hb
    simp only [readBytes, rdBits_setUnit u 8 hj (.inr hb)]
    refine Ran.onState_bind fun resp t ht => ?_
    have hbt := ((rdBits_kept h 8 s).done ht).boundOutside hb
    split
    · rfl
    · exact ih (i + 1) (s := t.bufWrite b i resp.data) hbt

theorem readBitsInto_setUnit (b totalBits : Nat) {s : State} (hb : boundOutside s h = true) :
    readBitsInto h b totalBits (s.setUnit j u) = (readBitsInto h b totalBits s).onState (·.setUnit j u) := by
  have hbuf : (s.setUnit j u).buffer b = s.buffer b := rfl
  simp only [readBitsInto, hbuf, readBytes_setUnit u hj b _ 0 hb]
  refine Ran.onState_bind fun p t ht => ?_
  have hbt := ((readBytes_kept h b _ 0 s).done ht).boundOutside hb
  split
  · rfl
  · split
    · rfl
    · rw [rdBits_setUnit u _ hj (.inr hbt)]
      refine Ran.onState_bind fun resp _ _ => ?_
      split
      · rfl
      · rfl

theorem writeBytes_setUnit (bytes : List Byte) : ∀ (i : Nat) {s : State}, boundOutside s h = true →
    writeBytes h bytes i (s.setUnit j u) = (writeBytes h bytes i s).onState (·.setUnit j u) := by
  induction bytes with
  | nil => exact fun _ _ _ => rfl
  | cons v bytes ih =>
    intro i s hb
    simp only [writeBytes, wrBits_setUnit u _ 8 hj (.inr hb)]
    refine Ran.onState_bind fun resp t ht => ?_
    have hbt := ((wrBits_kept h _ 8 s).done ht).boundOutside hb
    split
    · rfl
    · exact ih (i + 1) hbt

theorem writeBitsFrom_setUnit (b totalBits : Nat) {s : State} (hb : boundOutside s h = true) :
    writeBitsFrom h b totalBits (s.setUnit j u) = (writeBitsFrom h b totalBits s).onState (·.setUnit j u) := by
  have hbuf : (s.setUnit j u).buffer b = s.buffer b := rfl
  simp only [writeBitsFrom, hbuf, writeBytes_setUnit u hj _ 0 hb]
  refine Ran.onState_bind fun p t ht => ?_
  have hbt := ((writeBytes_kept h _ 0 s).done ht).boundOutside hb
  split
  · rfl
  · split
    · rfl
    · rw [wrBits_setUnit u _ _ hj (.inr hbt)]
      refine Ran.onState_bind fun resp _ _ => ?_
      split
      · rfl
      · rfl

theorem writeBools_setUnit (seq : List Bool) : ∀ {s : State}, boundOutside s h = true →
    writeBools h seq (s.setUnit j u) = (writeBools h seq s).onState (·.setUnit j u) := by
  induction seq with
  | nil => exact fun _ => rfl
  | cons v seq ih =>
    intro s hb
    simp only [writeBools, wrBits_setUnit u _ 1 hj (.inr hb)]
    refine Ran.onState_bind fun resp t ht => ?_
    have hbt := ((wrBits_kept h _ 1 s).done ht).boundOutside hb
    split
    · rfl
    · exact ih hbt

omit hj in
/-- An operation that does not look at the unit at `j` gives an outcome that does not. -/
theorem finish_setUnit {α : Type} {m m' : Ran α} (hm : m' = m.onState (·.setUnit j u)) (ret : α → Returned) :
    m'.finish ret = mapNext (·.setUnit j u) (m.finish ret) := by
  rw [hm]
  exact Ran.finish_onState ret m fun _ _ => rfl

theorem exec_setUnit {i : Instr} {s : State} (ha : i.addressed s = some h) (hb : boundOutside s h = true) :
    exec i (s.setUnit j u) = mapNext (·.setUnit j u) (exec i s) := by
  cases i with
  | rdBits N => cases ha; exact finish_setUnit u (rdBits_setUnit u N hj (.inr hb)) _
  | rdCount => cases ha; exact finish_setUnit u (rdCount_setUnit u hj s) _
  | wrBits V N => cases ha; exact finish_setUnit u (wrBits_setUnit u V N hj (.inr hb)) _
  | wrFlush => cases ha; exact finish_setUnit u (wrFlush_setUnit u hj (.inr hb)) _
  | wrCount => cases ha; exact finish_setUnit u (wrCount_setUnit u hj s) _
  | rdBit => cases ha; exact finish_setUnit u (rdBits_setUnit u 1 hj (.inr hb)) _
  | rdBool => cases ha; exact finish_setUnit u (rdBits_setUnit u 1 hj (.inr hb)) _
  | wrBit b => cases ha; exact finish_setUnit u (wrBits_setUnit u b 1 hj (.inr hb)) _
  | wrBool t => cases ha; exact finish_setUnit u (wrBits_setUnit u _ 1 hj (.inr hb)) _
  | wrapReader src => cases ha
  | readBoolSequence r n =>
    cases ha
    refine finish_setUnit u ?_ _
    rw [readBools_setUnit u hj n hb]
    exact Ran.onState_bind fun _ _ _ => rfl
  | readByteStream r b => cases ha; exact finish_setUnit u (readBytes_setUnit u hj b _ 0 hb) _
  | readBitSequenceInto r b totalBits =>
    cases ha; exact finish_setUnit u (readBitsInto_setUnit u hj b totalBits hb) _
  | wrapWriter snk => cases ha
  | writeByteStream w b => cases ha; exact finish_setUnit u (writeBytes_setUnit u hj _ 0 hb) _
  | writeBitSequenceFrom w b totalBits =>
    cases ha; exact finish_setUnit u (writeBitsFrom_setUnit u hj b totalBits hb) _
  | writeBoolSequence w q => cases ha; exact finish_setUnit u (writeBools_setUnit u hj _ hb) _

end Independent

/-- Settles O41: each command commutes with the replacement of another unit, and so do the loops over commands, because
the unit they work on stays bound outside. -/
theorem instancesAreIndependent : Obligations.InstancesAreIndependent :=
  fun _ _ _ _ u ha hb hj => exec_setUnit u hj ha hb

/-! ## Transactions through an adapter -/

/-- Settles O15: a transaction through an adapter is the command on the unit under it, with its response passed on. -/
theorem adapterTransactions : Obligations.AdapterTransactions := by
  intro s h g hg
  refine ⟨fun resp t hd => ?_, fun t hd => ?_, fun b resp t hd => ?_, fun b t hd => ?_⟩
  · rw [srcRead_adapter hg, hd]; rfl
  · rw [srcRead_adapter hg, hd]; rfl
  · rw [sinkWrite_adapter hg, hd]; rfl
  · rw [sinkWrite_adapter hg, hd]; rfl

end Sys2Proof.Machine

/-! PROOFS. The statements about stream transactions and the host's operations (`20_memory.md`): the operation at the head
of the queue, transactions with external streams and how many a command makes, streams that never answer, and the round
trip of bit groups. -/

namespace Sys2Proof.Machine

/-! ## A step and its faults -/

/-- Settles O7: fetching takes the head of the queue, decoded or assembled. -/
theorem stepRunsDecodedInstruction : Obligations.StepRunsDecodedInstruction := by
  refine ⟨fun s h w rest i hq hd => step_word hq hd, fun s h i rest hq hw => step_line hq hw, fun s h i rest hq hw => ?_⟩
  simp only [step, State.fetch, hq, hw, Bool.false_eq_true, if_false]

/-- Settles O45: a step from the invariant is good in the sense of `OutcomeGood`, which excludes both faults. -/
theorem noFaultOfTheModelsOwn : Obligations.NoFaultOfTheModelsOwn := by
  intro s ok
  have good := step_good ok
  refine ⟨fun hf => ?_, fun hf => ?_⟩
  · rw [hf] at good
    obtain ⟨notAdapterOrder, -, -⟩ := good
    exact notAdapterOrder rfl
  · rw [hf] at good
    obtain ⟨-, notChunkLoop, -⟩ := good
    exact notChunkLoop rfl

/-! ## Transactions with external streams -/

section External

variable {s : State} {k : Nat}

theorem pullSource_reply {a : SrcReply} (hn : (s.source k).next k = .reply a) :
    pullSource k s = .done a (s.setSource k ((s.source k).advance a)) := by
  simp only [pullSource, hn]

theorem pullSource_never (hn : (s.source k).next k = .never) : pullSource k s = .blocked s := by
  simp only [pullSource, hn]

theorem offerSink_reply (b : Byte) {a : SinkReply} (hn : (s.sink k).next k = .reply a) :
    offerSink k b s = .done a (s.setSink k ((s.sink k).advance b a)) := by
  simp only [offerSink, hn]

theorem offerSink_never (b : Byte) (hn : (s.sink k).next k = .never) : offerSink k b s = .blocked s := by
  simp only [offerSink, hn]

end External

/-- Settles O14: a transaction over an external binding is one with the stream itself, which follows its next event. -/
theorem externalTransactions : Obligations.ExternalTransactions := by
  intro s h k b
  simp only [srcRead_external, sinkWrite_external]
  refine ⟨fun _ => pullSource_reply, pullSource_never, fun hn => ?_, fun c e hn => ?_, fun _ => offerSink_reply b,
    offerSink_never b, fun hn => ?_⟩
  · simp only [pullSource, hn]
  · simp only [pullSource, hn]
  · simp only [offerSink, hn]

/-! ## Streams that never answer -/

section Busy

variable {s : State} {h : Nat}

theorem asReader_of_busy {α : Type} {r : Reader} (hu : s.units[h]? = some (.reader r)) (hi : r.micro ≠ .idle)
    (f : Reader → Ran α) : asReader h s f = .refused (.busy h) := by
  simp only [asReader, hu, hi, if_false]

theorem asWriter_of_busy {α : Type} {w : Writer} (hu : s.units[h]? = some (.writer w)) (hi : w.micro ≠ .idle)
    (f : Writer → Ran α) : asWriter h s f = .refused (.busy h) := by
  simp only [asWriter, hu, hi, if_false]

theorem srcRead_silent {b : Binding} {k : Nat} (hb : b = .external k) (hn : (s.source k).next k = .never) :
    srcRead h h b s = .blocked s := by
  rw [hb, srcRead_external, pullSource_never hn]

theorem sinkWrite_silent {b : Binding} {k : Nat} (hb : b = .external k) (hn : (s.sink k).next k = .never) (v : Byte) :
    sinkWrite h h b v s = .blocked s := by
  rw [hb, sinkWrite_external, offerSink_never v hn]

/-- RD.BITS that needs a byte from a source that never answers waits with what it has taken. -/
theorem rdBits_silent {r : Reader} {N k : Nat} (hu : s.units[h]? = some (.reader r)) (hi : r.micro = .idle) (ok : r.Ok)
    (hsrc : r.src = .external k) (hn : (s.source k).next k = .never) (hneed : r.count = 0 ∨ r.count < clamp8 N) :
    rdBits h N s = .blocked (s.setUnit h (.reader { r with
      acc := 0x00, count := 0, micro := .waitSrc (clamp8 N - r.count) r.acc })) := by
  by_cases hc : r.count = 0
  · rw [rdBits_empty hu hi N hc, srcRead_silent hsrc hn, afterSrcRead]
    simp only [Reader.acc_of_empty ok hc, hc, Nat.sub_zero]
  · have silent := srcRead_silent (h := h) (s := s.setUnit h (.reader r.drained)) hsrc hn
    rw [rdBits_straddle hu hi N hc (hneed.resolve_left hc), silent, afterSrcRead, State.setUnit_setUnit,
      and_mask_of_shiftRight_eq_zero ok.1 ok.2.1]
    rfl

/-- A command whose one offer is to a sink that never answers waits with the writer as it made the offer. -/
theorem afterSinkWrite_silent {b : Binding} {k : Nat} (hb : b = .external k) (hn : (s.sink k).next k = .never) (w : Writer)
    (c v : Byte) (need : Nat) (rest : State → Ran Response) :
    afterSinkWrite h w c v need rest (sinkWrite h h b c (s.setUnit h (.writer w))) =
      .blocked (s.setUnit h (.writer { w with micro := .waitSnk v need })) := by
  rw [sinkWrite_silent (s := s.setUnit h (.writer w)) hb hn, afterSinkWrite, State.setUnit_setUnit]

/-- A writer that has taken the top of an `n`-bit field, as many bits as it had room for. -/
theorem Writer.insert_top {w : Writer} {v : Byte} {n : Nat} (hf : w.filled ≤ 8) (hn : 8 ≤ w.filled + n) (hv : v >>> n = 0) :
    w.insert (v >>> (w.filled + n - 8)) (8 - w.filled) =
      { w with acc := (w.acc <<< (8 - w.filled)) ||| (v >>> (w.filled + n - 8)), filled := 8 } := by
  have fits : (v >>> (w.filled + n - 8)) &&& mask (8 - w.filled) = v >>> (w.filled + n - 8) := by
    refine and_mask_of_shiftRight_eq_zero (by omega) ?_
    rw [← BitVec.shiftRight_add, show w.filled + n - 8 + (8 - w.filled) = n by omega, hv]
  rw [Writer.insert, fits, Nat.add_sub_cancel' hf]

/-- WR.BITS that completes a byte for a sink that never answers waits with the full byte. -/
theorem wrBits_silent {w : Writer} {V N k : Nat} (hu : s.units[h]? = some (.writer w)) (hi : w.micro = .idle) (ok : w.Ok)
    (hsnk : w.snk = .external k) (hn : (s.sink k).next k = .never) (h8 : 8 ≤ w.filled + clamp8 N) :
    wrBits h V N s = .blocked (s.setUnit h (.writer { w with
      acc := (w.acc <<< (8 - w.filled)) ||| (valueOperand V (clamp8 N) >>> (w.filled + clamp8 N - 8)), filled := 8,
      micro := .waitSnk (valueOperand V (clamp8 N)) (w.filled + clamp8 N - 8) })) := by
  have h7 := Writer.filled_of_idle ok hi
  have top := Writer.insert_top (w := w) (by omega) h8 (and_mask_shiftRight_eq_zero (BitVec.ofNat 8 V) (clamp8_le N))
  rw [← valueOperand] at top
  rcases h8.eq_or_lt with heq | hgt
  · have hroom : clamp8 N = 8 - w.filled := by omega
    rw [← heq, Nat.sub_self, BitVec.ushiftRight_zero, ← hroom] at top
    rw [wrBits_exact hu hi V N (by omega) heq.symm, top, ← heq, Nat.sub_self, BitVec.ushiftRight_zero, ← hroom]
    exact afterSinkWrite_silent hsnk hn _ _ _ _ _
  · rw [wrBits_over hu hi V N h7 hgt, show clamp8 N - (8 - w.filled) = w.filled + clamp8 N - 8 by omega]
    simp only [top]
    exact afterSinkWrite_silent hsnk hn _ _ _ _ _

/-- WR.FLUSH of held bits for a sink that never answers waits with them. -/
theorem wrFlush_silent {w : Writer} {k : Nat} (hu : s.units[h]? = some (.writer w)) (hi : w.micro = .idle)
    (hsnk : w.snk = .external k) (hn : (s.sink k).next k = .never) (hf : w.filled ≠ 0) :
    wrFlush h s = .blocked (s.setUnit h (.writer { w with micro := .waitSnk 0x00 0 })) := by
  rw [wrFlush_partial hu hi hf, sinkWrite_silent hsnk hn, afterSinkWrite]

/-- A reader inside a command is busy for every command to it. -/
theorem exec_busy_reader {t : State} {r : Reader} (hu : t.units[t.target]? = some (.reader r)) (hi : r.micro ≠ .idle)
    (N : Nat) : exec (.rdBits N) t = .refused (.busy t.target) ∧ exec .rdCount t = .refused (.busy t.target) ∧
      exec .rdBit t = .refused (.busy t.target) ∧ exec .rdBool t = .refused (.busy t.target) :=
  ⟨congrArg (Ran.finish _) (asReader_of_busy hu hi _), congrArg (Ran.finish _) (asReader_of_busy hu hi _),
    congrArg (Ran.finish _) (asReader_of_busy hu hi _), congrArg (Ran.finish _) (asReader_of_busy hu hi _)⟩

/-- A writer inside a command is busy for every command to it. -/
theorem exec_busy_writer {t : State} {w : Writer} (hu : t.units[t.target]? = some (.writer w)) (hi : w.micro ≠ .idle)
    (V N : Nat) : exec (.wrBits V N) t = .refused (.busy t.target) ∧ exec .wrFlush t = .refused (.busy t.target) ∧
      exec .wrCount t = .refused (.busy t.target) :=
  ⟨congrArg (Ran.finish _) (asWriter_of_busy hu hi _), congrArg (Ran.finish _) (asWriter_of_busy hu hi _),
    congrArg (Ran.finish _) (asWriter_of_busy hu hi _)⟩

end Busy

/-- Settles O20: RD.BITS ends in the waiting state of `rdBits_silent`, in which the reader is busy for every command. -/
theorem silentSourceBlocksReader : Obligations.SilentSourceBlocksReader := by
  intro s r N k hu hi ok hsrc hn hneed
  refine ⟨_, ?_, rfl, ?_⟩
  · exact congrArg (Ran.finish .response) (rdBits_silent hu hi ok hsrc hn hneed)
  · exact exec_busy_reader (State.setUnit_get_same _ (lt_of_get hu)) nofun

/-- Settles O31: both commands end in the waiting states of `wrBits_silent` and `wrFlush_silent`, in which the writer is
busy for every command. -/
theorem silentSinkBlocksWriter : Obligations.SilentSinkBlocksWriter := by
  intro s w V N k hu hi ok hsnk hn f n v i hcommand
  obtain ⟨rfl, h8⟩ | ⟨rfl, h1⟩ := hcommand
  · refine ⟨_, _, ?_, rfl, fun _ => rfl, nofun, ?_⟩
    · exact congrArg (Ran.finish .response) (wrBits_silent hu hi ok hsnk hn h8)
    · exact exec_busy_writer (State.setUnit_get_same _ (lt_of_get hu)) nofun
  · refine ⟨_, _, ?_, rfl, nofun, fun _ => rfl, ?_⟩
    · exact congrArg (Ran.finish .response) (wrFlush_silent hu hi hsnk hn (Nat.pos_iff_ne_zero.mp h1))
    · exact exec_busy_writer (State.setUnit_get_same _ (lt_of_get hu)) nofun

/-! ## At most one transaction per command -/

/-- What is so of every state an operation may leave is so after the step, where the record of what it returned does not
matter to it. -/
theorem Ran.post_finish {α : Type} {m : Ran α} {Q : State → Prop} (hm : m.Post (fun _ => Q) Q)
    (hQ : ∀ u x, Q u → Q { u with returned := x }) {ret : α → Returned} {t : State} (ht : m.finish ret = .next t) : Q t := by
  obtain ⟨a, u, rfl, rfl⟩ | ⟨u, rfl, rfl⟩ := Ran.finish_next ht
  · exact hQ u _ hm
  · exact hQ u _ hm

/-- What a command to the unit at `h` may do to the sources: nothing, or one answer of one source, and that only where the
command reads. The source is the one the unit is bound to, if that is an external one. -/
def SourcesUsed (reads : Bool) (h : Nat) (s t : State) : Prop :=
  ∃ k, (∀ r j, s.units[h]? = some (.reader r) → r.src = .external j → j = k) ∧
    (∀ j, j ≠ k → t.source j = s.source j) ∧
    (t.source k = s.source k ∨ reads = true ∧ ∃ a, t.source k = (s.source k).advance a)

/-- What a command to the unit at `h` may do to the sinks, likewise. -/
def SinksUsed (emits : Bool) (h : Nat) (s t : State) : Prop :=
  ∃ k, (∀ w j, s.units[h]? = some (.writer w) → w.snk = .external j → j = k) ∧
    (∀ j, j ≠ k → t.sink j = s.sink j) ∧
    (t.sink k = s.sink k ∨ emits = true ∧ ∃ b a, t.sink k = (s.sink k).advance b a)

section Used

variable {h : Nat} {s t : State}

theorem boundSource_unique {r : Reader} {k : Nat} (hu : s.units[h]? = some (.reader r)) (hk : r.src = .external k) (q : Reader)
    (j : Nat) (hq : s.units[h]? = some (.reader q)) (hj : q.src = .external j) : j = k := by
  obtain rfl : r = q := by simpa [hu] using hq
  exact Binding.external.inj (hj.symm.trans hk)

theorem boundSink_unique {w : Writer} {k : Nat} (hu : s.units[h]? = some (.writer w)) (hk : w.snk = .external k) (q : Writer)
    (j : Nat) (hq : s.units[h]? = some (.writer q)) (hj : q.snk = .external j) : j = k := by
  obtain rfl : w = q := by simpa [hu] using hq
  exact Binding.external.inj (hj.symm.trans hk)

/-- Where at most one source has answered, and none that an externally bound unit is not bound to, the source that may have
answered is the one it is bound to. -/
theorem OneAnswer.sourcesUsed (one : OneAnswer s t)
    (own : ∀ r k, s.units[h]? = some (.reader r) → r.src = .external k → ∀ j, j ≠ k → t.source j = s.source j) :
    SourcesUsed true h s t := by
  obtain ⟨k, others, used⟩ := one
  by_cases hb : ∃ r j, s.units[h]? = some (.reader r) ∧ r.src = .external j
  · obtain ⟨r, j, hu, hj⟩ := hb
    refine ⟨j, boundSource_unique hu hj, own r j hu hj, ?_⟩
    by_cases hjk : j = k
    · exact hjk ▸ used.imp_right fun ha => ⟨rfl, ha⟩
    · exact .inl (others j hjk)
  · exact ⟨k, fun r j hu hj => absurd ⟨r, j, hu, hj⟩ hb, others, used.imp_right fun ha => ⟨rfl, ha⟩⟩

theorem OneOffer.sinksUsed (one : OneOffer s t)
    (own : ∀ w k, s.units[h]? = some (.writer w) → w.snk = .external k → ∀ j, j ≠ k → t.sink j = s.sink j) :
    SinksUsed true h s t := by
  obtain ⟨k, others, used⟩ := one
  by_cases hb : ∃ w j, s.units[h]? = some (.writer w) ∧ w.snk = .external j
  · obtain ⟨w, j, hu, hj⟩ := hb
    refine ⟨j, boundSink_unique hu hj, own w j hu hj, ?_⟩
    by_cases hjk : j = k
    · exact hjk ▸ used.imp_right fun ha => ⟨rfl, ha⟩
    · exact .inl (others j hjk)
  · exact ⟨k, fun w j hu hj => absurd ⟨w, j, hu, hj⟩ hb, others, used.imp_right fun ha => ⟨rfl, ha⟩⟩

theorem sourcesUsed_none (reads : Bool) (hs : t.sources = s.sources) : SourcesUsed reads h s t := by
  have same := State.source_congr hs
  obtain ⟨k, bound, -⟩ := (OneAnswer.none hs).sourcesUsed (h := h) fun _ _ _ _ j _ => same j
  exact ⟨k, bound, fun j _ => same j, .inl (same k)⟩

theorem sinksUsed_none (emits : Bool) (hk : t.sinks = s.sinks) : SinksUsed emits h s t := by
  have same := State.sink_congr hk
  obtain ⟨k, bound, -⟩ := (OneOffer.none hk).sinksUsed (h := h) fun _ _ _ _ j _ => same j
  exact ⟨k, bound, fun j _ => same j, .inl (same k)⟩

variable {ret : Response → Returned}

theorem rdBits_used {N : Nat} (ok : s.Ok) (ht : (rdBits h N s).finish ret = .next t) :
    SourcesUsed true h s t ∧ SinksUsed false h s t := by
  have one : OneAnswer s t := Ran.post_finish (rdBits_one h N ok.2.1) (fun _ _ hu => hu) ht
  have frame : (rdBits h N s).Post (fun _ u => u.sinks = s.sinks) (·.sinks = s.sinks) :=
    Ran.post_mono (rdBits_frame h N s) (fun _ _ => ReadFrame.sinks) fun _ => ReadFrame.sinks
  have sinks : t.sinks = s.sinks := Ran.post_finish frame (fun _ _ hu => hu) ht
  refine ⟨one.sourcesUsed fun r k hu hk => ?_, sinksUsed_none false sinks⟩
  exact (Ran.post_finish (rdBits_touches hu hk N) (fun _ _ htouch => htouch) ht).2

/-- WR.BITS and WR.FLUSH, by what is known of both. -/
theorem writing_used {m : Ran Response} (one : m.Post (fun _ => OneOffer s) (OneOffer s))
    (frame : m.KeepsWrite (h + 1) s)
    (touches : ∀ w k, s.units[h]? = some (.writer w) → w.snk = .external k →
      m.Post (fun _ => TouchesSink h k s) (TouchesSink h k s))
    (ht : m.finish ret = .next t) : SourcesUsed false h s t ∧ SinksUsed true h s t := by
  have kept : m.Post (fun _ u => u.sources = s.sources) (·.sources = s.sources) :=
    Ran.post_mono frame (fun _ _ => WriteFrame.sources) fun _ => WriteFrame.sources
  have sources : t.sources = s.sources := Ran.post_finish kept (fun _ _ hu => hu) ht
  have offer : OneOffer s t := Ran.post_finish one (fun _ _ hu => hu) ht
  refine ⟨sourcesUsed_none false sources, offer.sinksUsed fun w k hu hk => ?_⟩
  exact (Ran.post_finish (touches w k hu hk) (fun _ _ htouch => htouch) ht).2

theorem wrBits_used {V N : Nat} (ok : s.Ok) (ht : (wrBits h V N s).finish ret = .next t) :
    SourcesUsed false h s t ∧ SinksUsed true h s t :=
  writing_used (wrBits_one h V N ok) (wrBits_frame h V N s) (fun _ _ hu hk => wrBits_touches hu hk V N) ht

theorem wrFlush_used (ok : s.Ok) (ht : (wrFlush h s).finish ret = .next t) :
    SourcesUsed false h s t ∧ SinksUsed true h s t :=
  writing_used (wrFlush_one h ok) (wrFlush_frame h s) (fun _ _ hu hk => wrFlush_touches hu hk) ht

/-- RD.COUNT and WR.COUNT change no stream. -/
theorem count_used {m : Ran Response}
    (hm : m.Post (fun _ u => u.sources = s.sources ∧ u.sinks = s.sinks) fun u => u.sources = s.sources ∧ u.sinks = s.sinks)
    (ht : m.finish ret = .next t) :
    SourcesUsed false h s t ∧ SinksUsed false h s t := by
  obtain ⟨sources, sinks⟩ := Ran.post_finish hm (fun _ _ hu => hu) ht
  exact ⟨sourcesUsed_none false sources, sinksUsed_none false sinks⟩

end Used

/-- Settles O13: a command makes at most one transaction (`rdBits_one`, `wrBits_one`, `wrFlush_one`), and over an external
binding it touches no other stream. -/
theorem atMostOneTransactionPerCommand : Obligations.AtMostOneTransactionPerCommand := by
  intro i s t ok he ht
  cases i with
  | rdBits N => exact rdBits_used ok ht
  | rdBit => exact rdBits_used ok ht
  | rdBool => exact rdBits_used ok ht
  | wrBits V N => exact wrBits_used ok ht
  | wrBit b => exact wrBits_used ok ht
  | wrBool v => exact wrBits_used ok ht
  | wrFlush => exact wrFlush_used ok ht
  | rdCount => exact count_used (m := rdCount s.target s) (asReader_post fun _ _ _ => ⟨rfl, rfl⟩) ht
  | wrCount => exact count_used (m := wrCount s.target s) (asWriter_post fun _ _ _ => ⟨rfl, rfl⟩) ht
  | wrapReader _ => cases he
  | readBoolSequence _ _ => cases he
  | readByteStream _ _ => cases he
  | readBitSequenceInto _ _ _ => cases he
  | wrapWriter _ => cases he
  | writeByteStream _ _ => cases he
  | writeBitSequenceFrom _ _ _ => cases he
  | writeBoolSequence _ _ => cases he

/-! ## Relations that every operation keeps -/

/-- An operation that leaves, done or waiting, a state to which `s` stands in the relation `R`. -/
abbrev Ran.Leads {α : Type} (R : State → State → Prop) (s : State) (m : Ran α) : Prop :=
  m.Post (fun _ t => R s t) (R s)

/-- A transitive relation of the state before and the state after that holds where only fields of the host have changed or
a unit has been added, and for every command. -/
structure KeptByCommands (R : State → State → Prop) : Prop where
  trans   : IsTrans State R
  host    : ∀ {s t : State}, t.units = s.units → t.sources = s.sources → t.sinks = s.sinks → t.responses = s.responses → R s t
  addUnit : ∀ (s : State) u, R s (s.addUnit u)
  rdBits  : ∀ h N s, (rdBits h N s).Leads R s
  rdCount : ∀ h s, (rdCount h s).Leads R s
  wrBits  : ∀ h V N s, (wrBits h V N s).Leads R s
  wrFlush : ∀ h s, (wrFlush h s).Leads R s
  wrCount : ∀ h s, (wrCount h s).Leads R s

section Kept

variable {R : State → State → Prop} {α β : Type} {s t : State}

theorem Ran.leads_after (trans : IsTrans State R) {m : Ran α} (hr : R s t) (hm : m.Leads R t) :
    m.Leads R s :=
  Ran.post_mono hm (fun _ t => trans.trans _ _ t hr) fun t => trans.trans _ _ t hr

theorem Ran.leads_bind (trans : IsTrans State R) {m : Ran α} (hm : m.Leads R s) {f : α → State → Ran β}
    (hf : ∀ a t, (f a t).Leads R t) : (m.bind f).Leads R s :=
  Ran.post_bind hm fun a t hr => Ran.leads_after trans hr (hf a t)

theorem Ran.post_of_forall {Q : State → Prop} (m : Ran α) (hQ : ∀ t, Q t) : m.Post (fun _ => Q) Q := by
  cases m with
  | done a t => exact hQ t
  | blocked t => exact hQ t
  | fault e => trivial
  | refused q => trivial

variable (hR : KeptByCommands R)
include hR

theorem KeptByCommands.done (a : α) (hu : t.units = s.units) (hs : t.sources = s.sources) (hk : t.sinks = s.sinks)
    (hr : t.responses = s.responses) : (Ran.done a t).Leads R s :=
  hR.host hu hs hk hr

theorem KeptByCommands.finish {m : Ran α} (hm : m.Leads R s) {ret : α → Returned} (ht : m.finish ret = .next t) : R s t :=
  Ran.post_finish hm (fun _ _ hr => hR.trans.trans _ _ _ hr (hR.host rfl rfl rfl rfl)) ht

theorem KeptByCommands.readBools (h m : Nat) : ∀ s, (Machine.readBools h m s).Leads R s := by
  induction m with
  | zero => exact fun s => hR.done _ rfl rfl rfl rfl
  | succ m ih =>
    refine fun s => Ran.leads_bind hR.trans (hR.rdBits h 1 s) fun resp t => ?_
    split
    · exact hR.done _ rfl rfl rfl rfl
    · exact Ran.leads_bind hR.trans (ih t) fun _ _ => hR.done _ rfl rfl rfl rfl

theorem KeptByCommands.readBytes (h b m : Nat) : ∀ i s, (Machine.readBytes h b m i s).Leads R s := by
  induction m with
  | zero => exact fun _ s => hR.done _ rfl rfl rfl rfl
  | succ m ih =>
    refine fun i s => Ran.leads_bind hR.trans (hR.rdBits h 8 s) fun resp t => ?_
    split
    · exact hR.done _ rfl rfl rfl rfl
    · have stored : R t (t.bufWrite b i resp.data) := hR.host rfl rfl rfl rfl
      exact Ran.leads_after hR.trans stored (ih (i + 1) _)

theorem KeptByCommands.readBitsInto (h b totalBits : Nat) (s : State) : (Machine.readBitsInto h b totalBits s).Leads R s := by
  refine Ran.leads_bind hR.trans (hR.readBytes h b _ 0 s) fun p t => ?_
  split
  · exact hR.done _ rfl rfl rfl rfl
  · split
    · exact hR.done _ rfl rfl rfl rfl
    · refine Ran.leads_bind hR.trans (hR.rdBits h _ t) fun resp _ => ?_
      split
      · exact hR.done _ rfl rfl rfl rfl
      · exact hR.done _ rfl rfl rfl rfl

theorem KeptByCommands.writeBytes (h : Nat) (bytes : List Byte) : ∀ i s, (Machine.writeBytes h bytes i s).Leads R s := by
  induction bytes with
  | nil => exact fun _ s => hR.done _ rfl rfl rfl rfl
  | cons v bytes ih =>
    refine fun i s => Ran.leads_bind hR.trans (hR.wrBits h _ 8 s) fun resp t => ?_
    split
    · exact hR.done _ rfl rfl rfl rfl
    · exact ih (i + 1) t

theorem KeptByCommands.writeBitsFrom (h b totalBits : Nat) (s : State) : (Machine.writeBitsFrom h b totalBits s).Leads R s := by
  refine Ran.leads_bind hR.trans (hR.writeBytes h _ 0 s) fun p t => ?_
  split
  · exact hR.done _ rfl rfl rfl rfl
  · split
    · exact hR.done _ rfl rfl rfl rfl
    · refine Ran.leads_bind hR.trans (hR.wrBits h _ _ t) fun resp _ => ?_
      split
      · exact hR.done _ rfl rfl rfl rfl
      · exact hR.done _ rfl rfl rfl rfl

theorem KeptByCommands.writeBools (h : Nat) (seq : List Bool) : ∀ s, (Machine.writeBools h seq s).Leads R s := by
  induction seq with
  | nil => exact fun s => hR.done _ rfl rfl rfl rfl
  | cons v seq ih =>
    refine fun s => Ran.leads_bind hR.trans (hR.wrBits h _ 1 s) fun resp t => ?_
    split
    · exact hR.done _ rfl rfl rfl rfl
    · exact ih t

theorem KeptByCommands.wrapReader (src : StreamHandle) (s : State) : (Machine.wrapReader src s).Leads R s := by
  cases src with
  | external k => exact hR.addUnit s _
  | unit h =>
    simp only [Machine.wrapReader]
    split
    · trivial
    · exact hR.done _ rfl rfl rfl rfl
    · trivial
  | adapter h =>
    simp only [Machine.wrapReader]
    split
    · trivial
    · exact hR.addUnit s _
    · trivial

theorem KeptByCommands.wrapWriter (snk : StreamHandle) (s : State) : (Machine.wrapWriter snk s).Leads R s := by
  cases snk with
  | external k => exact hR.addUnit s _
  | unit h =>
    simp only [Machine.wrapWriter]
    split
    · trivial
    · exact hR.done _ rfl rfl rfl rfl
    · trivial
  | adapter h =>
    simp only [Machine.wrapWriter]
    split
    · trivial
    · exact hR.addUnit s _
    · trivial

theorem KeptByCommands.exec {i : Instr} (ht : Machine.exec i s = .next t) : R s t := by
  cases i with
  | rdBits N => exact hR.finish (hR.rdBits _ N s) ht
  | rdCount => exact hR.finish (hR.rdCount _ s) ht
  | wrBits V N => exact hR.finish (hR.wrBits _ V N s) ht
  | wrFlush => exact hR.finish (hR.wrFlush _ s) ht
  | wrCount => exact hR.finish (hR.wrCount _ s) ht
  | rdBit => exact hR.finish (hR.rdBits _ 1 s) ht
  | rdBool => exact hR.finish (hR.rdBits _ 1 s) ht
  | wrBit b => exact hR.finish (hR.wrBits _ b 1 s) ht
  | wrBool v => exact hR.finish (hR.wrBits _ _ 1 s) ht
  | wrapReader src => exact hR.finish (hR.wrapReader src s) ht
  | readBoolSequence r n =>
    have hloop := Ran.leads_bind hR.trans (hR.readBools r n s) (f := fun p s1 => .done p.2 (s1.newSequence p.1 n))
      fun _ _ => hR.done _ rfl rfl rfl rfl
    exact hR.finish hloop ht
  | readByteStream r b => exact hR.finish (hR.readBytes r b _ 0 s) ht
  | readBitSequenceInto r b totalBits => exact hR.finish (hR.readBitsInto r b totalBits s) ht
  | wrapWriter snk => exact hR.finish (hR.wrapWriter snk s) ht
  | writeByteStream w b => exact hR.finish (hR.writeBytes w _ 0 s) ht
  | writeBitSequenceFrom w b totalBits => exact hR.finish (hR.writeBitsFrom w b totalBits s) ht
  | writeBoolSequence w q => exact hR.finish (hR.writeBools w _ s) ht

/-- A step idles, runs an instruction with the queue moved on, or is refused. -/
theorem KeptByCommands.step (ht : Machine.step s = .next t) : R s t := by
  obtain hs | ⟨i, h, rest, hs⟩ | ⟨why, hs⟩ := step_cases s
  · obtain rfl := Host.Outcome.next.inj (hs.symm.trans ht)
    exact hR.host rfl rfl rfl rfl
  · exact hR.trans.trans s (s.takeOp h rest) t (hR.host rfl rfl rfl rfl) (hR.exec (hs.symm.trans ht))
  · cases hs.symm.trans ht

end Kept

/-! ## Units inside a command -/

/-- If the unit at `j` is inside a command in `s`, it is in `t` as it was, with the responses it has delivered. -/
def StaysInside (j : Nat) (s t : State) : Prop := s.insideCommand j = true → SameAt s t j

section Inside

variable {j h : Nat} {s t u : State}

theorem SameAt.insideCommand (hs : SameAt s t j) : t.insideCommand j = s.insideCommand j := by
  simp only [State.insideCommand, hs.1]

theorem StaysInside.trans (h1 : StaysInside j s t) (h2 : StaysInside j t u) : StaysInside j s u := by
  intro hin
  have first := h1 hin
  exact first.trans (h2 (first.insideCommand.trans hin))

theorem staysInside_isTrans (j : Nat) : IsTrans State (StaysInside j) := ⟨fun _ _ _ => StaysInside.trans⟩

theorem stays_setUnit (hj : j ≠ h) (s : State) (v : BitUnit) : StaysInside j s (s.setUnit h v) :=
  fun _ => (SameAt.refl s j).setUnit hj v

theorem stays_addUnit (s : State) (v : BitUnit) : StaysInside j s (s.addUnit v) := by
  intro hin
  have hlt : j < s.units.length := by
    by_contra hge
    simp [State.insideCommand, List.getElem?_eq_none (Nat.not_lt.mp hge)] at hin
  exact ⟨List.getElem?_append_left hlt, rfl⟩

theorem respond_stays (hj : j ≠ h) (st : Status) (d : Byte) (s : State) : (respond h st d s).Leads (StaysInside j) s :=
  fun _ => (SameAt.refl s j).addResponse hj _

/-- An operation that reaches an idle reader does not reach a unit inside a command, so the claim is about the others. -/
theorem asReader_stays {α : Type} {f : Reader → Ran α} (hf : j ≠ h → ∀ r, (f r).Leads (StaysInside j) s) :
    (asReader h s f).Leads (StaysInside j) s := by
  refine asReader_post fun r hu hi => ?_
  by_cases hj : j = h
  · have idle : ∀ t, StaysInside j s t := fun t hin => by simp [State.insideCommand, hj, hu, hi] at hin
    exact Ran.post_of_forall _ idle
  · exact hf hj r

theorem asWriter_stays {α : Type} {f : Writer → Ran α} (hf : j ≠ h → ∀ w, (f w).Leads (StaysInside j) s) :
    (asWriter h s f).Leads (StaysInside j) s := by
  refine asWriter_post fun w hu hi => ?_
  by_cases hj : j = h
  · have idle : ∀ t, StaysInside j s t := fun t hin => by simp [State.insideCommand, hj, hu, hi] at hin
    exact Ran.post_of_forall _ idle
  · exact hf hj w

/-! ### Readers -/

section Reading

variable {src : Binding → State → Ran SrcReply} (hsrc : ∀ b s, (src b s).Leads (StaysInside j) s)
include hsrc

theorem refillIfEmpty_stays (hj : j ≠ h) (need : Nat) (result : Byte) (s : State) :
    (refillIfEmpty src h need result s).Leads (StaysInside j) s := by
  have key := hsrc (s.readerAt h).src s
  unfold refillIfEmpty refill
  split
  · split
    · next he => rw [he] at key; exact StaysInside.trans key (stays_setUnit hj _ _)
    · next he => rw [he] at key; exact key
    · next he => rw [he] at key; exact StaysInside.trans key (stays_setUnit hj _ _)
    · trivial
    · trivial
  · exact fun _ => SameAt.refl s j

theorem readChunks_stays (hj : j ≠ h) (passes : Nat) : ∀ need result s,
    (readChunks src h passes need result s).Leads (StaysInside j) s := by
  induction passes with
  | zero => exact fun _ _ _ => trivial
  | succ passes ih =>
    intro need result s
    refine Ran.leads_bind (staysInside_isTrans j) (refillIfEmpty_stays hsrc hj need result s) fun st t => ?_
    cases st with
    | err e => exact respond_stays hj _ _ t
    | ok =>
      simp only
      refine Ran.leads_after (staysInside_isTrans j) (stays_setUnit hj t (.reader ((t.readerAt h).take need).1)) ?_
      split
      · exact respond_stays hj _ _ _
      · exact ih _ _ _

theorem rdBitsVia_stays (h N : Nat) (s : State) : (rdBitsVia src h N s).Leads (StaysInside j) s :=
  asReader_stays fun hj _ => readChunks_stays hsrc hj 2 _ _ s

end Reading

theorem srcRead_stays (depth : Nat) : ∀ owner b s, (srcRead depth owner b s).Leads (StaysInside j) s := by
  have external : ∀ k s, (pullSource k s).Leads (StaysInside j) s := by
    intro k s
    unfold pullSource
    split
    · exact fun _ => SameAt.refl s j
    · exact fun _ => SameAt.refl s j
    · trivial
    · trivial
  induction depth with
  | zero =>
    intro owner b s
    cases b with
    | external k => exact external k s
    | adapter g => trivial
  | succ depth ih =>
    intro owner b s
    cases b with
    | external k => exact external k s
    | adapter g =>
      simp only [srcRead]
      split
      · exact Ran.leads_bind (staysInside_isTrans j) (rdBitsVia_stays (ih g) g 8 s) fun _ t _ => SameAt.refl t j
      · trivial

theorem rdBits_stays (h N : Nat) (s : State) : (rdBits h N s).Leads (StaysInside j) s :=
  rdBitsVia_stays (srcRead_stays h h) h N s

/-! ### Writers -/

section Writing

variable {snk : Binding → Byte → State → Ran SinkReply} (hsnk : ∀ k b s, (snk k b s).Leads (StaysInside j) s)
include hsnk

theorem emit_stays (hj : j ≠ h) (b v : Byte) (need : Nat) (s : State) :
    (emit snk h b v need s).Leads (StaysInside j) s := by
  have key := hsnk (s.writerAt h).snk b s
  unfold emit
  split
  · next he => rw [he] at key; exact StaysInside.trans key (stays_setUnit hj _ _)
  · next he => rw [he] at key; exact StaysInside.trans key (stays_setUnit hj _ _)
  · next he => rw [he] at key; exact StaysInside.trans key (stays_setUnit hj _ _)
  · trivial
  · trivial

theorem writeChunks_stays (hj : j ≠ h) (v : Byte) (passes : Nat) : ∀ need s,
    (writeChunks snk h v passes need s).Leads (StaysInside j) s := by
  induction passes with
  | zero =>
    intro need s
    cases need with
    | zero => exact respond_stays hj _ _ s
    | succ need => trivial
  | succ passes ih =>
    intro need s
    cases need with
    | zero => exact respond_stays hj _ _ s
    | succ need =>
      refine Ran.leads_after (staysInside_isTrans j) (stays_setUnit hj s (.writer ((s.writerAt h).place v (need + 1)))) ?_
      simp only [writeChunks]
      split
      · refine Ran.leads_bind (staysInside_isTrans j) (emit_stays hsnk hj _ v _ _) fun st t => ?_
        cases st with
        | err e => exact respond_stays hj _ _ t
        | ok => exact ih _ t
      · exact ih _ _

theorem wrBitsVia_stays (h V N : Nat) (s : State) : (wrBitsVia snk h V N s).Leads (StaysInside j) s :=
  asWriter_stays fun hj _ => writeChunks_stays hsnk hj _ 2 _ s

end Writing

theorem sinkWrite_stays (depth : Nat) : ∀ owner k b s, (sinkWrite depth owner k b s).Leads (StaysInside j) s := by
  have external : ∀ k b s, (offerSink k b s).Leads (StaysInside j) s := by
    intro k b s
    unfold offerSink
    split
    · exact fun _ => SameAt.refl s j
    · exact fun _ => SameAt.refl s j
    · trivial
  induction depth with
  | zero =>
    intro owner k b s
    cases k with
    | external k => exact external k b s
    | adapter g => trivial
  | succ depth ih =>
    intro owner k b s
    cases k with
    | external k => exact external k b s
    | adapter g =>
      simp only [sinkWrite]
      split
      · exact Ran.leads_bind (staysInside_isTrans j) (wrBitsVia_stays (ih g) g _ 8 s) fun _ t _ => SameAt.refl t j
      · trivial

theorem wrBits_stays (h V N : Nat) (s : State) : (wrBits h V N s).Leads (StaysInside j) s :=
  wrBitsVia_stays (sinkWrite_stays h h) h V N s

theorem wrFlush_stays (h : Nat) (s : State) : (wrFlush h s).Leads (StaysInside j) s := by
  refine asWriter_stays fun hj w => ?_
  split
  · exact respond_stays hj _ _ s
  · refine Ran.leads_bind (staysInside_isTrans j) (emit_stays (sinkWrite_stays h h) hj _ _ _ s) fun st t => ?_
    cases st with
    | ok => exact respond_stays hj _ _ t
    | err e => exact respond_stays hj _ _ t

end Inside

theorem staysInside_kept (j : Nat) : KeptByCommands (StaysInside j) where
  trans := staysInside_isTrans j
  host hu _ _ hr := fun _ => ⟨by rw [hu], by rw [State.responsesOf, hr]; rfl⟩
  addUnit := stays_addUnit
  rdBits := rdBits_stays
  rdCount _ s := asReader_stays fun hj _ => respond_stays hj _ _ s
  wrBits := wrBits_stays
  wrFlush := wrFlush_stays
  wrCount _ s := asWriter_stays fun hj _ => respond_stays hj _ _ s

/-- Settles O11: a command reaches only idle units, directly and through adapters, so one inside a command stays as it is
in every operation. -/
theorem instancesInsideACommandStayThere : Obligations.InstancesInsideACommandStayThere :=
  fun _ _ j hin => ⟨fun _ ht => (staysInside_kept j).exec ht hin, fun ht => (staysInside_kept j).step ht hin⟩

/-! ## Writing groups into a sink that accepts everything -/

/-- The writer at `h` is `w`, between commands, and its external sink `k` accepts every byte; of the bytes that the sink has
accepted, those after `before` are the writer's. -/
structure WriterReady (before : List Byte) (h k : Nat) (s : State) (w : Writer) : Prop where
  unit     : s.units[h]? = some (.writer w)
  idle     : w.micro = .idle
  ok       : w.Ok
  snk      : w.snk = .external k
  wf       : portWf Sink.untouched s.sinks
  script   : (s.sink k).script = []
  tail     : (s.sink k).tail = .always (.reply .ok)
  accepted : (s.sink k).accepted = before ++ w.accepted

section Writing

variable {before : List Byte} {h k : Nat} {s t : State} {w w' : Writer}

/-- Fields of the host do not matter. -/
theorem WriterReady.congr (hr : WriterReady before h k s w) (hu : t.units = s.units) (hk : t.sinks = s.sinks) :
    WriterReady before h k t w where
  unit := hu ▸ hr.unit
  idle := hr.idle
  ok := hr.ok
  snk := hr.snk
  wf := hk ▸ hr.wf
  script := State.sink_congr hk k ▸ hr.script
  tail := State.sink_congr hk k ▸ hr.tail
  accepted := State.sink_congr hk k ▸ hr.accepted

theorem Sink.next_accepts {x : Sink} (hs : x.script = []) (ht : x.tail = .always (.reply .ok)) (k : Nat) :
    x.next k = .reply .ok := by
  simp [Sink.next, hs, ht]

theorem WriterReady.next (hr : WriterReady before h k s w) : (s.sink k).next k = .reply .ok :=
  Sink.next_accepts hr.script hr.tail k

theorem Sink.accepted_advance_ok (x : Sink) (b : Byte) : (x.advance b .ok).accepted = x.accepted ++ [b] := by
  simp [Sink.accepted, Sink.advance]

/-- A command that has made no offer leaves the sink ready. -/
theorem WriterReady.placed (hr : WriterReady before h k s w) (hu : t.units[h]? = some (.writer w')) (hi : w'.micro = .idle)
    (ok : w'.Ok) (hsnk : w'.snk = .external k) (hwf : portWf Sink.untouched t.sinks) (hk : t.sink k = s.sink k)
    (hacc : w'.accepted = w.accepted) : WriterReady before h k t w' where
  unit := hu
  idle := hi
  ok := ok
  snk := hsnk
  wf := hwf
  script := hk ▸ hr.script
  tail := hk ▸ hr.tail
  accepted := by rw [hk, hacc, hr.accepted]

/-- A command whose one offer has been accepted leaves the sink ready, with that byte the writer's last. -/
theorem WriterReady.offered (hr : WriterReady before h k s w) (hu : t.units[h]? = some (.writer w')) (hi : w'.micro = .idle)
    (ok : w'.Ok) (hsnk : w'.snk = .external k) (hwf : portWf Sink.untouched t.sinks) {b : Byte}
    (hk : t.sink k = (s.sink k).advance b .ok) (hacc : w'.accepted = w.accepted ++ [b]) :
    WriterReady before h k t w' where
  unit := hu
  idle := hi
  ok := ok
  snk := hsnk
  wf := hwf
  script := by rw [hk, Sink.advance, hr.script]; rfl
  tail := by rw [hk, ← hr.tail]; rfl
  accepted := by rw [hk, Sink.accepted_advance_ok, hacc, hr.accepted, List.append_assoc]

theorem wrBits_ready (hr : WriterReady before h k s w) (V N : Nat) :
    ∃ t w', wrBits h V N s = .done { status := .ok, data := 0x00 } t ∧ WriterReady before h k t w' ∧
      t.queue = s.queue ∧ w'.stream = w.stream ++ bitsOf (valueOperand V (clamp8 N)) (clamp8 N) := by
  obtain ⟨t, w', hd, hu, ok, hi, hsnk, hwf, -, hstr, hcase⟩ :=
    wrBits_accepted (V := V) (N := N) hr.wf hr.unit hr.idle hr.ok hr.snk fun _ => hr.next
  have frame := wrBits_frame h V N s
  rw [hd] at frame
  refine ⟨t, w', hd, ?_, frame.queue, hstr⟩
  rcases hcase with ⟨-, hacc, hk⟩ | ⟨-, b, hacc, hk⟩
  · exact hr.placed hu hi ok hsnk hwf hk hacc
  · exact hr.offered hu hi ok hsnk hwf hk hacc

/-- WR.FLUSH pads the writer's stream with zeros to whole bytes, all of them accepted (R82). -/
theorem wrFlush_ready (hr : WriterReady before h k s w) :
    ∃ t w', wrFlush h s = .done { status := .ok, data := 0x00 } t ∧ WriterReady before h k t w' ∧
      ∃ pad, streamOf w'.accepted = w.stream ++ List.replicate pad false := by
  by_cases hf : w.filled = 0
  · refine ⟨_, w, wrFlush_empty hr.unit hr.idle hf, hr.congr rfl rfl, 0, ?_⟩
    simp [Writer.stream, hf, bitsOf]
  · have h7 := Writer.filled_of_idle hr.ok hr.idle
    rw [wrFlush_partial hr.unit hr.idle hf, hr.snk, sinkWrite_external, offerSink_reply _ hr.next]
    refine ⟨_, w.afterAccepted w.flushByte, rfl, ?_, 8 - w.filled, ?_⟩
    · exact hr.offered (State.setUnit_get_same _ (lt_of_get hr.unit)) hr.idle (Writer.ok_emptied hr.idle rfl rfl) hr.snk
        (portSet_wf _ _ _ hr.wf) (State.sink_setSink_same s _ hr.wf) rfl
    · rw [Writer.stream, List.append_assoc, ← Writer.flushByte_bits (by omega), ← streamOf_singleton, ← streamOf_append]
      rfl

/-- The groups of a run of WR.BITS words, then a WR.FLUSH, are the bits of the bytes accepted, up to padding. -/
theorem run_writeWords_flush (groups : List (Nat × Nat)) : ∀ {s : State} {w : Writer},
    (∀ g ∈ groups, g.1 < 256 ∧ g.2 < 256) → WriterReady before h k s w →
    s.queue = writeWords h groups ++ [.word h 0x82000000] →
    ∃ t w', Host.Core.run Sys2Proof.core (groups.length + 1) s = .next t ∧ WriterReady before h k t w' ∧
      ∃ pad, streamOf w'.accepted = w.stream ++ fieldBits groups ++ List.replicate pad false := by
  induction groups with
  | nil =>
    intro s w _ hr hq
    obtain ⟨t, w', hd, hr', pad, hstr⟩ :=
      wrFlush_ready (s := s.takeOp h []) (hr.congr rfl rfl)
    have hstep : step s = (wrFlush h (s.takeOp h [])).finish .response := step_word hq rfl
    rw [hd] at hstep
    refine ⟨_, w', run_succ 0 hstep, hr'.congr rfl rfl, pad, ?_⟩
    simpa [fieldBits] using hstr
  | cons g groups ih =>
    obtain ⟨V, N⟩ := g
    intro s w hg hr hq
    obtain ⟨hV, hN⟩ := hg (V, N) List.mem_cons_self
    obtain ⟨t, w', hd, hr', hq', hstr⟩ :=
      wrBits_ready (s := s.takeOp h (writeWords h groups ++ [.word h 0x82000000])) (hr.congr rfl rfl) V N
    have hstep := step_writeWord hq hV hN
    rw [hd] at hstep
    obtain ⟨u, w2, hrun, hr2, pad, hstr2⟩ :=
      ih (fun g' hm => hg g' (List.mem_cons_of_mem _ hm))
        (hr'.congr (t := { t with returned := some (.response { status := .ok, data := 0x00 }) }) rfl rfl) hq'
    refine ⟨u, w2, (run_succ _ hstep).trans hrun, hr2, pad, ?_⟩
    rw [hstr2, hstr]
    simp [fieldBits]

end Writing

/-! ## Reading groups from a source that delivers their bytes -/

/-- The reader at `h` is `r`, between commands, and its external source `k` is yet to deliver what remains of `bytes`, of
which it has delivered the others to this reader. -/
structure ReaderReady (bytes : List Byte) (h k : Nat) (s : State) (r : Reader) : Prop where
  unit   : s.units[h]? = some (.reader r)
  idle   : r.micro = .idle
  ok     : r.Ok
  src    : r.src = .external k
  wf     : portWf Source.untouched s.sources
  script : ∃ rest, (s.source k).script = deliveries rest [] ∧ r.delivered ++ rest = bytes

section Reading

variable {bytes : List Byte} {h k : Nat} {s t : State} {r : Reader}

theorem ReaderReady.congr (hr : ReaderReady bytes h k s r) (hu : t.units = s.units) (hs : t.sources = s.sources) :
    ReaderReady bytes h k t r where
  unit := hu ▸ hr.unit
  idle := hr.idle
  ok := hr.ok
  src := hr.src
  wf := hs ▸ hr.wf
  script := State.source_congr hs k ▸ hr.script

/-- RD.BITS answers with the group that is next in the source's bit stream (R71). -/
theorem rdBits_ready (hr : ReaderReady bytes h k s r) {N : Nat} (h1 : 1 ≤ clamp8 N) {v : Byte} (hv : v >>> clamp8 N = 0)
    {later : List Bool} (hnext : (streamOf bytes).drop r.position = bitsOf v (clamp8 N) ++ later) :
    ∃ t r', rdBits h N s = .done { status := .ok, data := v } t ∧ ReaderReady bytes h k t r' ∧
      (streamOf bytes).drop r'.position = later ∧ t.queue = s.queue ∧
      t.responses = s.responses ++ [(h, { status := .ok, data := v })] := by
  obtain ⟨rest, hscript, hbytes⟩ := hr.script
  have hcount := Reader.count_le_delivered hr.ok
  have enough : clamp8 N ≤ r.count + 8 * rest.length := by
    have hlen := congrArg List.length hnext
    simp only [List.length_drop, List.length_append, streamOf_length, bitsOf_length, ← hbytes, Reader.position] at hlen
    omega
  obtain ⟨d, t, r', rest', hd, hu', ok', hi', hsrc', hwf', hscript', -, hbytes', -, hz, hreads, hresp⟩ :=
    rdBits_served hr.wf hr.unit hr.idle hr.ok hr.src hscript h1 enough
  have hpos : r'.position = r.position + clamp8 N := by rw [hreads.position, bitsOf_length]
  have taken : bitsOf d (clamp8 N) = bitsOf v (clamp8 N) := by
    have hpre : streamOf r'.delivered <+: streamOf bytes := streamOf_prefix ⟨rest', hbytes'.trans hbytes⟩
    have hd' := hreads.taken
    rw [bitsOf_length, ← take_drop_prefix hpre (hpos ▸ r'.position_le), hnext, List.take_left' (bitsOf_length _ _)] at hd'
    exact hd'.symm
  obtain rfl : d = v := eq_of_bitsOf_eq hz hv taken
  have frame := rdBits_frame h N s
  rw [hd] at frame
  refine ⟨t, r', hd, ⟨hu', hi', ok', hsrc', hwf', rest', hscript', hbytes'.trans hbytes⟩, ?_, frame.queue, hresp⟩
  rw [hpos, ← List.drop_drop, hnext, List.drop_left' (bitsOf_length _ _)]

/-- A run of RD.BITS words answers with the groups whose bits are next in the source's stream. -/
theorem run_readWords (groups : List (Nat × Nat)) : ∀ {s : State} {r : Reader} {later : List Bool},
    (∀ g ∈ groups, 1 ≤ g.2 ∧ g.2 < 256) → ReaderReady bytes h k s r →
    (streamOf bytes).drop r.position = fieldBits groups ++ later → s.queue = readWords h (groups.map Prod.snd) →
    ∃ t, Host.Core.run Sys2Proof.core groups.length s = .next t ∧
      t.responses = s.responses ++
        groups.map fun g => (h, { status := .ok, data := valueOperand g.1 (clamp8 g.2) }) := by
  induction groups with
  | nil => exact fun _ _ _ _ => ⟨_, rfl, by simp⟩
  | cons g groups ih =>
    obtain ⟨V, N⟩ := g
    intro s r later hg hr hnext hq
    obtain ⟨h1, hN⟩ := hg (V, N) List.mem_cons_self
    have h1' : 1 ≤ clamp8 N := by simp only [clamp8]; omega
    obtain ⟨t, r', hd, hr', hnext', hq', hresp⟩ :=
      rdBits_ready (s := s.takeOp h (readWords h (groups.map Prod.snd) ++ [])) (hr.congr rfl rfl) h1'
        (and_mask_shiftRight_eq_zero (BitVec.ofNat 8 V) (clamp8_le N)) (later := fieldBits groups ++ later)
        (by rw [hnext]; simp [fieldBits, valueOperand])
    have hstep := step_readWord (rest := []) (hq.trans (List.append_nil _).symm) hN
    rw [hd] at hstep
    obtain ⟨u, hrun, hresp2⟩ :=
      ih (s := { t with returned := some (.response { status := .ok, data := valueOperand V (clamp8 N) }) })
        (fun g' hm => hg g' (List.mem_cons_of_mem _ hm)) (hr'.congr rfl rfl) hnext' (hq'.trans (List.append_nil _))
    refine ⟨u, (run_succ _ hstep).trans hrun, ?_⟩
    rw [hresp2]
    simp only [hresp, List.map_cons, List.append_assoc, List.singleton_append]
    rfl

end Reading

/-- Settles O48: the flushed bytes are the bits of the groups and a padding (`run_writeWords_flush`), and reading with the
same widths takes from a stream that begins so just these groups (`run_readWords`). -/
theorem roundTrip : Obligations.RoundTrip := by
  intro groups s h k hg hwf hu hscript htail hq
  have start : WriterReady (s.sink k).accepted h k s (Writer.fresh (.external k)) :=
    ⟨hu, rfl, Writer.ok_fresh _, rfl, hwf, hscript, htail, (List.append_nil _).symm⟩
  obtain ⟨t, w, hrun, hr, pad, hstr⟩ :=
    run_writeWords_flush groups (fun g hm => by have := hg g hm; omega) start hq
  refine ⟨t, w, hrun, hr.unit, hr.accepted, fun s2 h2 k2 hwf2 hu2 hscript2 hq2 => ?_⟩
  have start2 : ReaderReady w.accepted h2 k2 s2 (Reader.fresh (.external k2)) :=
    ⟨hu2, rfl, Reader.ok_fresh _, rfl, hwf2, w.accepted, hscript2.trans (List.append_nil _).symm, rfl⟩
  obtain ⟨t2, hrun2, hresp⟩ :=
    run_readWords groups (later := List.replicate pad false) (fun g hm => by have := hg g hm; omega) start2
      (by simpa [Reader.position, Reader.fresh, Writer.stream, Writer.fresh, bitsOf] using hstr) hq2
  refine ⟨t2, hrun2, ?_⟩
  rw [hresp]
  congr 1
  refine List.map_congr_left fun g hm => ?_
  obtain ⟨-, -, h8⟩ := hg g hm
  rw [valueOperand, clamp8, Nat.min_eq_left h8]

end Sys2Proof.Machine

/-! PROOFS. The statements about the encoding (`30_encoding.md`): command words and the words refused, operands, aliases and
assembled lines, the response word, and the one response of each command with its data. -/

namespace Sys2Proof.Machine

/-! ## Words and commands -/

/-- Decoding the word of an instruction that the assembler accepts gives the instruction's canonical command. -/
theorem decode_of_encode {i : Instr} {w : Word} (hi : i.wellFormed = true) (he : encode i = some w) :
    decode w = .command i.canonical := by
  cases i with
  | rdBits N => exact Laws.Encoding.rdBits N hi w he
  | rdCount => exact Laws.Encoding.rdCount hi w he
  | wrBits V N => exact Laws.Encoding.wrBits V N hi w he
  | wrFlush => exact Laws.Encoding.wrFlush hi w he
  | wrCount => exact Laws.Encoding.wrCount hi w he
  | rdBit => exact Laws.Encoding.rdBit hi w he
  | rdBool => exact Laws.Encoding.rdBool hi w he
  | wrBit b => exact Laws.Encoding.wrBit b hi w he
  | wrBool t => exact Laws.Encoding.wrBool t hi w he
  | _ => cases he

theorem wellFormed_rdBits_field (n : Byte) : (Instr.rdBits n.toNat).wellFormed = true := by
  simpa [Instr.wellFormed, fitsField] using n.isLt

theorem wellFormed_wrBits_field (v n : Byte) : (Instr.wrBits v.toNat n.toNat).wellFormed = true := by
  simpa [Instr.wellFormed, fitsField] using ⟨v.isLt, n.isLt⟩

/-- A command that a word decodes to is an accepted canonical one with that word. -/
theorem encode_of_decode {w : Word} {i : Instr} (hd : decode w = .command i) :
    i.wellFormed = true ∧ i.canonical = i ∧ encode i = some w := by
  obtain ⟨hw, rfl⟩ | ⟨hw, rfl⟩ | ⟨hw, rfl⟩ | ⟨hw, rfl⟩ | ⟨hw, rfl⟩ := decode_command hd
  · exact ⟨wellFormed_rdBits_field _, rfl, congrArg some hw.symm⟩
  · exact ⟨rfl, rfl, congrArg some hw.symm⟩
  · exact ⟨wellFormed_wrBits_field _ _, rfl, congrArg some hw.symm⟩
  · exact ⟨rfl, rfl, congrArg some hw.symm⟩
  · exact ⟨rfl, rfl, congrArg some hw.symm⟩

/-- Settles O1: a decoded word is the command's own word by the table of R57 (`encode_of_decode`), and the word of an accepted
instruction decodes to its canonical command, here itself (`decode_of_encode`). -/
theorem decodeInvertsEncode : Obligations.DecodeInvertsEncode := by
  intro w i
  refine ⟨encode_of_decode, fun ⟨accepted, canonical, word⟩ => ?_⟩
  rw [decode_of_encode accepted word, canonical]

/-! ## Refused words -/

theorem bareCommand_refused_iff (w : Word) (i : Instr) :
    (∃ why, bareCommand w i = .refused why) ↔ widthField w ≠ 0 ∨ valueField w ≠ 0 := by
  by_cases hn : widthField w = 0#8
  · by_cases hv : valueField w = 0#8
    · simp [bareCommand, hn, hv]
    · simp [bareCommand, hn, hv]
  · simp [bareCommand, hn]

/-- R64, read from the decoder opcode by opcode. -/
theorem decode_refused_iff (w : Word) :
    (∃ why, decode w = .refused why) ↔
      opcField w ∉ ([0x01, 0x02, 0x81, 0x82, 0x83] : List Byte) ∨ rsvField w ≠ 0 ∨
      (opcField w = 0x01 ∧ valueField w ≠ 0) ∨
      (opcField w ∈ ([0x02, 0x82, 0x83] : List Byte) ∧ (widthField w ≠ 0 ∨ valueField w ≠ 0)) := by
  by_cases hr : rsvField w = 0#8
  · by_cases h01 : opcField w = 0x01#8
    · by_cases hv : valueField w = 0#8
      · simp [decode, hr, h01, hv]
      · simp [decode, hr, h01, hv]
    · by_cases h02 : opcField w = 0x02#8
      · simpa [decode, hr, h02] using bareCommand_refused_iff w .rdCount
      · by_cases h81 : opcField w = 0x81#8
        · simp [decode, hr, h81]
        · by_cases h82 : opcField w = 0x82#8
          · simpa [decode, hr, h82] using bareCommand_refused_iff w .wrFlush
          · by_cases h83 : opcField w = 0x83#8
            · simpa [decode, hr, h83] using bareCommand_refused_iff w .wrCount
            · simp [decode, hr, h01, h02, h81, h82, h83]
  · simp [decode, hr]

/-- OPC[7] names the kind of unit a command word goes to (R56). -/
theorem kindOfWord_eq (w : Word) : kindOfWord w = if (opcField w).getLsbD 7 then .writer else .reader := by
  simp [kindOfWord, opcField]

section Refused

variable {s : State} {h : Nat}

theorem asReader_wrongKind {α : Type} {u : BitUnit} (hu : s.units[h]? = some u) (hk : u.kind ≠ .reader)
    (f : Reader → Ran α) : asReader h s f = .refused (.wrongKind h) := by
  cases u with
  | reader r => exact absurd rfl hk
  | writer w => simp only [asReader, hu]

theorem asWriter_wrongKind {α : Type} {u : BitUnit} (hu : s.units[h]? = some u) (hk : u.kind ≠ .writer)
    (f : Writer → Ran α) : asWriter h s f = .refused (.wrongKind h) := by
  cases u with
  | reader r => simp only [asWriter, hu]
  | writer w => exact absurd rfl hk

theorem step_refusedWord {w : Word} {rest : List HostOp} {why : DecodeError} (hq : s.queue = .word h w :: rest)
    (hd : decode w = .refused why) : step s = .refused (.undecodable why) := by
  simp only [step, State.fetch, hq, hd]

/-- A decoded command does nothing to a unit of the other kind. -/
theorem exec_wrongKind {w : Word} {i : Instr} {u : BitUnit} (hd : decode w = .command i)
    (hu : s.units[s.target]? = some u) (hk : u.kind ≠ kindOfWord w) : exec i s = .refused (.wrongKind s.target) := by
  obtain ⟨hw, rfl⟩ | ⟨hw, rfl⟩ | ⟨hw, rfl⟩ | ⟨hw, rfl⟩ | ⟨hw, rfl⟩ := decode_command hd
  all_goals rw [kindOfWord_eq, hw, opcField_cmd32] at hk
  · exact congrArg (Ran.finish _) (asReader_wrongKind hu hk _)
  · exact congrArg (Ran.finish _) (asReader_wrongKind hu hk _)
  · exact congrArg (Ran.finish _) (asWriter_wrongKind hu hk _)
  · exact congrArg (Ran.finish _) (asWriter_wrongKind hu hk _)
  · exact congrArg (Ran.finish _) (asWriter_wrongKind hu hk _)

end Refused

/-- Settles O2: the refused words are read from the decoder (`decode_refused_iff`), fetching one refuses the step, and a
command of the other kind is refused by the unit (`exec_wrongKind`). -/
theorem refusedWordsGetNoStep : Obligations.RefusedWordsGetNoStep := by
  refine ⟨decode_refused_iff, fun s h w rest why hq hd => step_refusedWord hq hd, fun s h w rest i u hq hd hu hk => ?_⟩
  rw [step_word hq hd]
  exact exec_wrongKind (s := s.takeOp h rest) hd hu hk

/-! ## Widths and values -/

section Operands

variable {s : State} {h : Nat}

theorem clamp8_of_ge {N : Nat} (hN : 8 ≤ N) : clamp8 N = clamp8 8 := Nat.min_eq_right hN

theorem rdBits_of_clamp8 {N N' : Nat} (hn : clamp8 N = clamp8 N') : rdBits h N s = rdBits h N' s := by
  simp only [rdBits, rdBitsVia, hn]

theorem wrBits_of_clamp8 {V V' N N' : Nat} (hn : clamp8 N = clamp8 N')
    (hv : valueOperand V (clamp8 N) = valueOperand V' (clamp8 N)) : wrBits h V N s = wrBits h V' N' s := by
  rw [hn] at hv
  simp only [wrBits, wrBitsVia, hn, hv]

/-- The value operand depends on the low `n` bits alone (R60). -/
theorem valueOperand_congr {V V' n : Nat} (hn : n ≤ 8) (hv : V % 2 ^ n = V' % 2 ^ n) :
    valueOperand V n = valueOperand V' n := by
  apply BitVec.eq_of_getLsbD_eq
  intro i _
  simp only [valueOperand, BitVec.getLsbD_and, mask_getLsbD hn, BitVec.getLsbD_ofNat]
  by_cases hin : i < n
  · have bit := congrArg (Nat.testBit · i) hv
    simp only [Nat.testBit_mod_two_pow, hin, decide_true, Bool.true_and] at bit
    rw [bit]
  · simp [hin]

end Operands

/-- Settles O5: both commands read a width through `clamp8` alone and WR.BITS a value through `valueOperand` alone. -/
theorem widthsClampAndValuesMask : Obligations.WidthsClampAndValuesMask := by
  intro s N V
  refine ⟨fun hN => ⟨?_, ?_⟩, fun V' hV => ?_⟩
  · exact congrArg (Ran.finish .response) (rdBits_of_clamp8 (clamp8_of_ge hN))
  · exact congrArg (Ran.finish .response) (wrBits_of_clamp8 (clamp8_of_ge hN) rfl)
  · exact congrArg (Ran.finish .response) (wrBits_of_clamp8 rfl (valueOperand_congr (clamp8_le N) hV))

/-! ## Aliases, assembled lines and the examples -/

/-- Every instruction but RD.BOOL does what its canonical command does (R66). -/
theorem exec_canonical {i : Instr} (hi : i ≠ .rdBool) (s : State) : exec i s = exec i.canonical s := by
  cases i with
  | rdBool => exact absurd rfl hi
  | _ => rfl

/-- RD.BOOL does what RD.BITS 1 does, and the host reads the response as a boolean (R73). -/
theorem exec_rdBool (s : State) :
    exec .rdBool s = mapNext (fun t => { t with returned := t.returned.map Returned.asBoolean }) (exec (.rdBits 1) s) := by
  show (rdBits s.target 1 s).finish _ = mapNext _ ((rdBits s.target 1 s).finish _)
  cases rdBits s.target 1 s with
  | done resp t => rfl
  | blocked t => rfl
  | fault f => rfl
  | refused q => rfl

/-- Settles O3: the words are those of the encoder, they decode to the canonical commands (`decode_of_encode`), and execution
agrees (`exec_canonical`, `exec_rdBool`). -/
theorem aliasesAreTheirCanonicalCommands : Obligations.AliasesAreTheirCanonicalCommands := by
  refine ⟨by decide, by decide, by decide, by decide, by decide, by decide, fun b => ?_, fun i w => decode_of_encode,
    fun s => ⟨exec_canonical (i := .rdBit) nofun s, exec_rdBool s, fun b => exec_canonical (i := .wrBit b) nofun s,
      exec_canonical (i := .wrBool true) nofun s, exec_canonical (i := .wrBool false) nofun s⟩⟩
  simp only [Instr.wellFormed, decide_eq_true_eq]
  omega

/-- Settles O4: the table by evaluation, and the two raw widths of 42 by the clamping of `widthsClampAndValuesMask`. -/
theorem encodingExamples : Obligations.EncodingExamples := by
  refine ⟨by decide, fun s => ?_, by decide, by decide, by decide, by decide⟩
  obtain ⟨clamps, -⟩ := widthsClampAndValuesMask s 42 0xFF
  exact clamps (by decide)

/-- Settles O8: the line runs its instruction and the word the canonical command, which does the same. -/
theorem assembledLineRunsAsItsWord : Obligations.AssembledLineRunsAsItsWord := by
  intro s h i w rest accepted word hi
  rw [step_line rfl accepted, step_word rfl (decode_of_encode accepted word), exec_canonical hi]
  rfl

/-! ## The response word -/

theorem responseWord_fields (r : Response) :
    r.word.extractLsb' 24 8 = r.status.code ∧ r.word.extractLsb' 8 16 = 0 ∧ r.word.extractLsb' 0 8 = r.data :=
  ⟨(BitVec.extractLsb'_append_eq_of_le (by decide)).trans BitVec.extractLsb'_append_eq_left,
    (BitVec.extractLsb'_append_eq_of_le (by decide)).trans BitVec.extractLsb'_append_eq_right,
    BitVec.extractLsb'_append_eq_right⟩

/-- The map `k ↦ 3 + k` stays within a byte on the numbers of the first 253 codes. -/
theorem toNat_three_add {k : Nat} (hk : k < 253) : (BitVec.ofNat 8 (3 + k)).toNat = 3 + k := by
  simp only [BitVec.toNat_ofNat]
  omega

/-- The map of error codes is one that R62 allows, whichever it is. -/
theorem errCode_allowed : ErrCodeAllowed errCode := by
  by_cases allowed : ErrCodeAllowed Config.errCodeParameter
  · have same : ∀ k : Fin 253, errCode k = Config.errCodeParameter k := fun k => by
      rw [errCode, if_pos allowed, Nat.mod_eq_of_lt k.isLt]
    simpa only [ErrCodeAllowed, same] using allowed
  · have same : ∀ k : Fin 253, (errCode k).toNat = 3 + k := fun k => by
      rw [errCode, if_neg allowed, Nat.mod_eq_of_lt k.isLt, toNat_three_add k.isLt]
    refine ⟨fun k => by rw [same]; omega, fun i j hij => ?_⟩
    have values := congrArg BitVec.toNat hij
    rw [same, same] at values
    exact Fin.ext (by omega)

theorem errCode_mod (k : Nat) : errCode k = errCode (k % 253) := by
  rw [errCode, errCode, Nat.mod_mod]

/-- Settles O6: the fields are the parts of the word, and STATUS of a further code is by a map that R62 allows on the first 253
numbers (`errCode_allowed`), which the later ones repeat (`errCode_mod`). -/
theorem responseWordFields : Obligations.ResponseWordFields := by
  obtain ⟨atLeast, oneToOne⟩ := errCode_allowed
  refine ⟨responseWord_fields, rfl, rfl, rfl, fun c => rfl, fun k => ?_, fun j k hj hk hjk => ?_⟩
  · rw [errCode_mod]
    exact atLeast ⟨k % 253, Nat.mod_lt k (by decide)⟩
  · exact congrArg Fin.val (oneToOne ⟨j, hj⟩ ⟨k, hk⟩ hjk)

/-! ## One response, or a wait for a stream that never answers -/

/-- From `s` to `t` the unit at `h` has delivered one response more and is between commands. -/
def Responded (h : Nat) (s t : State) : Prop :=
  (∃ r, t.responsesOf h = s.responsesOf h ++ [r]) ∧ t.insideCommand h = false

/-- The reader at `h` is inside a command that its source never answers. -/
def ReaderWaits (h : Nat) (t : State) : Prop :=
  ∃ r, t.units[h]? = some (.reader r) ∧ r.micro ≠ .idle ∧ t.SilentSource r.src

/-- The writer at `h` is inside a command that its sink never answers. -/
def WriterWaits (h : Nat) (t : State) : Prop :=
  ∃ w, t.units[h]? = some (.writer w) ∧ w.micro ≠ .idle ∧ t.SilentSink w.snk

/-- How a command on the unit at `h` ends: with a response, or, without one, in a state in which the unit `waits`. -/
abbrev Ran.EndsCommand (h : Nat) (waits : State → Prop) (s : State) (m : Ran Response) : Prop :=
  m.Post (fun _ => Responded h s) fun t => t.responsesOf h = s.responsesOf h ∧ waits t

section Ends

variable {h : Nat} {s t : State} {waits : State → Prop}

/-- A source that never answers still does not where the sources and the readers inside a command are as they were. -/
theorem State.SilentSource.congr {b : Binding} (hb : s.SilentSource b) (hs : t.sources = s.sources)
    (hu : ∀ (j : Nat) (r : Reader), s.units[j]? = some (.reader r) → r.micro ≠ .idle → t.units[j]? = some (.reader r)) :
    t.SilentSource b := by
  induction hb with
  | external k hn => exact .external k (State.source_congr hs k ▸ hn)
  | adapter g r hg hi _ ih => exact .adapter g r (hu g r hg hi) hi ih

/-- A sink likewise. -/
theorem State.SilentSink.congr {b : Binding} (hb : s.SilentSink b) (hs : t.sinks = s.sinks)
    (hu : ∀ (j : Nat) (w : Writer), s.units[j]? = some (.writer w) → w.micro ≠ .idle → t.units[j]? = some (.writer w)) :
    t.SilentSink b := by
  induction hb with
  | external k hn => exact .external k (State.sink_congr hs k ▸ hn)
  | adapter g w hg hi _ ih => exact .adapter g w (hu g w hg hi) hi ih

/-- A wait does not depend on the record of what an operation returned. -/
theorem ReaderWaits.returned (hw : ReaderWaits h t) (x : Option Returned) :
    State.waitsForEver { t with returned := x } h := by
  obtain ⟨r, hu, hi, silent⟩ := hw
  refine .inl ⟨r, hu, hi, ?_⟩
  exact silent.congr (t := { t with returned := x }) rfl fun _ _ hj _ => hj

theorem WriterWaits.returned (hw : WriterWaits h t) (x : Option Returned) :
    State.waitsForEver { t with returned := x } h := by
  obtain ⟨w, hu, hi, silent⟩ := hw
  refine .inr ⟨w, hu, hi, ?_⟩
  exact silent.congr (t := { t with returned := x }) rfl fun _ _ hj _ => hj

theorem insideCommand_reader {r : Reader} (hu : t.units[h]? = some (.reader r)) (hi : r.micro = .idle) :
    t.insideCommand h = false := by
  simp [State.insideCommand, hu, hi]

theorem insideCommand_writer {w : Writer} (hu : t.units[h]? = some (.writer w)) (hi : w.micro = .idle) :
    t.insideCommand h = false := by
  simp [State.insideCommand, hu, hi]

/-- A command that has delivered nothing so far and left its unit idle ends with a response. -/
theorem respond_ends (hi : t.insideCommand h = false) (hr : t.responsesOf h = s.responsesOf h) (st : Status) (d : Byte) :
    (respond h st d t).EndsCommand h waits s :=
  ⟨⟨_, by rw [responsesOf_addResponse, hr]⟩, hi⟩

/-- What has delivered no response so far may go on to the end of the command. -/
theorem Ran.EndsCommand.of_responses {m : Ran Response} (hm : m.EndsCommand h waits t)
    (hr : t.responsesOf h = s.responsesOf h) : m.EndsCommand h waits s := by
  refine Ran.post_mono hm ?_ ?_
  · rintro _ u ⟨⟨resp, hresp⟩, idle⟩
    exact ⟨⟨resp, hr ▸ hresp⟩, idle⟩
  · rintro u ⟨hnone, waiting⟩
    exact ⟨hnone.trans hr, waiting⟩

/-! ### Readers -/

section Reading

variable (hsrc : ∀ b s, (srcRead h h b s).Post (fun _ _ => True) (·.SilentSource b))

/-- An idle reader that begins to wait for a source that never answers. -/
theorem readerWaits_setUnit {r : Reader} (hu : t.units[h]? = some (.reader r)) (hi : r.micro = .idle)
    (silent : t.SilentSource r.src) (need : Nat) (held : Byte) :
    ReaderWaits h (t.setUnit h (.reader { r with micro := .waitSrc need held })) := by
  refine ⟨_, State.setUnit_get_same _ (lt_of_get hu), nofun, ?_⟩
  refine State.SilentSource.congr silent rfl fun j q hq busy => ?_
  have hj : j ≠ h := by
    rintro rfl
    obtain rfl : r = q := by simpa [hu] using hq
    exact busy hi
  rw [State.setUnit_get_other _ hj, hq]

include hsrc

theorem afterSrcRead_ends {r : Reader} (hu : s.units[h]? = some (.reader r)) (hi : r.micro = .idle) (need : Nat) (held : Byte) :
    (afterSrcRead h r need held (srcRead h h r.src s)).EndsCommand h (ReaderWaits h) s := by
  have frame := srcRead_frame h h r.src s
  have silent := hsrc r.src s
  cases he : srcRead h h r.src s with
  | done a t =>
    rw [he] at frame
    have hut := ReadFrame.reader_above frame le_rfl hu
    have hr := responsesOf_below frame.responses le_rfl
    cases a with
    | byte b =>
      refine respond_ends (insideCommand_reader (State.setUnit_get_same _ (lt_of_get hut)) ?_) hr _ _
      exact hi
    | err e => exact respond_ends (insideCommand_reader hut hi) hr _ _
  | blocked t =>
    rw [he] at frame silent
    have hut := ReadFrame.reader_above frame le_rfl hu
    exact ⟨responsesOf_below frame.responses le_rfl, readerWaits_setUnit hut hi silent need held⟩
  | fault f => trivial
  | refused q => trivial

theorem rdBits_ends_of (N : Nat) (s : State) : (rdBits h N s).EndsCommand h (ReaderWaits h) s := by
  refine asReader_post fun r hu hi => ?_
  by_cases hc : r.count = 0
  · rw [readChunks_empty (srcRead_frame h h) hu 1 0 hc (clamp8_le N)]
    exact afterSrcRead_ends hsrc hu hi _ _
  · rcases Nat.lt_or_ge r.count (clamp8 N) with hlt | hge
    · rw [readChunks_straddle (srcRead_frame h h) hu 0 0 hc hlt (clamp8_le N)]
      exact afterSrcRead_ends hsrc (State.setUnit_get_same (.reader r.drained) (lt_of_get hu)) hi _ _
    · rw [readChunks_held hu 1 0 hc hge]
      refine respond_ends (insideCommand_reader (State.setUnit_get_same _ (lt_of_get hu)) ?_) rfl _ _
      exact hi

end Reading

/-- A source transaction that blocks does so because the source never answers; through an adapter, by induction, the older
reader under it is left waiting. -/
theorem srcRead_silent_of_blocked (h : Nat) : ∀ b s, (srcRead h h b s).Post (fun _ _ => True) (·.SilentSource b) := by
  induction h using Nat.strong_induction_on with
  | _ h ih =>
    intro b s
    cases b with
    | external k =>
      rw [srcRead_external, pullSource]
      split
      · trivial
      · exact .external k ‹_›
      · trivial
      · trivial
    | adapter g =>
      by_cases hg : g < h
      · rw [srcRead_adapter hg]
        refine Ran.post_bind (Ran.post_mono (rdBits_ends_of (ih g hg) 8 s) (fun _ _ _ => trivial) ?_) fun _ _ _ => trivial
        rintro t ⟨-, r, hu, hi, silent⟩
        exact .adapter g r hu hi silent
      · cases h <;> simp [srcRead, hg]

theorem rdBits_ends (h N : Nat) (s : State) : (rdBits h N s).EndsCommand h (ReaderWaits h) s :=
  rdBits_ends_of (srcRead_silent_of_blocked h) N s

theorem rdCount_ends (h : Nat) (s : State) : (rdCount h s).EndsCommand h (ReaderWaits h) s :=
  asReader_post fun _ hu hi => respond_ends (insideCommand_reader hu hi) rfl _ _

/-! ### Writers -/

section Writing

variable (hsnk : ∀ k b s, (sinkWrite h h k b s).Post (fun _ _ => True) (·.SilentSink k))

/-- An idle writer that begins to wait for a sink that never answers. -/
theorem writerWaits_setUnit {w : Writer} (hu : t.units[h]? = some (.writer w)) (hi : w.micro = .idle)
    (silent : t.SilentSink w.snk) (v : Byte) (need : Nat) :
    WriterWaits h (t.setUnit h (.writer { w with micro := .waitSnk v need })) := by
  refine ⟨_, State.setUnit_get_same _ (lt_of_get hu), nofun, ?_⟩
  refine State.SilentSink.congr silent rfl fun j q hq busy => ?_
  have hj : j ≠ h := by
    rintro rfl
    obtain rfl : w = q := by simpa [hu] using hq
    exact busy hi
  rw [State.setUnit_get_other _ hj, hq]

include hsnk

/-- An emission that is answered leaves the writer idle and has delivered no response. -/
theorem emit_ends {w : Writer} (hu : s.units[h]? = some (.writer w)) (hi : w.micro = .idle) (b v : Byte) (need : Nat) :
    (emit (sinkWrite h h) h b v need s).Post
      (fun _ t => t.responsesOf h = s.responsesOf h ∧ ∃ w' : Writer, t.units[h]? = some (.writer w') ∧ w'.micro = .idle)
      fun t => t.responsesOf h = s.responsesOf h ∧ WriterWaits h t := by
  have frame := sinkWrite_frame h h w.snk b s
  have silent := hsnk w.snk b s
  simp only [emit, State.writerAt_of_get hu]
  cases he : sinkWrite h h w.snk b s with
  | done a t =>
    rw [he] at frame
    have hut := WriteFrame.writer_above frame le_rfl hu
    have hr := responsesOf_below frame.responses le_rfl
    cases a with
    | ok =>
      simp only [State.emptyWriter_of_get_ok hut]
      exact ⟨hr, _, State.setUnit_get_same _ (lt_of_get hut), hi⟩
    | err e =>
      simp only [State.emptyWriter_of_get_err hut]
      exact ⟨hr, _, State.setUnit_get_same _ (lt_of_get hut), hi⟩
  | blocked t =>
    rw [he] at frame silent
    have hut := WriteFrame.writer_above frame le_rfl hu
    simp only [State.holdWriter_of_get hut]
    exact ⟨responsesOf_below frame.responses le_rfl, writerWaits_setUnit hut hi silent v need⟩
  | fault f => trivial
  | refused q => trivial

/-- The loop of WR.BITS, from any idle writer: it need not be in its range. -/
theorem writeChunks_ends (v : Byte) (passes : Nat) : ∀ (need : Nat) {s : State} {w : Writer},
    s.units[h]? = some (.writer w) → w.micro = .idle →
    (writeChunks (sinkWrite h h) h v passes need s).EndsCommand h (WriterWaits h) s := by
  induction passes with
  | zero =>
    intro need s w hu hi
    cases need with
    | zero => exact respond_ends (insideCommand_writer hu hi) rfl _ _
    | succ need => trivial
  | succ passes ih =>
    intro need s w hu hi
    cases need with
    | zero => exact respond_ends (insideCommand_writer hu hi) rfl _ _
    | succ need =>
      simp only [writeChunks, State.writerAt_of_get hu]
      have hu1 := State.setUnit_get_same (.writer (w.place v (need + 1))) (lt_of_get hu)
      split
      · refine Ran.post_bind (emit_ends hsnk hu1 hi _ v _) ?_
        rintro st t ⟨hr, w', hut, hit⟩
        cases st with
        | err e => exact respond_ends (insideCommand_writer hut hit) hr _ _
        | ok => exact (ih _ hut hit).of_responses hr
      · exact ih _ hu1 hi

theorem wrBits_ends_of (V N : Nat) (s : State) : (wrBits h V N s).EndsCommand h (WriterWaits h) s :=
  asWriter_post fun _ hu hi => writeChunks_ends hsnk _ 2 _ hu hi

end Writing

theorem sinkWrite_silent_of_blocked (h : Nat) : ∀ k b s, (sinkWrite h h k b s).Post (fun _ _ => True) (·.SilentSink k) := by
  induction h using Nat.strong_induction_on with
  | _ h ih =>
    intro k b s
    cases k with
    | external k =>
      rw [sinkWrite_external, offerSink]
      split
      · trivial
      · exact .external k ‹_›
      · trivial
    | adapter g =>
      by_cases hg : g < h
      · rw [sinkWrite_adapter hg]
        refine Ran.post_bind (Ran.post_mono (wrBits_ends_of (ih g hg) _ 8 s) (fun _ _ _ => trivial) ?_) fun _ _ _ => trivial
        rintro t ⟨-, w, hu, hi, silent⟩
        exact .adapter g w hu hi silent
      · cases h <;> simp [sinkWrite, hg]

theorem wrBits_ends (h V N : Nat) (s : State) : (wrBits h V N s).EndsCommand h (WriterWaits h) s :=
  wrBits_ends_of (sinkWrite_silent_of_blocked h) V N s

theorem wrFlush_ends (h : Nat) (s : State) : (wrFlush h s).EndsCommand h (WriterWaits h) s := by
  refine asWriter_post fun w hu hi => ?_
  split
  · exact respond_ends (insideCommand_writer hu hi) rfl _ _
  · refine Ran.post_bind (emit_ends (sinkWrite_silent_of_blocked h) hu hi _ _ _) ?_
    rintro st t ⟨hr, w', hut, hit⟩
    cases st with
    | err e => exact respond_ends (insideCommand_writer hut hit) hr _ _
    | ok => exact respond_ends (insideCommand_writer hut hit) hr _ _

theorem wrCount_ends (h : Nat) (s : State) : (wrCount h s).EndsCommand h (WriterWaits h) s :=
  asWriter_post fun _ hu hi => respond_ends (insideCommand_writer hu hi) rfl _ _

/-- What a command that ends so comes to in a step. -/
theorem Ran.EndsCommand.finish {m : Ran Response} (hm : m.EndsCommand h waits s)
    (hw : ∀ {u : State}, waits u → ∀ x, State.waitsForEver { u with returned := x } h) {ret : Response → Returned}
    (ht : m.finish ret = .next t) :
    (∃ r, t.responsesOf h = s.responsesOf h ++ [r] ∧ t.insideCommand h = false) ∨
    (t.responsesOf h = s.responsesOf h ∧ t.returned = none ∧ t.waitsForEver h) := by
  obtain ⟨a, u, rfl, rfl⟩ | ⟨u, rfl, rfl⟩ := Ran.finish_next ht
  · obtain ⟨⟨r, hr⟩, idle⟩ := hm
    exact .inl ⟨r, hr, idle⟩
  · obtain ⟨hr, waiting⟩ := hm
    exact .inr ⟨hr, rfl, hw waiting _⟩

end Ends

/-- Settles O10: every command ends in one of two ways (`Ran.EndsCommand`), shown for the five commands; a transaction blocks
only at a stream that never answers. -/
theorem oneResponsePerCommand : Obligations.OneResponsePerCommand := by
  intro i s t he ht
  cases i with
  | rdBits N => exact (rdBits_ends _ N s).finish ReaderWaits.returned ht
  | rdCount => exact (rdCount_ends _ s).finish ReaderWaits.returned ht
  | wrBits V N => exact (wrBits_ends _ V N s).finish WriterWaits.returned ht
  | wrFlush => exact (wrFlush_ends _ s).finish WriterWaits.returned ht
  | wrCount => exact (wrCount_ends _ s).finish WriterWaits.returned ht
  | rdBit => exact (rdBits_ends _ 1 s).finish ReaderWaits.returned ht
  | rdBool => exact (rdBits_ends _ 1 s).finish ReaderWaits.returned ht
  | wrBit b => exact (wrBits_ends _ b 1 s).finish WriterWaits.returned ht
  | wrBool v => exact (wrBits_ends _ _ 1 s).finish WriterWaits.returned ht
  | _ => cases he

/-! ## The data of a response -/

/-- The data of a response to RD.BITS of width `n`: at most `n` bits on OK, 0x00 on ERR (R63). -/
def Response.DataFits (n : Nat) (a : Response) : Prop :=
  (a.status = .ok → a.data >>> n = 0) ∧ (a.status ≠ .ok → a.data = 0x00)

section Data

variable {h : Nat} {s t : State}

theorem dataFits_ok {n : Nat} {d : Byte} (hd : d >>> n = 0) : Response.DataFits n { status := .ok, data := d } :=
  ⟨fun _ => hd, fun hne => absurd rfl hne⟩

theorem dataFits_err (n : Nat) (e : ExtErr) : Response.DataFits n { status := .err e, data := 0x00 } :=
  ⟨nofun, fun _ => rfl⟩

/-- The `c` bits held and the `need` bits of the byte pulled make a group of `c + need` bits. -/
theorem afterSrcRead_dataFits {c need : Nat} (h8 : c + need ≤ 8) {held : Byte} (hh : held >>> c = 0) (r : Reader)
    (m : Ran SrcReply) : (afterSrcRead h r need held m).Post (fun a _ => a.DataFits (c + need)) fun _ => True := by
  cases m with
  | done a t =>
    cases a with
    | byte b => exact dataFits_ok (insert_shiftRight_eq_zero _ _ h8 hh)
    | err e => exact dataFits_err _ e
  | blocked t => trivial
  | fault f => trivial
  | refused q => trivial

theorem rdBits_dataFits (h N : Nat) (s : State) :
    (rdBits h N s).Post (fun a _ => a.DataFits (clamp8 N)) fun _ => True := by
  have h8 := clamp8_le N
  refine asReader_post fun r hu hi => ?_
  by_cases hc : r.count = 0
  · rw [readChunks_empty (srcRead_frame h h) hu 1 0 hc h8]
    have fits := afterSrcRead_dataFits (h := h) (c := 0) (need := clamp8 N) (held := 0) (by omega) rfl r (srcRead h h r.src s)
    rwa [Nat.zero_add] at fits
  · rcases Nat.lt_or_ge r.count (clamp8 N) with hlt | hge
    · rw [readChunks_straddle (srcRead_frame h h) hu 0 0 hc hlt h8]
      have fits := afterSrcRead_dataFits (h := h) (c := r.count) (need := clamp8 N - r.count) (by omega)
        (and_mask_shiftRight_eq_zero r.acc (by omega)) r.drained
      rw [Nat.add_sub_cancel' hlt.le] at fits
      simpa using fits _
    · rw [readChunks_held hu 1 0 hc hge]
      exact dataFits_ok (by simpa using and_mask_shiftRight_eq_zero _ h8)

theorem rdCount_data (h : Nat) (s : State) :
    (rdCount h s).Post
      (fun a _ => ∃ r, s.units[h]? = some (.reader r) ∧ a = { status := .ok, data := BitVec.ofNat 8 r.count })
      fun _ => True :=
  asReader_post fun r hu _ => ⟨r, hu, rfl⟩

/-- The response of every writing command has data 0x00. -/
abbrev Ran.NoData (m : Ran Response) : Prop := m.Post (fun a _ => a.data = 0x00) fun _ => True

theorem writeChunks_noData (snk : Binding → Byte → State → Ran SinkReply) (v : Byte) (passes : Nat) :
    ∀ need s, (writeChunks snk h v passes need s).NoData := by
  induction passes with
  | zero =>
    intro need s
    cases need with
    | zero => rfl
    | succ need => trivial
  | succ passes ih =>
    intro need s
    cases need with
    | zero => rfl
    | succ need =>
      simp only [writeChunks]
      split
      · refine Ran.post_bind (Ran.post_of_forall _ fun _ => trivial) fun st t _ => ?_
        cases st with
        | err e => rfl
        | ok => exact ih _ t
      · exact ih _ _

theorem wrBits_noData (h V N : Nat) (s : State) : (wrBits h V N s).NoData :=
  asWriter_post fun _ _ _ => writeChunks_noData _ _ 2 _ s

theorem wrFlush_noData (h : Nat) (s : State) : (wrFlush h s).NoData := by
  refine asWriter_post fun w _ _ => ?_
  split
  · rfl
  · refine Ran.post_bind (Ran.post_of_forall _ fun _ => trivial) fun st t _ => ?_
    cases st with
    | err e => rfl
    | ok => rfl

theorem wrCount_data (h : Nat) (s : State) :
    (wrCount h s).Post
      (fun a _ => ∃ w, s.units[h]? = some (.writer w) ∧ a = { status := .ok, data := BitVec.ofNat 8 w.filled })
      fun _ => True :=
  asWriter_post fun w hu _ => ⟨w, hu, rfl⟩

/-- What is so of the response of a command is so of the response that the step returns. -/
theorem Ran.post_returned {m : Ran Response} {P : Response → Prop} (hm : m.Post (fun a _ => P a) fun _ => True)
    {r : Response} (hr : t.returned = some (.response r)) (ht : m.finish .response = .next t) : P r := by
  obtain ⟨a, u, rfl, rfl⟩ | ⟨u, rfl, rfl⟩ := Ran.finish_next ht
  · obtain rfl : a = r := by simpa using hr
    exact hm
  · cases hr

end Data

/-- Settles O12: the response returned is the command's own, of which the data is known command by command. -/
theorem responseDataByCommand : Obligations.ResponseDataByCommand := by
  intro s t r hr
  refine ⟨fun N => ?_, ?_, fun V N => ?_, ?_, ?_⟩
  · exact Ran.post_returned (rdBits_dataFits s.target N s) hr
  · exact Ran.post_returned (rdCount_data s.target s) hr
  · exact Ran.post_returned (wrBits_noData s.target V N s) hr
  · exact Ran.post_returned (wrFlush_noData s.target s) hr
  · exact Ran.post_returned (wrCount_data s.target s) hr

end Sys2Proof.Machine

/-! PROOFS. The statements about the reader (`40_reader.md`): the bits RD.BITS takes from its source's stream, one bit,
wrap_reader, the three calls that read, and where the errors in responses come from (R78, with `41_writer.md` R89). -/

namespace Sys2Proof.Machine

/-! ## RD.BITS takes the next bits of the stream -/

section Stream

variable {s t : State} {h N : Nat} {r r' : Reader}

/-- The bits taken are those of the source's stream from the reader's position on (R35, R71). -/
theorem Reader.Reads.srcbits {bits : List Bool} (hr : r.Reads r' bits) :
    (List.range bits.length).map (fun i => srcbit r'.delivered (r.position + i)) = bits := by
  have enough : r.position + bits.length ≤ 8 * r'.delivered.length := by
    rw [← hr.position, ← streamOf_length]
    exact r'.position_le
  rw [streamOf_segment _ _ _ enough, hr.taken]

/-- The bits held that a reader loses are bits of the stream it has moved past (R71). -/
theorem Reader.position_drained (ok : r.Ok) : r.drained.position = r.position + r.count := by
  rw [(Reader.reads_drained ok).position, bitsOf_length]

theorem rdBits_idle {a : Response} (hu : s.units[h]? = some (.reader r)) (hd : rdBits h N s = .done a t) :
    r.micro = .idle := by
  by_contra hi
  rw [rdBits, rdBitsVia, asReader_of_busy hu hi] at hd
  cases hd

/-- An operation that has returned something is done. -/
theorem Ran.done_of_returned {α : Type} {m : Ran α} {ret : α → Returned} {x : Returned} (ht : m.finish ret = .next t)
    (hx : t.returned = some x) : ∃ a u, m = .done a u ∧ ret a = x ∧ t.units = u.units := by
  obtain ⟨a, u, hm, rfl⟩ | ⟨u, -, rfl⟩ := Ran.finish_next ht
  · exact ⟨a, u, hm, Option.some.inj hx, rfl⟩
  · cases hx

end Stream

/-- Settles O19: a done RD.BITS has taken the bits it returns from the stream, or has emptied the reader (`rdBits_reads`). -/
theorem readerStreamCorrectness : Obligations.ReaderStreamCorrectness := by
  intro s t r N resp hu ok ht hret
  obtain ⟨a, u, hd, ha, htu⟩ := Ran.done_of_returned (m := rdBits s.target N s) ht hret
  obtain rfl : a = resp := Returned.response.inj ha
  obtain ⟨r', hu', -, -, -, ⟨hst, hz, hreads, -⟩ | ⟨e, rfl, rfl, -⟩⟩ := rdBits_reads hu (rdBits_idle hu hd) ok hd
  · refine ⟨r', htu ▸ hu', hreads.delivered, fun _ => ⟨?_, ?_⟩, fun hne => absurd hst hne⟩
    · have bits := hreads.srcbits
      rw [bitsOf_length] at bits
      rw [toNat_eq_groupValue hz, ← bits]
      rfl
    · rw [hreads.position, bitsOf_length]
      rfl
  · exact ⟨r.drained, htu ▸ hu', List.prefix_rfl, nofun, fun _ => Reader.position_drained ok⟩

/-! ## One bit -/

/-- The low bit of a byte, as RD.BIT answers it (R72). -/
theorem and_mask_one (v : Byte) : v &&& mask 1 = if v.getLsbD 0 then 0x01 else 0x00 := by
  refine eq_of_bitsOf_eq (n := 1) (and_mask_shiftRight_eq_zero v (by omega)) ?_ ?_
  · split
    · rfl
    · rfl
  · rw [bitsOf_and_mask v le_rfl (by omega)]
    cases hv : v.getLsbD 0 with
    | true => simpa [bitsOf] using hv
    | false => simpa [bitsOf] using hv

section Bit

variable {s s1 : State} {h : Nat} {r : Reader} (hu : s.units[h]? = some (.reader r)) (hi : r.micro = .idle)
include hu hi

theorem rdBits_one_held (hc : 1 ≤ r.count) :
    rdBits h 1 s = respond h .ok (if r.acc.getLsbD (r.count - 1) then 0x01 else 0x00)
      (s.setUnit h (.reader { r with acc := r.acc &&& mask (r.count - 1), count := r.count - 1 })) := by
  rw [rdBits_held hu hi 1 (by omega) hc, show clamp8 1 = 1 from rfl, and_mask_one]
  simp

theorem rdBits_one_pulled (hc : r.count = 0) {b : Byte} (hs : srcRead h h r.src s = .done (.byte b) s1) :
    rdBits h 1 s = respond h .ok (if b.getLsbD 7 then 0x01 else 0x00) (s1.setUnit h (.reader (r.afterByte b 1))) := by
  rw [rdBits_empty hu hi 1 hc, hs, afterSrcRead, show clamp8 1 = 1 from rfl, and_mask_one]
  simp

theorem rdBits_one_failed (hc : r.count = 0) {e : ExtErr} (hs : srcRead h h r.src s = .done (.err e) s1) :
    rdBits h 1 s = respondError h e s1 := by
  rw [rdBits_empty hu hi 1 hc, hs, afterSrcRead]

end Bit

/-- Where RD.BITS 1 answers a bit, RD.BIT answers the same response and RD.BOOL returns the bit (R72, R73). -/
theorem exec_bit {s t : State} {bit : Bool}
    (hd : rdBits s.target 1 s = respond s.target .ok (if bit then 0x01 else 0x00) t) :
    let a : Response := { status := .ok, data := if bit then 0x01 else 0x00 }
    exec .rdBit s = .next (t.answers s.target a) ∧
      exec .rdBool s = .next { t.answers s.target a with returned := some (.boolean bit .ok) } := by
  have hbool : Response.asBool { status := .ok, data := if bit then 0x01 else 0x00 } = bit := by cases bit <;> rfl
  refine ⟨?_, ?_⟩
  · rw [exec, execRdBit, hd]; rfl
  · rw [exec, execRdBool, hd, respond, Ran.finish_done, hbool]; rfl

/-- Settles O18: RD.BITS 1 from the bits held, from the byte pulled and from the error, read as RD.BIT and RD.BOOL. -/
theorem readBitAndReadBool : Obligations.ReadBitAndReadBool := by
  intro s r hu hi _
  refine ⟨fun hc => exec_bit (rdBits_one_held hu hi hc), fun hc b s1 hs => exec_bit (rdBits_one_pulled hu hi hc hs),
    fun hc e s1 hs => ?_⟩
  have failed := rdBits_one_failed hu hi hc hs
  refine ⟨?_, ?_, srcRead_keeps hs hu⟩
  · rw [exec, execRdBit, failed]; rfl
  · rw [exec, execRdBool, failed]; rfl

/-! ## wrap_reader -/

/-- Settles O16: the three forms of a handle, by what the unit at it is. -/
theorem wrapReaderByHandle : Obligations.WrapReader := by
  intro s k h
  refine ⟨rfl, fun r hu => ?_, fun w hu => ?_⟩
  · constructor <;> (simp only [exec, execWrapReader, wrapReader, hu]; rfl)
  · constructor <;> (simp only [exec, execWrapReader, wrapReader, hu]; rfl)

/-! ## Calls over streams that answer -/

theorem Ran.bind_eq_done {α β : Type} {m : Ran α} {f : α → State → Ran β} {b : β} {t : State}
    (hd : m.bind f = .done b t) : ∃ a u, m = .done a u ∧ f a u = .done b t := by
  cases m with
  | done a u => exact ⟨a, u, rfl, hd⟩
  | blocked u => cases hd
  | fault e => cases hd
  | refused q => cases hd

theorem State.Fair.keeps {s : State} (hs : s.Fair) : s.Keeps True := ⟨hs.1, fun _ => hs.2⟩

/-- From a fair state an operation is done. -/
theorem Ran.Good.done {α : Type} {m : Ran α} (hm : m.Good True) : ∃ a t, m = .done a t := by
  cases m with
  | done a t => exact ⟨a, t, rfl⟩
  | blocked t => exact absurd trivial hm.2
  | fault f => exact absurd trivial hm.2.2
  | refused q => exact absurd trivial hm

section Sequence

variable (s : State) (got : List Bool) (n : Nat)

/-- The new sequence holds what was read, and elements of which nothing is said. -/
theorem State.newSequence_boolSeqs : ∃ free : List Bool, free.length = n - got.length ∧
    (s.newSequence got n).boolSeqs = s.boolSeqs ++ [got ++ free] :=
  ⟨_, by rw [List.length_map, List.length_range], rfl⟩

theorem State.newSequence_freeDraws : (s.newSequence got n).freeDraws = s.freeDraws + (n - got.length) := rfl

end Sequence

/-- Settles O23: the loop is done (`readBools_good`) with the bits taken (`readBools_reads`), and the new sequence begins with
them. -/
theorem readBoolSequence : Obligations.ReadBoolSequence := by
  intro s h n r fair hu
  obtain ⟨⟨bits, st⟩, u, hd⟩ := (readBools_good h n fair.keeps fun _ => hasReader_of_get hu).done
  have kept := readBools_keepsReading n ⟨r, hu⟩
  rw [hd] at kept
  obtain ⟨keep, hbuf, hseqs, hfree⟩ := kept
  obtain ⟨r', hu', -, -, -, hreads, hok, herr, hresp⟩ :=
    readBools_reads h n hu (State.idle_of_get fair.2.1 hu) (fair.1.reader hu) hd
  obtain ⟨free, hflen, hnew⟩ := State.newSequence_boolSeqs u bits n
  have hle : bits.length ≤ n := by
    cases st with
    | ok => exact (hok rfl).le
    | err e => exact (herr e rfl).le
  refine ⟨{ u.newSequence bits n with returned := some (.sequence s.boolSeqs.length st) }, r', bits ++ free, st, ?_, hu', rfl,
    hreads.delivered, hnew.trans (by rw [hseqs]), ?_, ?_, ?_, (keep.congr rfl rfl rfl rfl rfl rfl).2, hbuf⟩
  · rw [exec, execReadBoolSequence, hd]; rfl
  · rw [List.length_append, hflen, Nat.add_sub_cancel' hle]
  · rintro rfl
    have hlen : bits.length = n := hok rfl
    have hnil : free = [] := List.length_eq_zero_iff.mp (by omega)
    refine ⟨?_, ?_, ?_, ?_⟩
    · rw [hnil, List.append_nil, ← hlen, hreads.srcbits]
    · rw [hreads.position, hlen]
    · exact hresp.trans (by rw [hlen]; rfl)
    · exact (State.newSequence_freeDraws u bits n).trans (by rw [hlen, hfree]; omega)
  · rintro e rfl
    exact ⟨bits.length, herr e rfl, by rw [List.take_left, hreads.srcbits], hreads.position, hresp⟩

/-- The bits taken as whole bytes. -/
theorem Reader.Reads.srcbits_bytes {r r' : Reader} {bytes : List Byte} {i : Nat} (hr : r.Reads r' (streamOf bytes))
    (hi : bytes.length = i) :
    streamOf bytes = (List.range (8 * i)).map fun j => srcbit r'.delivered (r.position + j) := by
  rw [← hi, ← streamOf_length, hr.srcbits]

/-- Settles O24: the loop is done (`readBytes_good`), and the elements it has filled are the bits taken (`readBytes_reads`). -/
theorem readByteStream : Obligations.ReadByteStream := by
  intro s h b r fair hu
  obtain ⟨⟨i, st⟩, t, hd⟩ :=
    (readBytes_good h b (s.buffer b).length 0 fair.keeps fun _ => hasReader_of_get hu).1.done
  have kept := readBytes_keepsReading b (s.buffer b).length 0 ⟨r, hu⟩
  rw [hd] at kept
  obtain ⟨keep, hseqs⟩ := kept
  obtain ⟨r', hu', -, -, -, hlen, -, -, hi, hother, hresp, hok, herr⟩ :=
    readBytes_reads h b _ 0 hu (State.idle_of_get fair.2.1 hu) (fair.1.reader hu) hd (by omega)
  rw [Nat.zero_add] at hi hok herr
  have htake : ((t.buffer b).take i).length = i := List.length_take_of_le (hlen ▸ hi)
  have leaves : ReadingLeaves s { t with returned := some (.count i st) } h := (keep.congr rfl rfl rfl rfl rfl rfl).2
  have result : exec (.readByteStream h b) s = .next { t with returned := some (.count i st) } := by
    rw [exec, execReadByteStream, hd]; rfl
  cases st with
  | ok =>
    obtain ⟨hn, hreads, hfree, -⟩ := hok rfl
    rw [List.drop_zero] at hreads
    refine ⟨_, r', i, .ok, result, hu', rfl, hreads.delivered, hlen, hreads.srcbits_bytes htake, fun _ => ⟨hn, ?_, hresp, hfree⟩,
      nofun, hother, leaves, hseqs⟩
    rw [hreads.position, streamOf_length, htake]
  | err e =>
    obtain ⟨hn, r1, hreads, ok1, hcount, rfl⟩ := herr e rfl
    rw [List.drop_zero] at hreads
    have hpos : r1.drained.position = r.position + 8 * i + r1.count := by
      rw [Reader.position_drained ok1, hreads.position, streamOf_length, htake]
    refine ⟨_, r1.drained, i, .err e, result, hu', rfl, hreads.delivered, hlen, hreads.srcbits_bytes htake, nofun,
      fun _ _ => ⟨hn, rfl, ?_, ?_, hresp⟩, hother, leaves, hseqs⟩
    · omega
    · omega

/-! ### readBitSequenceInto -/

/-- What readBitSequenceInto has done after the whole elements, where it is done: stopped there with their error or because
nothing remains, or issued the one command for the remainder of `m` bits. -/
inductive RemainderRead (h b k m : Nat) (p : Nat × Status) (u : State) : Nat × Status → State → Prop where
  | stopped {e} : p.2 = .err e → RemainderRead h b k m p u (p.1, .err e) u
  | complete : p.2 = .ok → m = 0 → RemainderRead h b k m p u (k, .ok) u
  | failed {a v e} : p.2 = .ok → m ≠ 0 → rdBits h m u = .done a v → a.status = .err e →
      RemainderRead h b k m p u (k, .err e) (v.spoilBuffer b k)
  | stored {a v} : p.2 = .ok → m ≠ 0 → rdBits h m u = .done a v → a.status = .ok →
      RemainderRead h b k m p u (k + 1, .ok) (v.bufWrite b k a.data)

/-- A done readBitSequenceInto has filled whole elements and then dealt with the remainder (R76). -/
theorem readBitsInto_done {h b totalBits : Nat} {s t : State} {x : Nat × Status}
    (hd : readBitsInto h b totalBits s = .done x t) :
    ∃ p u, readBytes h b (splitBits totalBits (s.buffer b).length).1 0 s = .done p u ∧
      RemainderRead h b (splitBits totalBits (s.buffer b).length).1 (splitBits totalBits (s.buffer b).length).2 p u x t := by
  obtain ⟨p, u, hbytes, hrest⟩ := Ran.bind_eq_done hd
  refine ⟨p, u, hbytes, ?_⟩
  split at hrest
  · next e hp => cases hrest; exact .stopped hp
  · next hp =>
    split at hrest
    · next hm => cases hrest; exact .complete hp hm
    · next hm =>
      obtain ⟨a, v, ha, hlast⟩ := Ran.bind_eq_done hrest
      split at hlast
      · next e hst => cases hlast; exact .failed hp hm ha hst
      · next hst => cases hlast; exact .stored hp hm ha hst

/-- What reading `k` whole elements and a remainder of `m` bits has done where it ends with `(i, st)`, with the reader gone
from `r` to `r'`. -/
structure BitsInto (h b k m i : Nat) (st : Status) (s t : State) (r r' : Reader) : Prop where
  unit      : t.units[h]? = some (.reader r')
  length    : (t.buffer b).length = (s.buffer b).length
  others    : ∀ c, c ≠ b → t.buffer c = s.buffer c
  responses : (t.responsesOf h).length = (s.responsesOf h).length + i + st.extra
  ok        : st = .ok → i = (8 * k + m + 7) / 8 ∧
    r.Reads r' (streamOf ((t.buffer b).take k) ++ bitsOf ((t.buffer b).getD k 0) m) ∧
    (m ≠ 0 → (t.buffer b).getD k 0 >>> m = 0) ∧
    (t.buffer b).drop i = (s.buffer b).drop i ∧ t.freeDraws = s.freeDraws
  err       : ∀ e, st = .err e → i < (8 * k + m + 7) / 8 ∧
    ∃ r1 : Reader, r.Reads r1 (streamOf ((t.buffer b).take i)) ∧ r' = r1.drained

/-- A done RD.BITS leaves the host's buffers, and no element has become unspecified. -/
theorem rdBits_buffers {h N : Nat} {s t : State} {a : Response} (hd : rdBits h N s = .done a t) :
    (∀ c, t.buffer c = s.buffer c) ∧ t.freeDraws = s.freeDraws := by
  have frame := rdBits_frame h N s
  rw [hd] at frame
  exact ⟨fun c => by rw [State.buffer, frame.buffers]; rfl, frame.freeDraws⟩

section Into

variable {h b k m i : Nat} {st : Status} {s t u v : State} {r r1 : Reader}

/-- The whole elements. -/
theorem readBytes_bitsInto (hu : s.units[h]? = some (.reader r)) (hi : r.micro = .idle) (ok : r.Ok)
    (hd : readBytes h b k 0 s = .done (i, st) t) (hk : k ≤ (s.buffer b).length) :
    ∃ r', r'.Ok ∧ r'.micro = .idle ∧ BitsInto h b k 0 i st s t r r' := by
  obtain ⟨r', hu', ok', hi', -, hlen, -, -, -, hother, hresp, hok, herr⟩ := readBytes_reads h b k 0 hu hi ok hd (by omega)
  rw [List.drop_zero] at hok herr
  refine ⟨r', ok', hi', hu', hlen, hother, hresp, fun h0 => ?_, fun e h0 => ?_⟩
  · obtain ⟨hn, hreads, hfree, hdrop⟩ := hok h0
    obtain rfl : i = k := by omega
    exact ⟨by omega, by rwa [bitsOf, List.append_nil], fun h0 => absurd rfl h0, hdrop, hfree⟩
  · obtain ⟨hn, r2, hreads, -, -, hr2⟩ := herr e h0
    exact ⟨by omega, r2, hreads, hr2⟩

variable (whole : BitsInto h b k 0 i .ok s u r r1) (hi : r1.micro = .idle) (ok : r1.Ok) (hk : k < (s.buffer b).length)
  (h0 : m ≠ 0) (h8 : m < 8) {a : Response} (ha : rdBits h m u = .done a v)
include whole hi ok hk h0 h8 ha

/-- The remainder, stored after the whole elements. -/
theorem BitsInto.stored (hst : a.status = .ok) :
    ∃ r', BitsInto h b k m (k + 1) .ok s (v.bufWrite b k a.data) r r' := by
  obtain ⟨hik, hreads, -, hdrop, hfree⟩ := whole.ok rfl
  obtain rfl : i = k := by omega
  rw [bitsOf, List.append_nil] at hreads
  obtain ⟨hbuf, hfree2⟩ := rdBits_buffers ha
  have hresp := congrArg List.length (rdBits_response ha)
  obtain ⟨r2, hu2, -, -, -, ⟨-, hz, hreads2, -⟩ | ⟨e, he, -⟩⟩ := rdBits_reads whole.unit hi ok ha
  · rw [show clamp8 m = m from Nat.min_eq_left h8.le] at hz hreads2
    have hstore : (v.bufWrite b i a.data).buffer b = (u.buffer b).set i a.data := by rw [State.bufWrite_same, hbuf]
    have hget : ((u.buffer b).set i a.data).getD i 0 = a.data := by
      rw [List.getD, List.getElem?_set_self (whole.length ▸ hk), Option.getD_some]
    refine ⟨r2, hu2, ?_, fun c hc => ?_, ?_, fun _ => ⟨by omega, ?_, fun _ => ?_, ?_, hfree2.trans hfree⟩, nofun⟩
    · rw [hstore, List.length_set, whole.length]
    · rw [State.bufWrite_other hc, hbuf, whole.others c hc]
    · exact hresp.trans (by rw [List.length_append, whole.responses]; rfl)
    · rw [hstore, List.take_set_of_le le_rfl, hget]
      exact hreads.trans hreads2
    · rw [hstore, hget]
      exact hz
    · rw [hstore, List.drop_set_of_lt (by omega), ← List.drop_drop, hdrop, List.drop_drop]
  · rw [he] at hst
    cases hst

/-- The remainder failed: its element and those after it are spoiled. -/
theorem BitsInto.failed {e : ExtErr} (hst : a.status = .err e) :
    ∃ r', BitsInto h b k m k (.err e) s (v.spoilBuffer b k) r r' := by
  obtain ⟨hik, hreads, -⟩ := whole.ok rfl
  obtain rfl : i = k := by omega
  rw [bitsOf, List.append_nil] at hreads
  obtain ⟨hbuf, -⟩ := rdBits_buffers ha
  have hresp := congrArg List.length (rdBits_response ha)
  obtain ⟨r2, hu2, -, -, -, ⟨hst2, -⟩ | ⟨-, -, hr2, -⟩⟩ := rdBits_reads whole.unit hi ok ha
  · cases hst.symm.trans hst2
  · refine ⟨r2, hu2, ?_, fun c hc => ?_, ?_, nofun, fun _ _ => ⟨by omega, r1, ?_, hr2⟩⟩
    · rw [State.spoilBuffer_length, hbuf, whole.length]
    · rw [State.spoilBuffer_other hc, hbuf, whole.others c hc]
    · exact hresp.trans (by rw [List.length_append, whole.responses]; rfl)
    · rw [State.spoilBuffer_take (by rw [hbuf, whole.length]; omega), hbuf]
      exact hreads

end Into

theorem readBitsInto_reads {h b totalBits i : Nat} {st : Status} {s t : State} {r : Reader}
    (hu : s.units[h]? = some (.reader r)) (hi : r.micro = .idle) (ok : r.Ok)
    (hd : readBitsInto h b totalBits s = .done (i, st) t) :
    ∃ r', BitsInto h b (splitBits totalBits (s.buffer b).length).1 (splitBits totalBits (s.buffer b).length).2 i st s t
      r r' := by
  obtain ⟨⟨n, st0⟩, u, hbytes, hrest⟩ := readBitsInto_done hd
  have hfit : 8 * (splitBits totalBits (s.buffer b).length).1 + (splitBits totalBits (s.buffer b).length).2 ≤
      8 * (s.buffer b).length ∧ (splitBits totalBits (s.buffer b).length).2 < 8 := by
    simp only [splitBits]; omega
  generalize (splitBits totalBits (s.buffer b).length).1 = k at hbytes hrest hfit ⊢
  generalize (splitBits totalBits (s.buffer b).length).2 = m at hrest hfit ⊢
  obtain ⟨r1, ok1, hi1, whole⟩ := readBytes_bitsInto hu hi ok hbytes (by omega)
  cases hrest with
  | stopped hp =>
    obtain rfl : st0 = _ := hp
    obtain ⟨hlt, r2, hreads, hr2⟩ := whole.err _ rfl
    exact ⟨r1, whole.unit, whole.length, whole.others, whole.responses, nofun, fun _ _ => ⟨by omega, r2, hreads, hr2⟩⟩
  | complete hp hm =>
    obtain rfl : st0 = _ := hp
    obtain ⟨hn, -⟩ := whole.ok rfl
    obtain rfl : n = i := by omega
    exact ⟨r1, hm ▸ whole⟩
  | failed hp hm ha hst =>
    obtain rfl : st0 = _ := hp
    exact whole.failed hi1 ok1 (by omega) hm hfit.2 ha hst
  | stored hp hm ha hst =>
    obtain rfl : st0 = _ := hp
    exact whole.stored hi1 ok1 (by omega) hm hfit.2 ha hst

/-- Settles O25: the call is done (`readBitsInto_good`) as `BitsInto` says, and what it has taken are the bits of the stream. -/
theorem readBitSequenceInto : Obligations.ReadBitSequenceInto := by
  intro s h b totalBits r fair hu T
  obtain ⟨⟨i, st⟩, t, hd⟩ := (readBitsInto_good h b totalBits fair.keeps fun _ => hasReader_of_get hu).done
  have kept := readBitsInto_keepsReading b totalBits ⟨r, hu⟩
  rw [hd] at kept
  obtain ⟨keep, hseqs⟩ := kept
  obtain ⟨r', done⟩ := readBitsInto_reads hu (State.idle_of_get fair.2.1 hu) (fair.1.reader hu) hd
  have leaves : ReadingLeaves s { t with returned := some (.count i st) } h := (keep.congr rfl rfl rfl rfl rfl rfl).2
  have result : exec (.readBitSequenceInto h b totalBits) s = .next { t with returned := some (.count i st) } := by
    rw [exec, execReadBitSequenceInto, hd]; rfl
  replace done : BitsInto h b (T / 8) (T % 8) i st s t r r' := done
  have hsplit : (8 * (T / 8) + T % 8 + 7) / 8 = (T + 7) / 8 := by omega
  have hlen := done.length
  cases st with
  | ok =>
    obtain ⟨hi, hreads, hzero, hdrop, hfree⟩ := done.ok rfl
    have hbits : (streamOf ((t.buffer b).take (T / 8)) ++ bitsOf ((t.buffer b).getD (T / 8) 0) (T % 8)).length = T := by
      rw [List.length_append, streamOf_length, bitsOf_length, List.length_take_of_le (by omega)]
      omega
    have hsrc := hreads.srcbits
    rw [hbits] at hsrc
    refine ⟨_, r', i, .ok, result, done.unit, rfl, hreads.delivered, hlen,
      fun _ => ⟨hi.trans hsplit, ?_, hsrc.symm, hzero, hdrop, hfree, done.responses⟩, nofun, done.others, leaves, hseqs⟩
    rw [hreads.position, hbits]
  | err e =>
    obtain ⟨hi, r1, hreads, rfl⟩ := done.err e rfl
    have htake : ((t.buffer b).take i).length = i := List.length_take_of_le (by omega)
    exact ⟨_, r1.drained, i, .err e, result, done.unit, rfl, hreads.delivered, hlen, nofun,
      fun _ _ => ⟨hsplit ▸ hi, rfl, hreads.srcbits_bytes htake, done.responses⟩, done.others, leaves, hseqs⟩

/-! ## Calls over a source that delivers enough -/

/-- The reader at `h`, between commands, holds `n` bits or its external source `k` is yet to deliver what lacks, before
`rest`. -/
def Supplied (h k : Nat) (rest : List SrcEvent) (n : Nat) (s : State) : Prop :=
  ∃ (r : Reader) (bytes : List Byte), s.units[h]? = some (.reader r) ∧ r.micro = .idle ∧ r.Ok ∧ r.src = .external k ∧
    portWf Source.untouched s.sources ∧ (s.source k).script = deliveries bytes rest ∧ n ≤ r.count + 8 * bytes.length

section Supply

variable {h k : Nat} {rest : List SrcEvent}

theorem rdBits_supplied {n m : Nat} {s : State} (hs : Supplied h k rest (n + m) s) (h1 : 1 ≤ n) (h8 : n ≤ 8) :
    ∃ d t, rdBits h n s = .done { status := .ok, data := d } t ∧ Supplied h k rest m t := by
  obtain ⟨r, bytes, hu, hi, ok, hsrc, hw, hscript, hn⟩ := hs
  have width : clamp8 n = n := Nat.min_eq_left h8
  obtain ⟨d, t, r', bytes', hd, hu', ok', hi', hsrc', hw', hscript', -, -, hcount, -⟩ :=
    rdBits_served hw hu hi ok hsrc hscript (by omega : 1 ≤ clamp8 n) (by omega)
  exact ⟨d, t, hd, r', bytes', hu', hi', ok', hsrc', hw', hscript', by omega⟩

theorem readBools_supplied (m : Nat) : ∀ {s : State}, Supplied h k rest m s →
    ∃ bits t, readBools h m s = .done (bits, .ok) t := by
  induction m with
  | zero => exact fun {s} _ => ⟨[], s, rfl⟩
  | succ m ih =>
    intro s hs
    rw [Nat.add_comm] at hs
    obtain ⟨d, t, hd, ht⟩ := rdBits_supplied hs le_rfl (by omega)
    obtain ⟨bits, u, hu⟩ := ih ht
    exact ⟨_, u, by rw [readBools, hd, Ran.bind_done, hu]; rfl⟩

theorem readBytes_supplied (b m : Nat) {n : Nat} : ∀ (i : Nat) {s : State}, Supplied h k rest (8 * m + n) s →
    ∃ t, readBytes h b m i s = .done (i + m, .ok) t ∧ Supplied h k rest n t := by
  induction m with
  | zero => exact fun i s hs => ⟨s, rfl, by simpa using hs⟩
  | succ m ih =>
    intro i s hs
    rw [show 8 * (m + 1) + n = 8 + (8 * m + n) by omega] at hs
    obtain ⟨d, t, hd, ht⟩ := rdBits_supplied hs (by omega) le_rfl
    obtain ⟨u, hu, hn⟩ := ih (i + 1) (s := t.bufWrite b i d) ht
    exact ⟨u, by rw [readBytes, hd, Ran.bind_done, hu, Nat.add_right_comm]; rfl, hn⟩

theorem readBitsInto_supplied (b totalBits : Nat) {s : State}
    (hs : Supplied h k rest (min totalBits (8 * (s.buffer b).length)) s) :
    ∃ t, readBitsInto h b totalBits s = .done ((min totalBits (8 * (s.buffer b).length) + 7) / 8, .ok) t := by
  generalize hT : min totalBits (8 * (s.buffer b).length) = T at hs ⊢
  rw [← Nat.div_add_mod T 8] at hs
  obtain ⟨t, ht, hrest⟩ := readBytes_supplied b (T / 8) 0 hs
  rw [Nat.zero_add] at ht
  simp only [readBitsInto, splitBits, hT, ht, Ran.bind_done]
  by_cases hm : T % 8 = 0
  · exact ⟨t, by rw [if_pos hm, show (T + 7) / 8 = T / 8 by omega]⟩
  · obtain ⟨d, u, hd, -⟩ := rdBits_supplied (n := T % 8) (m := 0) hrest (by omega) (by omega)
    rw [if_neg hm, hd]
    exact ⟨_, by rw [Ran.bind_done, show (T + 7) / 8 = T / 8 + 1 by omega]⟩

end Supply

/-- Settles O26: every command of a call is served while the bits held and to be delivered are enough (`rdBits_supplied`). -/
theorem enoughInputLetsReadsSucceed : Obligations.EnoughInputLetsReadsSucceed := by
  intro s h k b n r bytes rest hu hi ok hsrc hw hscript len T
  have supplied : ∀ m, m ≤ r.count + 8 * bytes.length → Supplied h k rest m s :=
    fun m hm => ⟨r, bytes, hu, hi, ok, hsrc, hw, hscript, hm⟩
  refine ⟨fun hn => ?_, fun hn => ?_, fun hn => ?_⟩
  · obtain ⟨bits, t, ht⟩ := readBools_supplied n (supplied n hn)
    exact ⟨_, by rw [exec, execReadBoolSequence, ht]; rfl, rfl⟩
  · obtain ⟨t, ht, -⟩ := readBytes_supplied b len (n := 0) 0 (supplied _ hn)
    rw [Nat.zero_add] at ht
    exact ⟨_, by rw [exec, execReadByteStream, ht]; rfl, rfl⟩
  · obtain ⟨t, ht⟩ := readBitsInto_supplied b n (supplied _ hn)
    exact ⟨_, by rw [exec, execReadBitSequenceInto, ht]; rfl, rfl⟩

/-! ## Relations kept by the calls of one kind -/

/-- A transitive relation of the state before and the state after that holds where only fields of the host have changed. The
calls that read keep it where RD.BITS does, and the calls that write where WR.BITS does: `KeptByCommands` asks for both. -/
structure HostRelation (R : State → State → Prop) : Prop where
  trans : IsTrans State R
  host  : ∀ {s t : State}, t.units = s.units → t.sources = s.sources → t.sinks = s.sinks → t.responses = s.responses → R s t

section Kept

variable {R : State → State → Prop} (hR : HostRelation R)
include hR

theorem HostRelation.done {α : Type} {s t : State} (a : α) (hu : t.units = s.units) (hs : t.sources = s.sources)
    (hk : t.sinks = s.sinks) (hr : t.responses = s.responses) : (Ran.done a t).Leads R s :=
  hR.host hu hs hk hr

theorem HostRelation.finish {α : Type} {s t : State} {m : Ran α} (hm : m.Leads R s) {ret : α → Returned}
    (ht : m.finish ret = .next t) : R s t :=
  Ran.post_finish hm (fun _ _ hr => hR.trans.trans _ _ _ hr (hR.host rfl rfl rfl rfl)) ht

section Reading

variable (hrd : ∀ h N s, (rdBits h N s).Leads R s)
include hrd

theorem HostRelation.readBools (h m : Nat) : ∀ s, (Machine.readBools h m s).Leads R s := by
  induction m with
  | zero => exact fun s => hR.done _ rfl rfl rfl rfl
  | succ m ih =>
    refine fun s => Ran.leads_bind hR.trans (hrd h 1 s) fun resp t => ?_
    split
    · exact hR.done _ rfl rfl rfl rfl
    · exact Ran.leads_bind hR.trans (ih t) fun _ _ => hR.done _ rfl rfl rfl rfl

theorem HostRelation.readBytes (h b m : Nat) : ∀ i s, (Machine.readBytes h b m i s).Leads R s := by
  induction m with
  | zero => exact fun _ s => hR.done _ rfl rfl rfl rfl
  | succ m ih =>
    refine fun i s => Ran.leads_bind hR.trans (hrd h 8 s) fun resp t => ?_
    split
    · exact hR.done _ rfl rfl rfl rfl
    · have stored : R t (t.bufWrite b i resp.data) := hR.host rfl rfl rfl rfl
      exact Ran.leads_after hR.trans stored (ih (i + 1) _)

theorem HostRelation.readBitsInto (h b totalBits : Nat) (s : State) : (Machine.readBitsInto h b totalBits s).Leads R s := by
  refine Ran.leads_bind hR.trans (hR.readBytes hrd h b _ 0 s) fun p t => ?_
  split
  · exact hR.done _ rfl rfl rfl rfl
  · split
    · exact hR.done _ rfl rfl rfl rfl
    · refine Ran.leads_bind hR.trans (hrd h _ t) fun resp _ => ?_
      split
      · exact hR.done _ rfl rfl rfl rfl
      · exact hR.done _ rfl rfl rfl rfl

end Reading

section Writing

variable (hwr : ∀ h V N s, (wrBits h V N s).Leads R s)
include hwr

theorem HostRelation.writeBytes (h : Nat) (bytes : List Byte) : ∀ i s, (Machine.writeBytes h bytes i s).Leads R s := by
  induction bytes with
  | nil => exact fun _ s => hR.done _ rfl rfl rfl rfl
  | cons v bytes ih =>
    refine fun i s => Ran.leads_bind hR.trans (hwr h _ 8 s) fun resp t => ?_
    split
    · exact hR.done _ rfl rfl rfl rfl
    · exact ih (i + 1) t

theorem HostRelation.writeBitsFrom (h b totalBits : Nat) (s : State) :
    (Machine.writeBitsFrom h b totalBits s).Leads R s := by
  refine Ran.leads_bind hR.trans (hR.writeBytes hwr h _ 0 s) fun p t => ?_
  split
  · exact hR.done _ rfl rfl rfl rfl
  · split
    · exact hR.done _ rfl rfl rfl rfl
    · refine Ran.leads_bind hR.trans (hwr h _ _ t) fun resp _ => ?_
      split
      · exact hR.done _ rfl rfl rfl rfl
      · exact hR.done _ rfl rfl rfl rfl

theorem HostRelation.writeBools (h : Nat) (seq : List Bool) : ∀ s, (Machine.writeBools h seq s).Leads R s := by
  induction seq with
  | nil => exact fun s => hR.done _ rfl rfl rfl rfl
  | cons v seq ih =>
    refine fun s => Ran.leads_bind hR.trans (hwr h _ 1 s) fun resp t => ?_
    split
    · exact hR.done _ rfl rfl rfl rfl
    · exact ih t

end Writing

end Kept

/-! ## Errors come from streams -/

/-- From a state in its invariant the invariant is kept and every new error is one of a stream (`E`). -/
def OkTraced (E : ExtErr → State → State → Prop) (s t : State) : Prop := s.Ok → t.Ok ∧ ErrorsTraced E s t

theorem okTraced_host {E : ExtErr → State → State → Prop} (hE : StreamErrors E) : HostRelation (OkTraced E) where
  trans := ⟨fun _ _ _ h1 h2 ok => ⟨(h2 (h1 ok).1).1, (h1 ok).2.trans hE (h2 (h1 ok).1).2⟩⟩
  host hu hs hk hr ok := ⟨ok.congr hu hs hk, (ErrorsTraced.refl _).congr hE hs hk hr⟩

/-- A command that keeps the invariant and reports only errors it was told. -/
theorem Ran.leads_okTraced {E : ExtErr → State → State → Prop} {m : Ran Response} {s : State} (good : s.Ok → m.Good False)
    (traced : s.Ok → m.Traced E s Response.error?) : m.Leads (OkTraced E) s := by
  cases m with
  | done a t => exact fun ok => ⟨(good ok).1, (traced ok).1⟩
  | blocked t => exact fun ok => ⟨(good ok).1, traced ok⟩
  | fault f => trivial
  | refused q => trivial

theorem rdBits_okTraced (h N : Nat) (s : State) : (rdBits h N s).Leads (OkTraced SourceError) s :=
  Ran.leads_okTraced (fun ok => rdBits_good ok.keeps False.elim N) fun ok => rdBits_traced h N ok.2.1

theorem wrBits_okTraced (h V N : Nat) (s : State) : (wrBits h V N s).Leads (OkTraced SinkError) s :=
  Ran.leads_okTraced (fun ok => wrBits_good ok.keeps False.elim V N) (wrBits_traced h V N)

theorem wrFlush_okTraced (h : Nat) (s : State) : (wrFlush h s).Leads (OkTraced SinkError) s :=
  Ran.leads_okTraced (fun ok => wrFlush_good ok.keeps False.elim) (wrFlush_traced h)

/-- No response delivered from `s` to `t` is an error. -/
def NoNewError (s t : State) : Prop :=
  ∀ (h : Nat) e d, (h, { status := .err e, data := d }) ∉ t.responses.drop s.responses.length

theorem noNewError_same {s t : State} (hr : t.responses = s.responses) : NoNewError s t := by
  intro h e d hm
  rw [hr, List.drop_length] at hm
  cases hm

theorem respond_noNewError (h : Nat) (d : Byte) (s : State) : (respond h .ok d s).Leads NoNewError s := by
  intro j e d' hm
  rw [State.addResponse_responses, List.drop_left] at hm
  cases List.mem_singleton.mp hm

theorem wrapReader_noNewError (src : StreamHandle) (s : State) : (wrapReader src s).Leads NoNewError s := by
  cases src with
  | external k => exact noNewError_same rfl
  | unit h =>
    simp only [wrapReader]
    split
    · trivial
    · exact noNewError_same rfl
    · trivial
  | adapter h =>
    simp only [wrapReader]
    split
    · trivial
    · exact noNewError_same rfl
    · trivial

theorem wrapWriter_noNewError (snk : StreamHandle) (s : State) : (wrapWriter snk s).Leads NoNewError s := by
  cases snk with
  | external k => exact noNewError_same rfl
  | unit h =>
    simp only [wrapWriter]
    split
    · trivial
    · exact noNewError_same rfl
    · trivial
  | adapter h =>
    simp only [wrapWriter]
    split
    · trivial
    · exact noNewError_same rfl
    · trivial

/-- Settles O38: RD.BITS reports only errors of sources and WR.BITS and WR.FLUSH only errors of sinks, so the loops over them do
too; the other operations deliver no error. -/
theorem errorsComeFromStreams : Obligations.ErrorsComeFromStreams := by
  intro i s t h e d ok ht hm
  have source := okTraced_host (E := SourceError) (.inl rfl)
  have sink := okTraced_host (E := SinkError) (.inr rfl)
  have ofSource : OkTraced SourceError s t → SourceError e s t := fun traced => (traced ok).2.traced h e d hm
  have ofSink : OkTraced SinkError s t → SinkError e s t := fun traced => (traced ok).2.traced h e d hm
  have someNew : ¬ NoNewError s t := fun hn => hn h e d hm
  have rd := rdBits_okTraced
  have wr := wrBits_okTraced
  cases i with
  | rdBits N => exact .inl ⟨rfl, ofSource (source.finish (rd _ N s) ht)⟩
  | rdBit => exact .inl ⟨rfl, ofSource (source.finish (rd _ 1 s) ht)⟩
  | rdBool => exact .inl ⟨rfl, ofSource (source.finish (rd _ 1 s) ht)⟩
  | readBoolSequence r n =>
    have loop := Ran.leads_bind source.trans (source.readBools rd r n s) (f := fun p s1 => .done p.2 (s1.newSequence p.1 n))
      fun _ _ => source.done _ rfl rfl rfl rfl
    exact .inl ⟨rfl, ofSource (source.finish loop ht)⟩
  | readByteStream r b => exact .inl ⟨rfl, ofSource (source.finish (source.readBytes rd r b _ 0 s) ht)⟩
  | readBitSequenceInto r b totalBits =>
    exact .inl ⟨rfl, ofSource (source.finish (source.readBitsInto rd r b totalBits s) ht)⟩
  | wrBits V N => exact .inr ⟨rfl, ofSink (sink.finish (wr _ V N s) ht)⟩
  | wrBit b => exact .inr ⟨rfl, ofSink (sink.finish (wr _ b 1 s) ht)⟩
  | wrBool v => exact .inr ⟨rfl, ofSink (sink.finish (wr _ _ 1 s) ht)⟩
  | wrFlush => exact .inr ⟨rfl, ofSink (sink.finish (wrFlush_okTraced _ s) ht)⟩
  | writeByteStream w b => exact .inr ⟨rfl, ofSink (sink.finish (sink.writeBytes wr w _ 0 s) ht)⟩
  | writeBitSequenceFrom w b totalBits =>
    exact .inr ⟨rfl, ofSink (sink.finish (sink.writeBitsFrom wr w b totalBits s) ht)⟩
  | writeBoolSequence w q => exact .inr ⟨rfl, ofSink (sink.finish (sink.writeBools wr w _ s) ht)⟩
  | rdCount =>
    have count : (rdCount s.target s).Leads NoNewError s := asReader_post fun _ _ _ => respond_noNewError _ _ s
    exact absurd (Ran.post_finish count (fun _ _ hn => hn) ht) someNew
  | wrCount =>
    have count : (wrCount s.target s).Leads NoNewError s := asWriter_post fun _ _ _ => respond_noNewError _ _ s
    exact absurd (Ran.post_finish count (fun _ _ hn => hn) ht) someNew
  | wrapReader src => exact absurd (Ran.post_finish (wrapReader_noNewError src s) (fun _ _ hn => hn) ht) someNew
  | wrapWriter snk => exact absurd (Ran.post_finish (wrapWriter_noNewError snk s) (fun _ _ hn => hn) ht) someNew

end Sys2Proof.Machine

/-! PROOFS. The statements about the writer (`41_writer.md`): the bytes a run of WR.BITS puts into its sink, one bit,
wrap_writer and the three calls that write. -/

namespace Sys2Proof.Machine

/-! ## A run of WR.BITS packs its fields -/

section Packing

variable {bytes : List Byte} {j f : Nat}

theorem streamOf_drop (hj : j ≤ bytes.length) : (streamOf bytes).drop (8 * j) = streamOf (bytes.drop j) := by
  have cut := streamOf_append (bytes.take j) (bytes.drop j)
  have reach : (streamOf (bytes.take j)).length = 8 * j := by rw [streamOf_length, List.length_take_of_le hj]
  rw [List.take_append_drop] at cut
  rw [cut, ← reach, List.drop_left]

/-- The bits of whole bytes and then of fewer than eight more: how many bytes there are, and which bits are left. -/
theorem packed_split (acc : Byte) (hf : f ≤ 7) {S : List Bool} (hS : S = streamOf bytes ++ bitsOf acc f) :
    S.length / 8 = bytes.length ∧ S.length % 8 = f ∧ S.drop (8 * bytes.length) = bitsOf acc f := by
  have hlen : S.length = 8 * bytes.length + f := by rw [hS, List.length_append, streamOf_length, bitsOf_length]
  refine ⟨by omega, by omega, ?_⟩
  rw [hS, ← streamOf_length, List.drop_left]

/-- Byte `j` of a byte stream is the group value of its bits `8j` to `8j + 7` (R36, R37). -/
theorem packed_byte (later : List Bool) (hj : j < bytes.length) :
    (bytes.getD j 0).toNat = groupValue (((streamOf bytes ++ later).drop (8 * j)).take 8) := by
  have first : streamOf (bytes.drop j) = bitsOf bytes[j] 8 ++ streamOf (bytes.drop (j + 1)) := by
    rw [List.drop_eq_getElem_cons hj]; rfl
  rw [List.drop_append_of_le_length (by rw [streamOf_length]; omega), streamOf_drop hj.le, first, List.append_assoc,
    List.take_left' (bitsOf_length _ 8), groupValue_bitsOf, Nat.mod_eq_of_lt bytes[j].isLt, List.getD_eq_getElem _ _ hj]

end Packing

section Run

variable {h : Nat} {rest : List HostOp}

/-- A writer inside a command refuses the next, so that only the run of no commands gives a next state. -/
theorem run_writeWords_busy {groups : List (Nat × Nat)} {s t : State} {w : Writer}
    (hu : s.units[h]? = some (.writer w)) (hi : w.micro ≠ .idle) (hg : ∀ g ∈ groups, g.1 < 256 ∧ g.2 < 256)
    (hq : s.queue = writeWords h groups ++ rest) (hr : Host.Core.run Sys2Proof.core groups.length s = .next t) : t = s := by
  cases groups with
  | nil => exact (Host.Outcome.next.inj hr).symm
  | cons g groups =>
    obtain ⟨hV, hN⟩ := hg g List.mem_cons_self
    obtain ⟨s1, hs, -⟩ := run_succ_next hr
    rw [step_writeWord hq hV hN, wrBits_busy (s := s.takeOp h (writeWords h groups ++ rest)) hu hi] at hs
    cases hs

/-- A run of WR.BITS whose responses are all OK puts the fields' bits at the end of the writer's stream (R81). -/
theorem run_writeWords (groups : List (Nat × Nat)) : ∀ {s t : State} {w w' : Writer},
    s.units[h]? = some (.writer w) → w.micro = .idle → w.Ok → (∀ g ∈ groups, g.1 < 256 ∧ g.2 < 256) →
    s.queue = writeWords h groups ++ rest → Host.Core.run Sys2Proof.core groups.length s = .next t →
    t.units[h]? = some (.writer w') → w'.micro = .idle →
    ∃ l, t.responsesOf h = s.responsesOf h ++ l ∧ ((∀ r ∈ l, r.status = .ok) →
      w'.Ok ∧ w.accepted <+: w'.accepted ∧ w'.stream = w.stream ++ fieldBits groups) := by
  induction groups with
  | nil =>
    intro s t w w' hu hi ok _ _ hr hu' _
    obtain rfl : s = t := Host.Outcome.next.inj hr
    obtain rfl : w = w' := by simpa [hu] using hu'
    exact ⟨[], (List.append_nil _).symm, fun _ => ⟨ok, List.prefix_rfl, (List.append_nil _).symm⟩⟩
  | cons g groups ih =>
    intro s t w w' hu hi ok hg hq hr hu' hi'
    obtain ⟨hV, hN⟩ := hg g List.mem_cons_self
    have hg' : ∀ g ∈ groups, g.1 < 256 ∧ g.2 < 256 := fun g' hm => hg g' (List.mem_cons_of_mem _ hm)
    obtain ⟨s1, hs, hrun⟩ := run_succ_next hr
    rw [step_writeWord hq hV hN] at hs
    have frame := wrBits_frame h g.1 g.2 (s.takeOp h (writeWords h groups ++ rest))
    obtain ⟨a, u, hd, rfl⟩ | ⟨u, hd, rfl⟩ := Ran.finish_next hs
    · rw [hd] at frame
      obtain ⟨w1, hu1, ok1, hi1, -, hcase⟩ := wrBits_writes (s := s.takeOp h _) hu hi ok hd
      obtain ⟨l, hl, hrest⟩ := ih (s := { u with returned := some (.response a) }) hu1 hi1 ok1 hg' frame.queue hrun hu' hi'
      refine ⟨a :: l, ?_, fun hok => ?_⟩
      · have answered : u.responsesOf h = s.responsesOf h ++ [a] :=
          wrBits_response (s := s.takeOp h (writeWords h groups ++ rest)) hd
        rw [hl, List.append_cons, ← answered]
        rfl
      · obtain ⟨hao, hlo⟩ := List.forall_mem_cons.mp hok
        obtain ⟨-, hpre, hstr⟩ | ⟨e, rfl, -⟩ := hcase
        · obtain ⟨ok', hpre', hstr'⟩ := hrest hlo
          exact ⟨ok', hpre.trans hpre', by rw [hstr', hstr, List.append_assoc]; rfl⟩
        · cases hao
    · rw [hd] at frame
      obtain ⟨w1, hu1, hi1⟩ := wrBits_blocked hd
      obtain rfl := run_writeWords_busy (s := { u with returned := none }) hu1 hi1 hg' frame.queue hrun
      obtain rfl : w1 = w' := by simpa [hu1] using hu'
      exact absurd hi' hi1

end Run

/-- Settles O30: the run appends the fields' bits to the stream of an EMPTY writer (`run_writeWords`), which is its accepted
bytes and then the bits it holds (`packed_split`); the flush puts out those with zeros behind them (`Writer.flushByte_bits`). -/
theorem writerStreamCorrectness : Obligations.WriterStreamCorrectness := by
  intro s t h w w' groups rest hu hi hacc hfilled hg hq hrun hu' hi' hresp S
  obtain ⟨l, hl, hdone⟩ := run_writeWords groups hu hi (Writer.ok_emptied hi hacc hfilled) hg hq hrun hu' hi'
  rw [hl, List.drop_left] at hresp
  obtain ⟨ok', ⟨new, hnew⟩, hstr⟩ := hdone hresp
  have h7 := Writer.filled_of_idle ok' hi'
  have hS : S = streamOf new ++ bitsOf w'.acc w'.filled := by
    rw [Writer.stream, Writer.stream, hfilled, bitsOf, List.append_nil, ← hnew, streamOf_append, List.append_assoc] at hstr
    exact (List.append_cancel_left hstr).symm
  obtain ⟨hbytes, hheld, hlast⟩ := packed_split w'.acc h7 hS
  refine ⟨⟨new, hnew⟩, ?_, fun j hj => ?_, hheld.symm, ?_, fun t1 h0 ht1 hret => ?_⟩
  · rw [hbytes, ← hnew, List.length_append]
  · rw [hS, ← packed_byte _ (hbytes ▸ hj), ← hnew, List.getD_append_right _ _ _ _ (Nat.le_add_right _ _),
      Nat.add_sub_cancel_left]
  · rw [hbytes, hlast]
    exact toNat_eq_groupValue ok'.1
  · obtain ⟨a, u, hd, ha, htu⟩ := Ran.done_of_returned (m := wrFlush h { t with target := h }) ht1 hret
    obtain rfl : a = _ := Returned.response.inj ha
    obtain ⟨w1, hu1, -, -, ⟨-, hw1⟩ | ⟨e, he, -⟩⟩ := wrFlush_writes (s := { t with target := h }) hu' hi' hd
    · rw [if_neg h0] at hw1
      refine ⟨w1, w'.flushByte, htu ▸ hu1, by rw [hw1]; rfl, ?_⟩
      rw [hbytes, hlast, Writer.flushByte_bits (by omega)]
    · cases he

/-! ## One bit -/

/-- The operand of WR.BIT and WR.BOOL is its one bit, so that the writer shifts that in (R85, R86). -/
theorem Writer.insert_bit (w : Writer) (t : Bool) :
    w.insert (valueOperand (boolOperand t) (clamp8 1)) (clamp8 1) =
      { w with acc := (w.acc <<< 1) ||| (if t then 0x01 else 0x00), filled := w.filled + 1 } := by
  have field : valueOperand (boolOperand t) (clamp8 1) &&& mask (clamp8 1) = if t then 0x01 else 0x00 := by
    cases t with
    | true => rfl
    | false => rfl
  rw [Writer.insert, field]
  rfl

/-- Settles O29: both aliases are WR.BITS of one bit, which fits behind fewer than 7 bits (`wrBits_fits`) and completes the
byte behind 7 (`wrBits_exact`). -/
theorem writeBitAndWriteBool : Obligations.WriteBitAndWriteBool := by
  intro s w t hu hi _ h bit b emptied i hform
  have command : exec i s = (wrBits h (boolOperand t) 1 s).finish .response := by
    rcases hform with rfl | rfl
    · rfl
    · rfl
  refine ⟨fun hlt => ?_, fun h7 => ?_⟩
  · rw [command, wrBits_fits hu hi _ 1 Nat.one_ne_zero (Nat.succ_lt_succ hlt), Writer.insert_bit]
    rfl
  · have offer := wrBits_exact hu hi (boolOperand t) 1 Nat.one_ne_zero (congrArg Nat.succ h7)
    rw [Writer.insert_bit, h7] at offer
    refine ⟨fun s1 hs => ?_, fun e s1 hs => ?_⟩
    · rw [command, offer, hs]
      rfl
    · rw [command, offer, hs]
      rfl

/-! ## wrap_writer -/

/-- Settles O27: the three forms of a handle, by what the unit at it is. -/
theorem wrapWriterByHandle : Obligations.WrapWriter := by
  intro s k h
  refine ⟨rfl, fun w hu => ?_, fun r hu => ?_⟩
  · constructor <;> (rw [exec, execWrapWriter, wrapWriter, hu]; rfl)
  · constructor <;> (rw [exec, execWrapWriter, wrapWriter, hu]; rfl)

/-! ## Calls over streams that answer -/

/-- What is left of the writer `w` where an error has stopped a call after it had written `bits`: EMPTY, and as many bytes
accepted as those bits completed. -/
structure Writer.StoppedAfter (w w' : Writer) (bits : List Bool) : Prop where
  acc      : w'.acc = 0x00
  filled   : w'.filled = 0
  count    : w'.accepted.length = w.accepted.length + (w.filled + bits.length) / 8
  accepted : streamOf w'.accepted <+: w.stream ++ bits

/-- An error stops the writer `w1` that `w` has become by writing `bits`. -/
theorem Writer.stoppedAfter {w w1 : Writer} {bits : List Bool} (h7 : w1.filled ≤ 7) (hs : w1.stream = w.stream ++ bits) :
    w.StoppedAfter w1.afterRejected bits where
  acc := rfl
  filled := rfl
  count := by
    have hlen := congrArg List.length hs
    simp only [Writer.stream, List.length_append, streamOf_length, bitsOf_length] at hlen
    simp only [Writer.afterRejected]
    omega
  accepted := hs ▸ ⟨bitsOf w1.acc w1.filled, rfl⟩

/-- The field of a WR.BITS whose value operand is a byte: its low `m` bits. -/
theorem bitsOf_byteOperand (v : Byte) {m : Nat} (hm : m ≤ 8) :
    bitsOf (valueOperand v.toNat (clamp8 m)) (clamp8 m) = bitsOf v m := by
  rw [show clamp8 m = m from Nat.min_eq_left hm, valueOperand, BitVec.ofNat_toNat, BitVec.setWidth_eq,
    bitsOf_and_mask v le_rfl hm]

/-- What writing `k` whole elements of `buf` and the low `m` bits of the next has done where it ends with `(i, st)`, with the
writer gone from `w` to `w'`. -/
structure BitsFrom (h : Nat) (buf : List Byte) (k m i : Nat) (st : Status) (s t : State) (w w' : Writer) : Prop where
  unit      : t.units[h]? = some (.writer w')
  accepted  : w.accepted <+: w'.accepted
  responses : (t.responsesOf h).length = (s.responsesOf h).length + i + st.extra
  ok        : st = .ok → i = (8 * k + m + 7) / 8 ∧
    w'.stream = w.stream ++ (streamOf (buf.take k) ++ bitsOf (buf.getD k 0) m)
  err       : ∀ e, st = .err e → i < (8 * k + m + 7) / 8 ∧ w.StoppedAfter w' (streamOf (buf.take i))

section From

variable {h k m i : Nat} {buf : List Byte} {st : Status} {s t u v : State} {w w1 w' : Writer}

/-- Without a remainder. -/
theorem BitsFrom.whole_ok (whole : BitsFrom h buf k 0 i .ok s u w w1) :
    i = k ∧ w1.stream = w.stream ++ streamOf (buf.take k) := by
  obtain ⟨hn, hstr⟩ := whole.ok rfl
  exact ⟨by omega, by rwa [bitsOf, List.append_nil] at hstr⟩

/-- Each of the elements written before an error has completed one byte, since it has left the fill as it was. -/
theorem BitsFrom.stopped {e : ExtErr} (done : BitsFrom h buf k m i (.err e) s t w w') (h7 : w.filled ≤ 7)
    (hfit : 8 * k + m ≤ 8 * buf.length) :
    i < (8 * k + m + 7) / 8 ∧ w'.acc = 0x00 ∧ w'.filled = 0 ∧ w'.accepted.length = w.accepted.length + i ∧
      streamOf w'.accepted <+: w.stream ++ streamOf (buf.take i) ∧
      (t.responsesOf h).length = (s.responsesOf h).length + i + 1 := by
  obtain ⟨hn, stopped⟩ := done.err e rfl
  have hcount := stopped.count
  rw [streamOf_length, List.length_take_of_le (by omega)] at hcount
  exact ⟨hn, stopped.acc, stopped.filled, by omega, stopped.accepted, done.responses⟩

/-- The whole elements. -/
theorem writeBytes_bitsFrom (hu : s.units[h]? = some (.writer w)) (hi : w.micro = .idle) (ok : w.Ok)
    (hk : k ≤ buf.length) (hd : writeBytes h (buf.take k) 0 s = .done (i, st) t) :
    ∃ w', w'.Ok ∧ w'.micro = .idle ∧ BitsFrom h buf k 0 i st s t w w' := by
  obtain ⟨w', hu', ok', hi', -, -, -, hpre, hresp, hok, herr⟩ := writeBytes_writes h (buf.take k) 0 hu hi ok hd
  rw [List.length_take_of_le hk, Nat.zero_add] at hok herr
  refine ⟨w', ok', hi', hu', hpre, hresp, fun h0 => ?_, fun e h0 => ?_⟩
  · obtain ⟨hn, hstr⟩ := hok h0
    exact ⟨by omega, by rw [hstr, bitsOf, List.append_nil]⟩
  · obtain ⟨hn, w2, hstr, hfill, hw2⟩ := herr e h0
    rw [Nat.sub_zero, List.take_take, Nat.min_eq_left hn.le] at hstr
    exact ⟨by omega, hw2 ▸ Writer.stoppedAfter (hfill ▸ Writer.filled_of_idle ok hi) hstr⟩

variable (whole : BitsFrom h buf k 0 i .ok s u w w1) (hi : w1.micro = .idle) (ok : w1.Ok) (h0 : m ≠ 0) (h8 : m < 8)
  {a : Response} (ha : wrBits h (buf.getD k 0).toNat m u = .done a v)
include whole hi ok h0 h8 ha

/-- The remainder, written after the whole elements. -/
theorem BitsFrom.written (hst : a.status = .ok) : ∃ w', BitsFrom h buf k m (k + 1) .ok s v w w' := by
  obtain ⟨rfl, hstr⟩ := whole.whole_ok
  have hresp := congrArg List.length (wrBits_response ha)
  obtain ⟨w2, hu2, -, -, -, ⟨-, hpre, hstr2⟩ | ⟨e, rfl, -⟩⟩ := wrBits_writes whole.unit hi ok ha
  · rw [bitsOf_byteOperand _ h8.le] at hstr2
    refine ⟨w2, hu2, whole.accepted.trans hpre, ?_, fun _ => ⟨by omega, ?_⟩, nofun⟩
    · exact hresp.trans (by rw [List.length_append, whole.responses]; rfl)
    · rw [hstr2, hstr, List.append_assoc]
  · cases hst

/-- The remainder failed. -/
theorem BitsFrom.failed {e : ExtErr} (hst : a.status = .err e) : ∃ w', BitsFrom h buf k m k (.err e) s v w w' := by
  obtain ⟨rfl, hstr⟩ := whole.whole_ok
  have hresp := congrArg List.length (wrBits_response ha)
  obtain ⟨w2, hu2, -, -, -, ⟨rfl, -⟩ | ⟨-, -, rfl, -⟩⟩ := wrBits_writes whole.unit hi ok ha
  · cases hst
  · refine ⟨w1.afterRejected, hu2, whole.accepted, ?_, nofun, fun _ _ => ⟨by omega, ?_⟩⟩
    · exact hresp.trans (by rw [List.length_append, whole.responses]; rfl)
    · exact Writer.stoppedAfter (Writer.filled_of_idle ok hi) hstr

end From

/-- A done writeBitSequenceFrom has written whole elements and then, where there is one, the remainder (R84). -/
theorem writeBitsFrom_bitsFrom {h b totalBits i : Nat} {st : Status} {s t : State} {w : Writer}
    (hu : s.units[h]? = some (.writer w)) (hi : w.micro = .idle) (ok : w.Ok)
    (hd : writeBitsFrom h b totalBits s = .done (i, st) t) :
    ∃ w', BitsFrom h (s.buffer b) (splitBits totalBits (s.buffer b).length).1
      (splitBits totalBits (s.buffer b).length).2 i st s t w w' := by
  have hfit : (splitBits totalBits (s.buffer b).length).1 ≤ (s.buffer b).length ∧
      (splitBits totalBits (s.buffer b).length).2 < 8 := by
    simp only [splitBits]; omega
  rw [writeBitsFrom] at hd
  generalize splitBits totalBits (s.buffer b).length = split at hd hfit ⊢
  obtain ⟨k, m⟩ := split
  obtain ⟨⟨n, st0⟩, u, hbytes, hrest⟩ := Ran.bind_eq_done hd
  obtain ⟨w1, ok1, hi1, whole⟩ := writeBytes_bitsFrom hu hi ok hfit.1 hbytes
  cases st0 with
  | err e =>
    cases hrest
    obtain ⟨hlt, stopped⟩ := whole.err e rfl
    exact ⟨w1, whole.unit, whole.accepted, whole.responses, nofun, fun _ _ => ⟨by omega, stopped⟩⟩
  | ok =>
    by_cases hm : m = 0
    · subst hm
      obtain ⟨rfl, -⟩ := whole.whole_ok
      cases hrest
      exact ⟨w1, whole⟩
    · simp only [hm, if_false] at hrest
      obtain ⟨a, v, ha, hlast⟩ := Ran.bind_eq_done hrest
      cases hst : a.status with
      | err e =>
        rw [hst] at hlast
        cases hlast
        exact whole.failed hi1 ok1 hm hfit.2 ha hst
      | ok =>
        rw [hst] at hlast
        cases hlast
        exact whole.written hi1 ok1 hm hfit.2 ha hst

/-- Settles O33: the loop is done (`writeBytes_good`) as `BitsFrom` says, with the whole buffer to write and no remainder. -/
theorem writeByteStream : Obligations.WriteByteStream := by
  intro s h b w fair hu buf
  have hi := State.idle_of_get_writer fair.2.1 hu
  have ok := fair.1.writer hu
  obtain ⟨⟨i, st⟩, t, hd⟩ := (writeBytes_good h buf 0 fair.keeps fun _ => hasWriter_of_get hu).1.done
  have kept := writeBytes_keepsWriting buf 0 ⟨w, hu⟩
  rw [hd] at kept
  have result : exec (.writeByteStream h b) s = .next { t with returned := some (.count i st) } := by
    rw [exec, execWriteByteStream, hd]; rfl
  rw [← List.take_length (l := buf)] at hd
  obtain ⟨w', -, -, done⟩ := writeBytes_bitsFrom hu hi ok le_rfl hd
  refine ⟨_, w', i, st, result, done.unit, rfl, done.accepted, ?_, ?_, kept.2⟩
  · rintro rfl
    obtain ⟨hn, hstr⟩ := done.whole_ok
    rw [List.take_length] at hstr
    exact ⟨hn, hstr, done.responses⟩
  · rintro e rfl
    obtain ⟨hn, stopped⟩ := done.stopped (Writer.filled_of_idle ok hi) le_rfl
    exact ⟨by omega, stopped⟩

/-- Settles O34: the call is done (`writeBitsFrom_good`) as `BitsFrom` says. -/
theorem writeBitSequenceFrom : Obligations.WriteBitSequenceFrom := by
  intro s h b totalBits w fair hu buf T bits
  have hi := State.idle_of_get_writer fair.2.1 hu
  have ok := fair.1.writer hu
  obtain ⟨⟨i, st⟩, t, hd⟩ := (writeBitsFrom_good h b totalBits fair.keeps fun _ => hasWriter_of_get hu).done
  have kept := writeBitsFrom_keepsWriting b totalBits ⟨w, hu⟩
  rw [hd] at kept
  have result : exec (.writeBitSequenceFrom h b totalBits) s = .next { t with returned := some (.count i st) } := by
    rw [exec, execWriteBitSequenceFrom, hd]; rfl
  obtain ⟨w', done⟩ := writeBitsFrom_bitsFrom hu hi ok hd
  replace done : BitsFrom h buf (T / 8) (T % 8) i st s t w w' := done
  have hsplit : (8 * (T / 8) + T % 8 + 7) / 8 = (T + 7) / 8 := by omega
  refine ⟨_, w', i, st, result, done.unit, rfl, done.accepted, ?_, ?_, kept.2⟩
  · rintro rfl
    obtain ⟨hn, hstr⟩ := done.ok rfl
    exact ⟨hn.trans hsplit, hstr, done.responses⟩
  · rintro e rfl
    obtain ⟨hn, stopped⟩ := done.stopped (Writer.filled_of_idle ok hi) (by omega)
    exact ⟨hsplit ▸ hn, stopped⟩

/-- Settles O35: the loop is done (`writeBools_good`), and the bits before the first error are in the stream
(`writeBools_writes`). -/
theorem writeBoolSequence : Obligations.WriteBoolSequence := by
  intro s h q w fair hu seq
  obtain ⟨st, t, hd⟩ := (writeBools_good h seq fair.keeps fun _ => hasWriter_of_get hu).done
  have kept := writeBools_keepsWriting seq ⟨w, hu⟩
  rw [hd] at kept
  have result : exec (.writeBoolSequence h q) s = .next { t with returned := some (.status st) } := by
    rw [exec, execWriteBoolSequence, hd]; rfl
  obtain ⟨w', hu', -, -, -, hpre, hok, herr⟩ :=
    writeBools_writes h seq hu (State.idle_of_get_writer fair.2.1 hu) (fair.1.writer hu) hd
  refine ⟨_, w', st, result, hu', rfl, hpre, hok, fun e he => ?_, kept.2⟩
  obtain ⟨m, hm, hresp, w1, hstr, h7, rfl⟩ := herr e he
  have stopped := Writer.stoppedAfter h7 hstr
  have hcount := stopped.count
  rw [List.length_take_of_le hm.le] at hcount
  exact ⟨stopped.acc, stopped.filled, m, hm, hcount, stopped.accepted, hresp⟩

/-! ## Calls over a sink that accepts enough -/

/-- The writer at `h` is between commands, and its external sink `k` is to accept as many bytes as `n` more bits complete, and
then to do what `rest` says. -/
def Accepting (h k : Nat) (rest : List SinkEvent) (n : Nat) (s : State) : Prop :=
  ∃ (w : Writer) (m : Nat), s.units[h]? = some (.writer w) ∧ w.micro = .idle ∧ w.Ok ∧ w.snk = .external k ∧
    portWf Sink.untouched s.sinks ∧ (s.sink k).script = List.replicate m (.reply .ok) ++ rest ∧ (w.filled + n) / 8 ≤ m

section Accept

variable {h k : Nat} {rest : List SinkEvent}

theorem wrBits_accepting {n c : Nat} {s : State} (hs : Accepting h k rest (n + c) s) (h8 : n ≤ 8) (V : Nat) :
    ∃ t, wrBits h V n s = .done { status := .ok, data := 0x00 } t ∧ Accepting h k rest c t := by
  obtain ⟨w, m, hu, hi, ok, hsnk, hwf, hscript, hm⟩ := hs
  have width : clamp8 n = n := Nat.min_eq_left h8
  have next : 8 ≤ w.filled + clamp8 n → (s.sink k).next k = .reply .ok := by
    intro hfull
    obtain ⟨m', rfl⟩ : ∃ m', m = m' + 1 := ⟨m - 1, by omega⟩
    rw [Sink.next, hscript]
    rfl
  obtain ⟨t, w', hd, hu', ok', hi', hsnk', hwf', hfill, -, ⟨hlt, -, hsink⟩ | ⟨hge, b, -, hsink⟩⟩ :=
    wrBits_accepted (V := V) hwf hu hi ok hsnk next
  · exact ⟨t, hd, w', m, hu', hi', ok', hsnk', hwf', hsink ▸ hscript, by omega⟩
  · refine ⟨t, hd, w', m - 1, hu', hi', ok', hsnk', hwf', ?_, by omega⟩
    obtain ⟨m', rfl⟩ : ∃ m', m = m' + 1 := ⟨m - 1, by omega⟩
    rw [hsink, Sink.advance, hscript]
    rfl

theorem writeBytes_accepting (bytes : List Byte) {c : Nat} : ∀ (i : Nat) {s : State},
    Accepting h k rest (8 * bytes.length + c) s →
    ∃ t, writeBytes h bytes i s = .done (i + bytes.length, .ok) t ∧ Accepting h k rest c t := by
  induction bytes with
  | nil => exact fun i s hs => ⟨s, rfl, by simpa using hs⟩
  | cons v bytes ih =>
    intro i s hs
    rw [List.length_cons, show 8 * (bytes.length + 1) + c = 8 + (8 * bytes.length + c) by omega] at hs
    obtain ⟨t, hd, ht⟩ := wrBits_accepting hs le_rfl v.toNat
    obtain ⟨u, hu, hc⟩ := ih (i + 1) ht
    exact ⟨u, by rw [writeBytes, hd, Ran.bind_done, hu, List.length_cons, Nat.add_right_comm]; rfl, hc⟩

theorem writeBools_accepting (seq : List Bool) : ∀ {s : State}, Accepting h k rest seq.length s →
    ∃ t, writeBools h seq s = .done .ok t := by
  induction seq with
  | nil => exact fun {s} _ => ⟨s, rfl⟩
  | cons v seq ih =>
    intro s hs
    rw [List.length_cons, Nat.add_comm] at hs
    obtain ⟨t, hd, ht⟩ := wrBits_accepting hs (by omega) (boolOperand v)
    obtain ⟨u, hu⟩ := ih ht
    exact ⟨u, by rw [writeBools, hd, Ran.bind_done, hu]⟩

theorem writeBitsFrom_accepting (b totalBits : Nat) {s : State}
    (hs : Accepting h k rest (min totalBits (8 * (s.buffer b).length)) s) :
    ∃ t, writeBitsFrom h b totalBits s = .done ((min totalBits (8 * (s.buffer b).length) + 7) / 8, .ok) t := by
  generalize hT : min totalBits (8 * (s.buffer b).length) = T at hs ⊢
  have htake : ((s.buffer b).take (T / 8)).length = T / 8 := List.length_take_of_le (by omega)
  rw [← Nat.div_add_mod T 8, ← htake] at hs
  obtain ⟨t, ht, hrest⟩ := writeBytes_accepting _ 0 hs
  simp only [writeBitsFrom, splitBits, hT, ht, Ran.bind_done]
  by_cases hm : T % 8 = 0
  · exact ⟨t, by rw [if_pos hm, show (T + 7) / 8 = T / 8 by omega]⟩
  · obtain ⟨u, hd, -⟩ := wrBits_accepting (n := T % 8) (c := 0) hrest (by omega) ((s.buffer b).getD (T / 8) 0).toNat
    exact ⟨u, by rw [if_neg hm, hd, Ran.bind_done, show (T + 7) / 8 = T / 8 + 1 by omega]⟩

end Accept

/-- Settles O36: every command of a call is accepted while the sink is to accept the bytes still to be completed
(`wrBits_accepting`). -/
theorem acceptingSinksLetWritesSucceed : Obligations.AcceptingSinksLetWritesSucceed := by
  intro s h k b q n m w rest hu hi ok hsnk hwf hscript len T
  have h7 := Writer.filled_of_idle ok hi
  have accepting : ∀ c, (w.filled + c) / 8 ≤ m → Accepting h k rest c s :=
    fun c hc => ⟨w, m, hu, hi, ok, hsnk, hwf, hscript, hc⟩
  refine ⟨fun hm => ?_, fun hm => ?_, fun hm => ?_⟩
  · obtain ⟨t, ht, -⟩ := writeBytes_accepting (s.buffer b) (c := 0) 0 (accepting (8 * len) (by omega))
    rw [Nat.zero_add] at ht
    exact ⟨_, by rw [exec, execWriteByteStream, ht]; rfl, rfl⟩
  · obtain ⟨t, ht⟩ := writeBitsFrom_accepting b n (accepting T hm)
    exact ⟨_, by rw [exec, execWriteBitSequenceFrom, ht]; rfl, rfl⟩
  · obtain ⟨t, ht⟩ := writeBools_accepting (s.boolSeq q) (accepting _ hm)
    exact ⟨_, by rw [exec, execWriteBoolSequence, ht]; rfl, rfl⟩

end Sys2Proof.Machine

/-! PROOFS. The statements about how units and streams stay in step (`42_stream_sync.md`): the handshake machines, the
transition tables, the bits of a finite source, the machine with no operation, and which operations touch which streams. -/

namespace Sys2Proof.Machine

/-! ## The reader's handshake machine (R93) -/

/-- What the micro-steps of R93 do to a reader inside a command, up to the next state `t` of the command on the unit at `h`:
from the reader, after the output `out` by which it came to be, there are `requests` (with that of `out`) and the source
gives `answers`. The run ends where the command has returned its response, or where nothing was returned and a request is
outstanding. -/
inductive ReaderRun (h : Nat) (t : State) :
    (r : Reader) → (out : ReaderOutput) → (requests : Nat) → (answers : List SrcReply) → Prop where
  | ended {r : Reader} {a : Response} (unit : t.units[h]? = some (.reader r)) (ret : t.returned = some (.response a)) :
      ReaderRun h t r (.respond a) 0 []
  | waits {r : Reader} (unit : t.units[h]? = some (.reader r)) (ret : t.returned = none) : ReaderRun h t r .request 1 []
  | tick {r r1 : Reader} {out : ReaderOutput} {n : Nat} {answers : List SrcReply} (step : r.handshake .tick = some (r1, out))
      (rest : ReaderRun h t r1 out n answers) : ReaderRun h t r .quiet n answers
  | answer {r r1 : Reader} {out : ReaderOutput} {n : Nat} {a : SrcReply} {answers : List SrcReply}
      (step : r.handshake (.answer a) = some (r1, out)) (rest : ReaderRun h t r1 out n answers) :
      ReaderRun h t r .request (n + 1) (a :: answers)

theorem Reader.handshakes_cons {r r1 r2 : Reader} {ev : ReaderEvent} {evs : List ReaderEvent} {out : ReaderOutput}
    {outs : List ReaderOutput} (step : r.handshake ev = some (r1, out)) (rest : r1.handshakes evs = some (r2, outs)) :
    r.handshakes (ev :: evs) = some (r2, out :: outs) := by
  simp only [Reader.handshakes, step, rest]

/-- A run is a sequence of micro-steps with one output each. -/
theorem ReaderRun.handshakes {h n : Nat} {t : State} {r : Reader} {out : ReaderOutput} {answers : List SrcReply}
    (run : ReaderRun h t r out n answers) :
    ∃ evs outs r', r.handshakes evs = some (r', outs) ∧ t.units[h]? = some (.reader r') ∧
      (∀ ev ∈ evs, ev = .tick ∨ ∃ a, ev = .answer a) ∧ (out :: outs).count .request = n ∧ sourceAnswers evs = answers ∧
      ((∃ resp, t.returned = some (.response resp) ∧ (out :: outs).getLast? = some (.respond resp)) ∨
        (t.returned = none ∧ (out :: outs).getLast? = some .request)) := by
  induction run with
  | ended unit ret => exact ⟨[], [], _, rfl, unit, nofun, rfl, rfl, .inl ⟨_, ret, rfl⟩⟩
  | waits unit ret => exact ⟨[], [], _, rfl, unit, nofun, rfl, rfl, .inr ⟨ret, rfl⟩⟩
  | tick step _ ih =>
    obtain ⟨evs, outs, r', hrun, unit, hevs, hcount, hanswers, hlast⟩ := ih
    refine ⟨.tick :: evs, _, r', Reader.handshakes_cons step hrun, unit, ?_, ?_, hanswers, ?_⟩
    · exact List.forall_mem_cons.mpr ⟨.inl rfl, hevs⟩
    · exact (List.count_cons_of_ne (by decide)).trans hcount
    · rwa [List.getLast?_cons_cons]
  | answer step _ ih =>
    obtain ⟨evs, outs, r', hrun, unit, hevs, hcount, hanswers, hlast⟩ := ih
    refine ⟨.answer _ :: evs, _, r', Reader.handshakes_cons step hrun, unit, ?_, ?_, congrArg (List.cons _) hanswers, ?_⟩
    · exact List.forall_mem_cons.mpr ⟨.inr ⟨_, rfl⟩, hevs⟩
    · rw [List.count_cons_self, hcount]
    · rwa [List.getLast?_cons_cons]

section Reader

variable {h need N : Nat} {s t : State} {r : Reader}

/-- The chunk that completes an idle reader's command, from the byte just delivered or from the bits held. -/
theorem Reader.handshake_last_chunk (hi : r.micro = .idle) (held : Byte) (hn : need ≤ r.count) :
    Reader.handshake { r with micro := .extract need held } .tick =
      some ({ r with acc := r.acc &&& mask (r.count - need), count := r.count - need }, .respond
        { status := .ok, data := (held <<< need) ||| ((r.acc >>> (r.count - need)) &&& mask need) }) := by
  simp [Reader.handshake, Reader.take, Nat.min_eq_left hn, ← hi]

/-- The chunk that takes all the bits held and leaves more to be read. -/
theorem Reader.handshake_first_chunk (held : Byte) (hn : r.count < need) :
    Reader.handshake { r with micro := .extract need held } .tick =
      some ({ r.drained with
        micro := .waitSrc (need - r.count) ((held <<< r.count) ||| (r.acc &&& mask r.count)) }, .request) := by
  simp [Reader.handshake, Reader.take, Reader.drained, Nat.min_eq_right hn.le, Nat.sub_ne_zero_of_lt hn]

/-- What a source transaction that is done or waits for ever leaves in the log of the external source it is with. -/
theorem srcRead_log {b : Binding} {k : Nat} (hb : b = .external k) (hw : portWf Source.untouched s.sources) :
    (srcRead h h b s).Post (fun a t => (t.source k).log = (s.source k).log ++ [a])
      (fun t => (t.source k).log = (s.source k).log ++ []) := by
  subst hb
  rw [srcRead_external, pullSource]
  split
  · rw [Ran.post_done, State.source_setSource_same _ _ hw]
    rfl
  · exact (List.append_nil _).symm
  · trivial
  · trivial

/-- From its request on a reader does what RD.BITS does after its SrcRead. -/
theorem afterSrcRead_run {held : Byte} (hu : s.units[h]? = some (.reader r)) (hi : r.micro = .idle) (h8 : need ≤ 8)
    (ht : (afterSrcRead h r need held (srcRead h h r.src s)).finish .response = .next t) :
    ∃ answers, ReaderRun h t { r with micro := .waitSrc need held } .request 1 answers ∧
      ∀ k, r.src = .external k → portWf Source.untouched s.sources → (t.source k).log = (s.source k).log ++ answers := by
  have log := fun k hk hw => srcRead_log (h := h) (s := s) (b := r.src) (k := k) hk hw
  have frame := srcRead_frame h h r.src s
  cases he : srcRead h h r.src s with
  | done a s1 =>
    rw [he] at ht log frame
    have hu1 := ReadFrame.reader_above frame le_rfl hu
    cases a with
    | byte b =>
      obtain rfl := Host.Outcome.next.inj ht
      have chunk := Reader.handshake_last_chunk (r := { r with acc := b, count := 8, delivered := r.delivered ++ [b] })
        hi held h8
      exact ⟨_, .answer rfl (.tick chunk (.ended (State.setUnit_get_same _ (lt_of_get hu1)) rfl)), log⟩
    | err e =>
      obtain rfl := Host.Outcome.next.inj ht
      refine ⟨_, .answer rfl (.ended ?_ rfl), log⟩
      rw [← hi]
      exact hu1
  | blocked s1 =>
    rw [he] at ht log frame
    have hu1 := ReadFrame.reader_above frame le_rfl hu
    obtain rfl := Host.Outcome.next.inj ht
    exact ⟨[], .waits (State.setUnit_get_same _ (lt_of_get hu1)) rfl, log⟩
  | fault f => rw [he] at ht; cases ht
  | refused q => rw [he] at ht; cases ht

/-- RD.BITS is the micro-step that its word drives and a run from there, with at most one request. -/
theorem rdBits_run (hu : s.units[h]? = some (.reader r)) (hi : r.micro = .idle)
    (ht : (rdBits h N s).finish .response = .next t) :
    ∃ r1 out n answers, r.handshake (.bits N) = some (r1, out) ∧ ReaderRun h t r1 out n answers ∧ n ≤ 1 ∧
      ∀ k, r.src = .external k → portWf Source.untouched s.sources → (t.source k).log = (s.source k).log ++ answers := by
  by_cases hc : r.count = 0
  · rw [rdBits_empty hu hi N hc] at ht
    obtain ⟨answers, run, log⟩ := afterSrcRead_run hu hi (clamp8_le N) ht
    exact ⟨_, _, 1, answers, by simp only [Reader.handshake, hi, hc, if_true], run, le_rfl, log⟩
  · have start : r.handshake (.bits N) = some ({ r with micro := .extract (clamp8 N) 0x00 }, .quiet) := by
      simp only [Reader.handshake, hi, hc, if_false]
    by_cases hn : clamp8 N ≤ r.count
    · rw [rdBits_held hu hi N hc hn] at ht
      obtain rfl := Host.Outcome.next.inj ht
      refine ⟨_, _, 0, [], start, .tick (Reader.handshake_last_chunk hi 0x00 hn) (.ended ?_ ?_), Nat.zero_le 1,
        fun _ _ _ => (List.append_nil _).symm⟩
      · exact State.setUnit_get_same _ (lt_of_get hu)
      · simp
    · have hlt := Nat.not_le.mp hn
      rw [rdBits_straddle hu hi N hc hlt] at ht
      obtain ⟨answers, run, log⟩ :=
        afterSrcRead_run (State.setUnit_get_same (.reader r.drained) (lt_of_get hu)) hi (by have := clamp8_le N; omega) ht
      have chunk := Reader.handshake_first_chunk (r := r) 0x00 hlt
      have taken : ((0x00 : Byte) <<< r.count) ||| (r.acc &&& mask r.count) = r.acc &&& mask r.count := by simp
      rw [taken] at chunk
      exact ⟨_, _, 1, answers, start, .tick chunk run, le_rfl, log⟩

end Reader

/-- Settles O21: RD.BITS is a run of the handshake machine (`rdBits_run`), and a run is a sequence of micro-steps. -/
theorem readerHandshakeRunsRdBits : Obligations.ReaderHandshakeRunsRdBits := by
  intro s t r N hu hi _ ht
  obtain ⟨r1, out, n, answers, start, run, hn, log⟩ := rdBits_run hu hi ht
  obtain ⟨evs, outs, r', hrun, unit, hevs, hcount, hanswers, hlast⟩ := run.handshakes
  exact ⟨evs, out :: outs, r', Reader.handshakes_cons start hrun, unit, hevs, hcount ▸ hn, hlast, hanswers ▸ log⟩

/-! ## The writer's handshake machine (R97) -/

/-- What the micro-steps of R97 do to a writer inside a command, up to the next state `t` of the command on the unit at `h`:
from the writer, after the output `out` by which it came to be, the bytes `offers` (with that of `out`) are offered and the
sink gives `answers`. The run ends where the command has returned its response, or where nothing was returned and an offer
is outstanding. -/
inductive WriterRun (h : Nat) (t : State) :
    (w : Writer) → (out : WriterOutput) → (offers : List Byte) → (answers : List SinkReply) → Prop where
  | ended {w : Writer} {a : Response} (unit : t.units[h]? = some (.writer w)) (ret : t.returned = some (.response a)) :
      WriterRun h t w (.respond a) [] []
  | waits {w : Writer} {b : Byte} (unit : t.units[h]? = some (.writer w)) (ret : t.returned = none) :
      WriterRun h t w (.offer b) [b] []
  | tick {w w1 : Writer} {out : WriterOutput} {offers : List Byte} {answers : List SinkReply}
      (step : w.handshake .tick = some (w1, out)) (rest : WriterRun h t w1 out offers answers) :
      WriterRun h t w .quiet offers answers
  | answer {w w1 : Writer} {out : WriterOutput} {b : Byte} {offers : List Byte} {a : SinkReply} {answers : List SinkReply}
      (step : w.handshake (.answer a) = some (w1, out)) (rest : WriterRun h t w1 out offers answers) :
      WriterRun h t w (.offer b) (b :: offers) (a :: answers)

theorem Writer.handshakes_cons {w w1 w2 : Writer} {ev : WriterEvent} {evs : List WriterEvent} {out : WriterOutput}
    {outs : List WriterOutput} (step : w.handshake ev = some (w1, out)) (rest : w1.handshakes evs = some (w2, outs)) :
    w.handshakes (ev :: evs) = some (w2, out :: outs) := by
  simp only [Writer.handshakes, step, rest]

/-- A run is a sequence of micro-steps with one output each. -/
theorem WriterRun.handshakes {h : Nat} {t : State} {w : Writer} {out : WriterOutput} {offers : List Byte}
    {answers : List SinkReply} (run : WriterRun h t w out offers answers) :
    ∃ evs outs w', w.handshakes evs = some (w', outs) ∧ t.units[h]? = some (.writer w') ∧
      (∀ ev ∈ evs, ev = .tick ∨ ∃ a, ev = .answer a) ∧ bytesOffered (out :: outs) = offers ∧ sinkAnswers evs = answers ∧
      ((∃ resp, t.returned = some (.response resp) ∧ (out :: outs).getLast? = some (.respond resp)) ∨
        (t.returned = none ∧ ∃ b, (out :: outs).getLast? = some (.offer b))) := by
  induction run with
  | ended unit ret => exact ⟨[], [], _, rfl, unit, nofun, rfl, rfl, .inl ⟨_, ret, rfl⟩⟩
  | waits unit ret => exact ⟨[], [], _, rfl, unit, nofun, rfl, rfl, .inr ⟨ret, _, rfl⟩⟩
  | tick step _ ih =>
    obtain ⟨evs, outs, w', hrun, unit, hevs, hoffers, hanswers, hlast⟩ := ih
    refine ⟨.tick :: evs, _, w', Writer.handshakes_cons step hrun, unit, ?_, hoffers, hanswers, ?_⟩
    · exact List.forall_mem_cons.mpr ⟨.inl rfl, hevs⟩
    · rwa [List.getLast?_cons_cons]
  | answer step _ ih =>
    obtain ⟨evs, outs, w', hrun, unit, hevs, hoffers, hanswers, hlast⟩ := ih
    refine ⟨.answer _ :: evs, _, w', Writer.handshakes_cons step hrun, unit, ?_, congrArg (List.cons _) hoffers,
      congrArg (List.cons _) hanswers, ?_⟩
    · exact List.forall_mem_cons.mpr ⟨.inr ⟨_, rfl⟩, hevs⟩
    · rwa [List.getLast?_cons_cons]

section Writer

variable {h need V N : Nat} {s t : State} {w : Writer} {b v : Byte}

/-- A chunk behind which the byte is not full ends an idle writer's command. -/
theorem Writer.handshake_fits (hi : w.micro = .idle) (hn : w.filled + need < 8) :
    Writer.handshake { w with micro := .fill v need } .tick =
      some (w.insert v need, .respond { status := .ok, data := 0x00 }) := by
  have all : min need (8 - w.filled) = need := Nat.min_eq_left (by omega)
  simp [Writer.handshake, Writer.place, Writer.insert, all, hn.ne, ← hi]

/-- A chunk that makes the byte full is followed by its offer. -/
theorem Writer.handshake_full (hf : w.filled ≤ 8) (hn : 8 ≤ w.filled + need) :
    Writer.handshake { w with micro := .fill v need } .tick =
      let full := w.insert (v >>> (w.filled + need - 8)) (8 - w.filled)
      some ({ full with micro := .waitSnk v (w.filled + need - 8) }, .offer full.acc) := by
  have room : min need (8 - w.filled) = 8 - w.filled := Nat.min_eq_right (by omega)
  have left : need - (8 - w.filled) = w.filled + need - 8 := by omega
  simp [Writer.handshake, Writer.place, Writer.insert, room, left, Nat.add_sub_cancel' hf]

/-- The byte offered once nothing is left to place ends the command when it is accepted. -/
theorem Writer.handshake_accepted_last (hi : w.micro = .idle) :
    Writer.handshake { w with micro := .waitSnk v 0 } (.answer .ok) =
      some (w.afterAccepted w.flushByte, .respond { status := .ok, data := 0x00 }) := by
  simp [Writer.handshake, Writer.afterAccepted, Writer.flushByte, ← hi]

/-- With bits left to place, the writer goes on with them. -/
theorem Writer.handshake_accepted_more (hn : need ≠ 0) :
    Writer.handshake { w with micro := .waitSnk v need } (.answer .ok) =
      some ({ w.afterAccepted w.flushByte with micro := .fill v need }, .quiet) := by
  simp only [Writer.handshake, hn, if_false]
  rfl

/-- The byte on offer from a full writer is the one it holds. -/
theorem Writer.flushByte_of_full (hf : w.filled = 8) : w.flushByte = w.acc := by
  simp [Writer.flushByte, hf]

/-- What a sink transaction that is done or waits for ever leaves in the log of the external sink it is with. -/
theorem sinkWrite_log {b : Byte} {c : Binding} {k : Nat} (hc : c = .external k) (hw : portWf Sink.untouched s.sinks) :
    (sinkWrite h h c b s).Post (fun a t => (t.sink k).log = (s.sink k).log ++ [b].zip [a])
      (fun t => (t.sink k).log = (s.sink k).log ++ [b].zip []) := by
  subst hc
  rw [sinkWrite_external, offerSink]
  split
  · rw [Ran.post_done, State.sink_setSink_same _ _ hw]
    rfl
  · exact (List.append_nil _).symm
  · trivial

/-- With the byte `b` offered by the writer `w` there is a run to `t`, and it leaves this one offer in the sink's log, with the
answer, if there was one. -/
def RunsOffer (h : Nat) (s t : State) (w : Writer) (b v : Byte) (need : Nat) : Prop :=
  ∃ answers, WriterRun h t { w with micro := .waitSnk v need } (.offer b) [b] answers ∧
    ∀ k, w.snk = .external k → portWf Sink.untouched s.sinks → (t.sink k).log = (s.sink k).log ++ [b].zip answers

/-- From its offer on a writer does what the command does after its SinkWrite, if it does so after the sink has accepted
the byte: then the command ends with the writer `w'`. -/
theorem afterSinkWrite_run {w' : Writer} {rest : State → Ran Response} {out : WriterOutput} {w1 : Writer}
    (hu : s.units[h]? = some (.writer w)) (hi : w.micro = .idle)
    (hrest : ∀ s1 : State,
      rest (s1.setUnit h (.writer (w.afterAccepted b))) = respond h .ok 0x00 (s1.setUnit h (.writer w')))
    (accepted : Writer.handshake { w with micro := .waitSnk v need } (.answer .ok) = some (w1, out))
    (run : t.units[h]? = some (.writer w') → t.returned = some (.response { status := .ok, data := 0x00 }) →
      WriterRun h t w1 out [] [])
    (ht : (afterSinkWrite h w b v need rest (sinkWrite h h w.snk b s)).finish .response = .next t) :
    RunsOffer h s t w b v need := by
  have log := fun k hk hw => sinkWrite_log (h := h) (s := s) (b := b) (c := w.snk) (k := k) hk hw
  have frame := sinkWrite_frame h h w.snk b s
  cases he : sinkWrite h h w.snk b s with
  | done a s1 =>
    rw [he] at ht log frame
    have hlt := lt_of_get (WriteFrame.writer_above frame le_rfl hu)
    cases a with
    | ok =>
      rw [afterSinkWrite, hrest] at ht
      obtain rfl := Host.Outcome.next.inj ht
      exact ⟨[.ok], .answer accepted (run (State.setUnit_get_same _ hlt) rfl), log⟩
    | err e =>
      obtain rfl := Host.Outcome.next.inj ht
      refine ⟨[.err e], .answer rfl (.ended ?_ rfl), log⟩
      rw [← hi]
      exact State.setUnit_get_same _ hlt
  | blocked s1 =>
    rw [he] at ht log frame
    have hlt := lt_of_get (WriteFrame.writer_above frame le_rfl hu)
    obtain rfl := Host.Outcome.next.inj ht
    exact ⟨[], .waits (State.setUnit_get_same _ hlt) rfl, log⟩
  | fault f => rw [he] at ht; cases ht
  | refused q => rw [he] at ht; cases ht

/-- From the offer of a full byte that ends the field (R96, f + n = 8). -/
theorem fullWriter_run_last (hu : s.units[h]? = some (.writer w)) (hi : w.micro = .idle) (hf : w.filled = 8)
    (ht : (afterSinkWrite h w w.acc v 0 (respond h .ok 0x00) (sinkWrite h h w.snk w.acc s)).finish .response = .next t) :
    RunsOffer h s t w w.acc v 0 := by
  have accepted := Writer.handshake_accepted_last (v := v) hi
  rw [Writer.flushByte_of_full hf] at accepted
  exact afterSinkWrite_run hu hi (fun _ => rfl) accepted .ended ht

/-- From the offer of a full byte behind which `need` bits are still to be placed (R96, f + n > 8). -/
theorem fullWriter_run_more (hu : s.units[h]? = some (.writer w)) (hi : w.micro = .idle) (hf : w.filled = 8)
    (h0 : need ≠ 0) (h8 : need < 8)
    (ht : (afterSinkWrite h w w.acc v need
      (fun s2 => respond h .ok 0x00 (s2.setUnit h (.writer ((w.afterAccepted w.acc).insert v need))))
      (sinkWrite h h w.snk w.acc s)).finish .response = .next t) :
    RunsOffer h s t w w.acc v need := by
  have accepted := Writer.handshake_accepted_more (w := w) (v := v) h0
  rw [Writer.flushByte_of_full hf] at accepted
  have chunk := Writer.handshake_fits (w := w.afterAccepted w.acc) (v := v) (need := need) hi (by simpa [Writer.afterAccepted])
  exact afterSinkWrite_run hu hi (fun _ => by rw [State.setUnit_setUnit]) accepted
    (fun unit ret => .tick chunk (.ended unit ret)) ht

/-- The command that `ev` drives is the micro-step of `ev` and a run from there, with at most one offer. -/
def RunsCommand (h : Nat) (s t : State) (w : Writer) (ev : WriterEvent) : Prop :=
  ∃ w1 out offers answers, w.handshake ev = some (w1, out) ∧ WriterRun h t w1 out offers answers ∧ offers.length ≤ 1 ∧
    ∀ k, w.snk = .external k → portWf Sink.untouched s.sinks → (t.sink k).log = (s.sink k).log ++ offers.zip answers

theorem wrBits_run (hu : s.units[h]? = some (.writer w)) (hi : w.micro = .idle) (ok : w.Ok)
    (ht : (wrBits h V N s).finish .response = .next t) : RunsCommand h s t w (.bits V N) := by
  have h7 := Writer.filled_of_idle ok hi
  have h8 := clamp8_le N
  by_cases h0 : clamp8 N = 0
  · rw [wrBits_zero hu hi V N h0] at ht
    obtain rfl := Host.Outcome.next.inj ht
    exact ⟨_, _, [], [], by simp only [Writer.handshake, hi, h0, if_true], .ended hu rfl, Nat.zero_le 1,
      fun _ _ _ => (List.append_nil _).symm⟩
  · have start : w.handshake (.bits V N) =
        some ({ w with micro := .fill (valueOperand V (clamp8 N)) (clamp8 N) }, .quiet) := by
      simp only [Writer.handshake, hi, h0, if_false]
    rcases Nat.lt_trichotomy (w.filled + clamp8 N) 8 with hn | hn | hn
    · rw [wrBits_fits hu hi V N h0 hn] at ht
      obtain rfl := Host.Outcome.next.inj ht
      exact ⟨_, _, [], [], start, .tick (Writer.handshake_fits hi hn) (.ended (State.setUnit_get_same _ (lt_of_get hu)) rfl),
        Nat.zero_le 1, fun _ _ _ => (List.append_nil _).symm⟩
    · have room : 8 - w.filled = clamp8 N := by omega
      have step := Writer.handshake_full (v := valueOperand V (clamp8 N)) (h7.trans (by omega)) hn.ge
      simp only [hn, Nat.sub_self, BitVec.ushiftRight_zero, room] at step
      rw [wrBits_exact hu hi V N h0 hn] at ht
      obtain ⟨answers, run, log⟩ :=
        fullWriter_run_last (w := w.insert _ _) (State.setUnit_get_same _ (lt_of_get hu)) hi hn ht
      exact ⟨_, _, _, answers, start, .tick step run, le_rfl, log⟩
    · have left : clamp8 N - (8 - w.filled) = w.filled + clamp8 N - 8 := by omega
      have step := Writer.handshake_full (v := valueOperand V (clamp8 N)) (h7.trans (by omega)) hn.le
      rw [wrBits_over hu hi V N h7 hn, left] at ht
      obtain ⟨answers, run, log⟩ :=
        fullWriter_run_more (w := w.insert _ _) (State.setUnit_get_same _ (lt_of_get hu)) hi
          (Nat.add_sub_cancel' (by omega)) (Nat.sub_ne_zero_of_lt hn) (by omega) ht
      exact ⟨_, _, _, answers, start, .tick step run, le_rfl, log⟩

theorem wrFlush_run (hu : s.units[h]? = some (.writer w)) (hi : w.micro = .idle)
    (ht : (wrFlush h s).finish .response = .next t) : RunsCommand h s t w .flush := by
  by_cases h0 : w.filled = 0
  · rw [wrFlush_empty hu hi h0] at ht
    obtain rfl := Host.Outcome.next.inj ht
    exact ⟨_, _, [], [], by simp only [Writer.handshake, hi, h0, if_true], .ended hu rfl, Nat.zero_le 1,
      fun _ _ _ => (List.append_nil _).symm⟩
  · rw [wrFlush_partial hu hi h0] at ht
    obtain ⟨answers, run, log⟩ :=
      afterSinkWrite_run hu hi (fun _ => rfl) (Writer.handshake_accepted_last hi) .ended ht
    exact ⟨_, _, _, answers, by simp only [Writer.handshake, hi, h0, if_false], run, le_rfl, log⟩

end Writer

/-- Settles O32: both commands are runs of the handshake machine (`wrBits_run`, `wrFlush_run`), and a run is a sequence of
micro-steps. -/
theorem writerHandshakeRunsCommands : Obligations.WriterHandshakeRunsCommands := by
  intro s t w V N hu hi ok ev i hcommand ht
  have command : RunsCommand s.target s t w ev := by
    obtain ⟨rfl, rfl⟩ | ⟨rfl, rfl⟩ := hcommand
    · exact wrBits_run hu hi ok ht
    · exact wrFlush_run hu hi ht
  obtain ⟨w1, out, offers, answers, start, run, hone, log⟩ := command
  obtain ⟨evs, outs, w', hrun, unit, hevs, hoffers, hanswers, hlast⟩ := run.handshakes
  exact ⟨evs, out :: outs, w', Writer.handshakes_cons start hrun, unit, hevs, hoffers ▸ hone, hlast,
    hoffers ▸ hanswers ▸ log⟩

/-! ## The transitions of the reader (R92) -/

/-- The top `n` bits of an `m`-bit value need no mask. -/
theorem shiftRight_and_mask {v : Byte} {m n : Nat} (h8 : m ≤ 8) (hn : n ≤ m) (hv : v >>> m = 0) :
    (v >>> (m - n)) &&& mask n = v >>> (m - n) := by
  refine and_mask_of_shiftRight_eq_zero (hn.trans h8) ?_
  rw [← BitVec.shiftRight_add, Nat.sub_add_cancel hn, hv]

section ReaderRows

variable {s s1 : State} {h N : Nat} {r : Reader} (hu : s.units[h]? = some (.reader r)) (hi : r.micro = .idle)

/-- After Byte(b), with `need` bits still to come, the top bits of `b` complete the data. -/
theorem afterSrcRead_byte {need : Nat} (h8 : need ≤ 8) (held b : Byte) :
    (afterSrcRead h r need held (.done (.byte b) s1)).finish .response =
      .next ((s1.setUnit h (.reader (r.afterByte b need))).answers h
        { status := .ok, data := (held <<< need) ||| (b >>> (8 - need)) }) := by
  rw [afterSrcRead, shiftRight_and_mask le_rfl h8 (BitVec.ushiftRight_eq_zero le_rfl)]
  rfl

include hu hi

/-- EMPTY with Byte(b). -/
theorem rdBits_row_empty_byte (hc : r.count = 0) {b : Byte} (hs : srcRead h h r.src s = .done (.byte b) s1) :
    (rdBits h N s).finish .response =
      .next ((s1.setUnit h (.reader (r.afterByte b (clamp8 N)))).answers h
        { status := .ok, data := b >>> (8 - clamp8 N) }) := by
  rw [rdBits_empty hu hi N hc, hs, afterSrcRead_byte (clamp8_le N)]
  simp

/-- HOLDING(c), n ≤ c. -/
theorem rdBits_row_held (ok : r.Ok) (hc : 1 ≤ r.count) (hn : clamp8 N ≤ r.count) :
    (rdBits h N s).finish .response =
      .next ((s.setUnit h (.reader { r with
        acc := r.acc &&& mask (r.count - clamp8 N), count := r.count - clamp8 N })).answers h
          { status := .ok, data := r.acc >>> (r.count - clamp8 N) }) := by
  obtain ⟨h8, hacc, -⟩ := ok
  rw [rdBits_held hu hi N (by omega) hn, shiftRight_and_mask h8 hn hacc]
  rfl

/-- HOLDING(c), n > c, with Byte(b). -/
theorem rdBits_row_straddle_byte (ok : r.Ok) (hc : 1 ≤ r.count) (hn : r.count < clamp8 N) {b : Byte}
    (hs : srcRead h h r.src (s.setUnit h (.reader r.drained)) = .done (.byte b) s1) :
    (rdBits h N s).finish .response =
      .next ((s1.setUnit h (.reader (r.drained.afterByte b (clamp8 N - r.count)))).answers h
        { status := .ok, data := (r.acc <<< (clamp8 N - r.count)) ||| (b >>> (8 - (clamp8 N - r.count))) }) := by
  obtain ⟨h8, hacc, -⟩ := ok
  have width : clamp8 N - r.count ≤ 8 := (Nat.sub_le _ _).trans (clamp8_le N)
  rw [rdBits_straddle hu hi N (by omega) hn, hs, afterSrcRead_byte width, and_mask_of_shiftRight_eq_zero h8 hacc]

end ReaderRows

/-- Settles O17: the rows of RD.BITS by the bits held and the source's answer; an error leaves the reader as it was when its
source was asked. -/
theorem readerTransitions : Obligations.ReaderTransitions := by
  intro s r N hu hi ok h c n emptied
  have hdrained := State.setUnit_get_same (.reader r.drained) (lt_of_get hu)
  refine ⟨fun hc b s1 hs => rdBits_row_empty_byte hu hi hc hs, fun hc e s1 hs => ⟨?_, srcRead_keeps hs hu⟩,
    fun hc hn => rdBits_row_held hu hi ok hc hn, fun hc hn b s1 hs => rdBits_row_straddle_byte hu hi ok hc hn hs,
    fun hc hn e s1 hs => ⟨?_, srcRead_keeps hs hdrained⟩, ?_, by omega⟩
  · rw [exec, execRdBits, rdBits_empty hu hi N hc, hs]
    rfl
  · have failed : rdBits h N s = respondError h e s1 :=
      (rdBits_straddle hu hi N (Nat.pos_iff_ne_zero.mp hc) hn).trans (congrArg (afterSrcRead _ _ _ _) hs)
    rw [exec, execRdBits, failed]
    rfl
  · rw [exec, execRdCount, rdCount, asReader_of_idle hu hi]
    rfl

/-! ## The transitions of the writer (R96) -/

/-- A field of `n` bits goes into the accumulator as it is. -/
theorem Writer.insert_field {w : Writer} {n : Nat} (h8 : n ≤ 8) (V : Nat) :
    w.insert (valueOperand V n) n = { w with acc := (w.acc <<< n) ||| valueOperand V n, filled := w.filled + n } := by
  rw [Writer.insert, valueOperand, and_mask_and_mask _ le_rfl h8]

/-- An emptied writer then holds just what is placed in it. -/
theorem Writer.insert_emptied (w : Writer) (b v : Byte) (m : Nat) :
    (w.afterAccepted b).insert v m = { w.afterAccepted b with acc := v &&& mask m, filled := m } := by
  simp [Writer.insert, Writer.afterAccepted]

section WriterRows

variable {s : State} {h V N : Nat} {w : Writer} (hu : s.units[h]? = some (.writer w)) (hi : w.micro = .idle)

/-- After Ok or Err(e) the command goes on from the writer emptied. -/
theorem afterSinkWrite_rows {b v : Byte} {need : Nat} {rest : State → Ran Response} {w' : Writer} {m : Ran SinkReply}
    (hrest : ∀ s1 : State,
      rest (s1.setUnit h (.writer (w.afterAccepted b))) = respond h .ok 0x00 (s1.setUnit h (.writer w'))) :
    (∀ s1, m = .done .ok s1 → (afterSinkWrite h w b v need rest m).finish .response =
      .next ((s1.setUnit h (.writer w')).answers h { status := .ok, data := 0x00 })) ∧
    (∀ e s1, m = .done (.err e) s1 → (afterSinkWrite h w b v need rest m).finish .response =
      .next ((s1.setUnit h (.writer w.afterRejected)).answers h { status := .err e, data := 0x00 })) := by
  refine ⟨fun s1 hs => ?_, fun e s1 hs => ?_⟩
  · rw [hs, afterSinkWrite, hrest]
    rfl
  · rw [hs]
    rfl

include hu hi

/-- f + n < 8; with n = 0 nothing changes. -/
theorem wrBits_row_fits (hn : w.filled + clamp8 N < 8) :
    (wrBits h V N s).finish .response =
      .next ((s.setUnit h (.writer { w with
        acc := (w.acc <<< clamp8 N) ||| valueOperand V (clamp8 N), filled := w.filled + clamp8 N })).answers h
          { status := .ok, data := 0x00 }) := by
  rw [← Writer.insert_field (clamp8_le N)]
  by_cases h0 : clamp8 N = 0
  · have same : w.insert (valueOperand V 0) 0 = w := by simp [Writer.insert]
    rw [wrBits_zero hu hi V N h0, h0, same, State.setUnit_get_self hu]
    rfl
  · rw [wrBits_fits hu hi V N h0 hn]
    rfl

/-- f + n = 8: the byte offered is the f held bits, then all n. -/
theorem wrBits_row_exact (hf : w.filled ≤ 7) (hn : w.filled + clamp8 N = 8) :
    let v := valueOperand V (clamp8 N)
    let b := (w.acc <<< clamp8 N) ||| v
    let full : Writer := { w with acc := b, filled := 8 }
    wrBits h V N s = afterSinkWrite h full b v 0 (respond h .ok 0x00) (sinkWrite h h w.snk b (s.setUnit h (.writer full))) := by
  intro v b full
  have field : w.insert v (clamp8 N) = full := (Writer.insert_field (clamp8_le N) V).trans (by rw [hn])
  have offer := wrBits_exact hu hi V N (by omega) hn
  rwa [field] at offer

/-- f + n > 8: the byte offered is the f held bits, then the top 8 - f of the field; the others stay. -/
theorem wrBits_row_over (hf : w.filled ≤ 7) (hn : 8 < w.filled + clamp8 N) :
    let v := valueOperand V (clamp8 N)
    let m := w.filled + clamp8 N - 8
    let b := (w.acc <<< (8 - w.filled)) ||| (v >>> m)
    let full : Writer := { w with acc := b, filled := 8 }
    wrBits h V N s = afterSinkWrite h full b v m
      (fun s2 => respond h .ok 0x00 (s2.setUnit h (.writer ((full.afterAccepted b).insert v m))))
      (sinkWrite h h w.snk b (s.setUnit h (.writer full))) := by
  intro v m b full
  have top : w.insert (v >>> m) (8 - w.filled) = full :=
    Writer.insert_top (by omega) hn.le (and_mask_shiftRight_eq_zero _ (clamp8_le N))
  have offer := wrBits_over hu hi V N hf hn
  rw [show clamp8 N - (8 - w.filled) = m by omega] at offer
  simp only at offer
  rwa [top] at offer

end WriterRows

/-- Settles O28: the rows of WR.BITS by how far the field reaches, with the byte offered where it completes one, and those of
WR.FLUSH by whether bits are held. -/
theorem writerTransitions : Obligations.WriterTransitions := by
  intro s w V N hu hi ok h f n v emptied
  have h7 : f ≤ 7 := Writer.filled_of_idle ok hi
  refine ⟨wrBits_row_fits hu hi, fun hn => ?_, fun hn => ?_, fun hf => ?_, fun hf => ?_, ?_⟩
  · rw [exec, execWrBits, wrBits_row_exact hu hi h7 hn]
    exact afterSinkWrite_rows fun _ => rfl
  · rw [exec, execWrBits, wrBits_row_over hu hi h7 hn]
    refine afterSinkWrite_rows fun s1 => ?_
    rw [State.setUnit_setUnit, Writer.insert_emptied]
    rfl
  · rw [exec, execWrFlush, wrFlush_empty hu hi hf]
    rfl
  · rw [exec, execWrFlush, wrFlush_partial hu hi (Nat.pos_iff_ne_zero.mp hf)]
    exact afterSinkWrite_rows fun _ => rfl
  · rw [exec, execWrCount, wrCount, asWriter_of_idle hu hi]
    rfl

/-! ## A source of finitely many bytes (R91) -/

section Finite

variable {bytes : List Byte} {h k : Nat} {s : State} {r : Reader}

/-- RD.BITS takes the next bits of the source's stream, where there are as many. -/
theorem rdBits_ready_takes (hr : ReaderReady bytes h k s r) {N : Nat} (h1 : 1 ≤ clamp8 N)
    (hn : r.position + clamp8 N ≤ 8 * bytes.length) :
    ∃ d t r', rdBits h N s = .done { status := .ok, data := d } t ∧ ReaderReady bytes h k t r' ∧
      r.Reads r' (bitsOf d (clamp8 N)) ∧ (t.source k).tail = (s.source k).tail ∧ t.queue = s.queue ∧
      t.responses = s.responses ++ [(h, { status := .ok, data := d })] := by
  obtain ⟨rest, hscript, hbytes⟩ := hr.script
  have enough : clamp8 N ≤ r.count + 8 * rest.length := by
    have hcount := Reader.count_le_delivered hr.ok
    simp only [← hbytes, List.length_append, Reader.position] at hn
    omega
  obtain ⟨d, t, r', rest', hd, hu', ok', hi', hsrc', hwf', hscript', htail, hbytes', -, -, hreads, hresp⟩ :=
    rdBits_served hr.wf hr.unit hr.idle hr.ok hr.src hscript h1 enough
  have frame := rdBits_frame h N s
  rw [hd] at frame
  have ready : ReaderReady bytes h k t r' := ⟨hu', hi', ok', hsrc', hwf', rest', hscript', hbytes'.trans hbytes⟩
  exact ⟨d, t, r', hd, ready, hreads, htail, frame.queue, hresp⟩

/-- A run of RD.BITS words takes the next bits of the source's stream, group by group, where there are as many. -/
theorem run_readWords_takes {rest : List HostOp} (widths : List Nat) : ∀ {s : State} {r : Reader},
    ReaderReady bytes h k s r → (∀ n ∈ widths, 1 ≤ n ∧ n ≤ 8) → r.position + widths.sum ≤ 8 * bytes.length →
    s.queue = readWords h widths ++ rest →
    ∃ t r' datas, Host.Core.run Sys2Proof.core widths.length s = .next t ∧ ReaderReady bytes h k t r' ∧
      r.Reads r' (List.zipWith bitsOf datas widths).flatten ∧ r'.position = r.position + widths.sum ∧
      (t.source k).tail = (s.source k).tail ∧ t.queue = rest ∧ datas.length = widths.length ∧
      t.responses = s.responses ++ datas.map (fun d => (h, { status := .ok, data := d })) := by
  induction widths with
  | nil => exact fun {s r} hr _ _ hq => ⟨s, r, [], rfl, hr, .refl r, rfl, rfl, hq, rfl, (List.append_nil _).symm⟩
  | cons n widths ih =>
    intro s r hr hw hn hq
    obtain ⟨⟨h1, h8⟩, hw⟩ := List.forall_mem_cons.mp hw
    rw [List.sum_cons, ← Nat.add_assoc] at hn
    have width : clamp8 n = n := Nat.min_eq_left h8
    obtain ⟨d, t, r1, hd, hr1, hreads, htail, hq1, hresp⟩ :=
      rdBits_ready_takes (s := s.takeOp h (readWords h widths ++ rest)) (N := n) (hr.congr rfl rfl) (by omega) (by omega)
    have hpos := hreads.position
    rw [width] at hreads hpos
    rw [bitsOf_length] at hpos
    have hstep := step_readWord hq (by omega)
    rw [hd] at hstep
    obtain ⟨u, r2, datas, hrun, hr2, hreads2, hpos2, htail2, hq2, hlen, hresp2⟩ :=
      ih (s := { t with returned := some (.response { status := .ok, data := d }) }) (hr1.congr rfl rfl) hw (by omega) hq1
    refine ⟨u, r2, d :: datas, (run_succ _ hstep).trans hrun, hr2, hreads.trans hreads2, ?_, htail2.trans htail, hq2,
      congrArg Nat.succ hlen, ?_⟩
    · rw [hpos2, hpos, List.sum_cons, Nat.add_assoc]
    · rw [hresp2]
      simp only [hresp, List.map_cons, List.append_assoc, List.singleton_append]
      rfl

/-- A reader that has taken all bits of its source holds none and its source is to deliver none. -/
theorem ReaderReady.exhausted (hr : ReaderReady bytes h k s r) (hpos : r.position = 8 * bytes.length) :
    r.count = 0 ∧ r.delivered = bytes ∧ (s.source k).script = [] := by
  obtain ⟨rest, hscript, rfl⟩ := hr.script
  have hcount := Reader.count_le_delivered hr.ok
  simp only [Reader.position, List.length_append] at hpos
  obtain rfl : rest = [] := List.length_eq_zero_iff.mp (by omega)
  exact ⟨by simp at hpos; omega, (List.append_nil _).symm, hscript⟩

/-- RD.BITS on an EMPTY reader whose source only answers an error. -/
theorem rdBits_at_error {N : Nat} {e : ExtErr} (hr : ReaderReady bytes h k s r) (hc : r.count = 0)
    (hscript : (s.source k).script = []) (htail : (s.source k).tail = .always (.reply (.err e))) :
    ∃ t, rdBits h N s = .done { status := .err e, data := 0x00 } t := by
  have hnext : (s.source k).next k = .reply (.err e) := by simp only [Source.next, hscript, htail]
  rw [rdBits_empty hr.unit hr.idle N hc, hr.src, srcRead_external, pullSource_reply hnext]
  exact ⟨_, rfl⟩

end Finite

/-- Settles O22: the run takes all the bits of the source (`run_readWords_takes`), which leaves only its error
(`ReaderReady.exhausted`). -/
theorem exactlyTheBitsOfTheSource : Obligations.ExactlyTheBitsOfTheSource := by
  intro s h k r bytes widths hu hi hacc hc hsrc hwf hscript htail hw hsum hq
  have hempty : r.position = 8 * r.delivered.length := by rw [Reader.position, hc, Nat.sub_zero]
  have ok : r.Ok := by
    have drained : r.drained = r := by rw [Reader.drained, ← hacc, ← hc]
    exact drained ▸ Reader.ok_drained hi
  have start : ReaderReady (r.delivered ++ bytes) h k s r :=
    ⟨hu, hi, ok, hsrc, hwf, bytes, hscript.trans (List.append_nil _).symm, rfl⟩
  have total : r.position + widths.sum = 8 * (r.delivered ++ bytes).length := by rw [List.length_append]; omega
  obtain ⟨t, r', datas, hrun, hr', hreads, hpos, htail', hq', hlen, hresp⟩ :=
    run_readWords_takes widths start hw total.le hq
  obtain ⟨hc', hdelivered, hscript'⟩ := hr'.exhausted (hpos.trans total)
  obtain ⟨u, hfail⟩ := rdBits_at_error (s := t.takeOp h []) (N := 1) (hr'.congr rfl rfl) hc' hscript' (htail'.trans htail)
  have hstep : step t = (rdBits h 1 (t.takeOp h [])).finish .response := step_word hq' rfl
  rw [hfail] at hstep
  refine ⟨t, _, datas, hrun, hresp, hlen, ?_, hstep, rfl⟩
  have taken := hreads.taken
  have bits : (List.zipWith bitsOf datas widths).flatten.length = widths.sum :=
    Nat.add_left_cancel (hreads.position.symm.trans hpos)
  rw [bits, hdelivered, streamOf_append, hempty, ← streamOf_length, List.drop_left, List.take_of_length_le] at taken
  · exact taken.symm
  · rw [streamOf_length]; omega

/-! ## The idle machine -/

/-- Settles O9: with an empty queue there is nothing to fetch (`step_empty`). -/
theorem idleMachineStays : Obligations.IdleMachineStays := fun _ => step_empty

/-! ## Which operations touch which streams (R90, R94) -/

/-- The sources and all readers are as they were. -/
def ReadersKept (s t : State) : Prop :=
  t.sources = s.sources ∧
    ∀ (j : Nat) (r : Reader), s.units[j]? = some (BitUnit.reader r) → t.units[j]? = some (BitUnit.reader r)

/-- The sinks and all writers are as they were. -/
def WritersKept (s t : State) : Prop :=
  t.sinks = s.sinks ∧
    ∀ (j : Nat) (w : Writer), s.units[j]? = some (BitUnit.writer w) → t.units[j]? = some (BitUnit.writer w)

theorem readersKept_host : HostRelation ReadersKept where
  trans := ⟨fun _ _ _ h1 h2 => ⟨h2.1.trans h1.1, fun j r hr => h2.2 j r (h1.2 j r hr)⟩⟩
  host hu hs _ _ := ⟨hs, fun _ _ hr => hu ▸ hr⟩

theorem writersKept_host : HostRelation WritersKept where
  trans := ⟨fun _ _ _ h1 h2 => ⟨h2.1.trans h1.1, fun j w hw => h2.2 j w (h1.2 j w hw)⟩⟩
  host hu _ hk _ := ⟨hk, fun _ _ hw => hu ▸ hw⟩

theorem WriteFrame.readersKept {bound : Nat} {s t : State} (f : WriteFrame bound s t) : ReadersKept s t :=
  ⟨f.sources, f.readers⟩

theorem ReadFrame.writersKept {bound : Nat} {s t : State} (f : ReadFrame bound s t) : WritersKept s t :=
  ⟨f.sinks, f.writers⟩

theorem wrBits_readersKept (h V N : Nat) (s : State) : (wrBits h V N s).Leads ReadersKept s :=
  Ran.post_mono (wrBits_frame h V N s) (fun _ _ => WriteFrame.readersKept) fun _ => WriteFrame.readersKept

theorem wrFlush_readersKept (h : Nat) (s : State) : (wrFlush h s).Leads ReadersKept s :=
  Ran.post_mono (wrFlush_frame h s) (fun _ _ => WriteFrame.readersKept) fun _ => WriteFrame.readersKept

theorem rdBits_writersKept (h N : Nat) (s : State) : (rdBits h N s).Leads WritersKept s :=
  Ran.post_mono (rdBits_frame h N s) (fun _ _ => ReadFrame.writersKept) fun _ => ReadFrame.writersKept

/-- A wrap changes nothing or adds a unit. -/
def UnitAdded (s t : State) : Prop := t = s ∨ ∃ u, t = s.addUnit u

theorem wrapReader_unitAdded (src : StreamHandle) (s : State) : (wrapReader src s).Leads UnitAdded s := by
  cases src with
  | external k => exact .inr ⟨_, rfl⟩
  | unit h =>
    simp only [wrapReader]
    split
    · trivial
    · exact .inl rfl
    · trivial
  | adapter h =>
    simp only [wrapReader]
    split
    · trivial
    · exact .inr ⟨_, rfl⟩
    · trivial

theorem wrapWriter_unitAdded (snk : StreamHandle) (s : State) : (wrapWriter snk s).Leads UnitAdded s := by
  cases snk with
  | external k => exact .inr ⟨_, rfl⟩
  | unit h =>
    simp only [wrapWriter]
    split
    · trivial
    · exact .inl rfl
    · trivial
  | adapter h =>
    simp only [wrapWriter]
    split
    · trivial
    · exact .inr ⟨_, rfl⟩
    · trivial

/-- Neither the readers nor the writers nor their streams have changed. -/
def StreamsKept (s t : State) : Prop := ReadersKept s t ∧ WritersKept s t

theorem streamsKept_of_same {s t : State} (hu : t.units = s.units) (hs : t.sources = s.sources) (hk : t.sinks = s.sinks) :
    StreamsKept s t :=
  ⟨⟨hs, fun _ _ hr => hu ▸ hr⟩, ⟨hk, fun _ _ hw => hu ▸ hw⟩⟩

theorem UnitAdded.streamsKept {s t : State} (ht : UnitAdded s t) : StreamsKept s t := by
  obtain rfl | ⟨u, rfl⟩ := ht
  · exact streamsKept_of_same rfl rfl rfl
  · have old : ∀ {j : Nat} {v : BitUnit}, s.units[j]? = some v → (s.addUnit u).units[j]? = some v := fun hv => by
      rw [State.addUnit_units, List.getElem?_append_left (lt_of_get hv), hv]
    exact ⟨⟨rfl, fun _ _ => old⟩, ⟨rfl, fun _ _ => old⟩⟩

/-- Settles O42: what WR.BITS and WR.FLUSH do leaves sources and readers (`WriteFrame`), what RD.BITS does leaves sinks and
writers (`ReadFrame`), and so do the loops over them; the other operations leave both. -/
theorem onlyReadsPullAndOnlyWritesEmit : Obligations.OnlyReadsPullAndOnlyWritesEmit := by
  intro i s t ht
  have readers := readersKept_host
  have writers := writersKept_host
  have rd := rdBits_writersKept
  have wr := wrBits_readersKept
  have both : StreamsKept s t → (i.readsBits = false → ReadersKept s t) ∧ (i.emitsBytes = false → WritersKept s t) :=
    fun kept => ⟨fun _ => kept.1, fun _ => kept.2⟩
  cases i with
  | rdBits N => exact ⟨nofun, fun _ => writers.finish (rd _ N s) ht⟩
  | rdBit => exact ⟨nofun, fun _ => writers.finish (rd _ 1 s) ht⟩
  | rdBool => exact ⟨nofun, fun _ => writers.finish (rd _ 1 s) ht⟩
  | readBoolSequence r n =>
    have loop := Ran.leads_bind writers.trans (writers.readBools rd r n s) (f := fun p s1 => .done p.2 (s1.newSequence p.1 n))
      fun _ _ => writers.done _ rfl rfl rfl rfl
    exact ⟨nofun, fun _ => writers.finish loop ht⟩
  | readByteStream r b => exact ⟨nofun, fun _ => writers.finish (writers.readBytes rd r b _ 0 s) ht⟩
  | readBitSequenceInto r b totalBits =>
    exact ⟨nofun, fun _ => writers.finish (writers.readBitsInto rd r b totalBits s) ht⟩
  | wrBits V N => exact ⟨fun _ => readers.finish (wr _ V N s) ht, nofun⟩
  | wrBit b => exact ⟨fun _ => readers.finish (wr _ b 1 s) ht, nofun⟩
  | wrBool v => exact ⟨fun _ => readers.finish (wr _ _ 1 s) ht, nofun⟩
  | wrFlush => exact ⟨fun _ => readers.finish (wrFlush_readersKept _ s) ht, nofun⟩
  | writeByteStream w b => exact ⟨fun _ => readers.finish (readers.writeBytes wr w _ 0 s) ht, nofun⟩
  | writeBitSequenceFrom w b totalBits =>
    exact ⟨fun _ => readers.finish (readers.writeBitsFrom wr w b totalBits s) ht, nofun⟩
  | writeBoolSequence w q => exact ⟨fun _ => readers.finish (readers.writeBools wr w _ s) ht, nofun⟩
  | rdCount =>
    have count : (rdCount s.target s).Leads StreamsKept s := asReader_post fun _ _ _ => streamsKept_of_same rfl rfl rfl
    exact both (Ran.post_finish count (fun _ _ kept => kept) ht)
  | wrCount =>
    have count : (wrCount s.target s).Leads StreamsKept s := asWriter_post fun _ _ _ => streamsKept_of_same rfl rfl rfl
    exact both (Ran.post_finish count (fun _ _ kept => kept) ht)
  | wrapReader src =>
    have wrap := Ran.post_mono (wrapReader_unitAdded src s) (fun _ _ => UnitAdded.streamsKept) fun _ => UnitAdded.streamsKept
    exact both (Ran.post_finish wrap (fun _ _ kept => kept) ht)
  | wrapWriter snk =>
    have wrap := Ran.post_mono (wrapWriter_unitAdded snk s) (fun _ _ => UnitAdded.streamsKept) fun _ => UnitAdded.streamsKept
    exact both (Ran.post_finish wrap (fun _ _ kept => kept) ht)
end Sys2Proof.Machine

/-! PROOFS. The statements about errors (`60_exceptions.md`): the unit after an error response, and the commands an
operation of the host issues before it reports one. -/

namespace Sys2Proof.Machine

/-! ## The unit after an error response (R101) -/

/-- The reader addressed holds nothing and is between commands, its source has delivered nothing more, and its next command
runs. -/
def ReaderEmptied (s t : State) : Prop :=
  ∃ r r', s.units[s.target]? = some (.reader r) ∧ t.units[s.target]? = some (.reader r') ∧
    r'.acc = 0x00 ∧ r'.count = 0 ∧ r'.micro = .idle ∧ r'.delivered = r.delivered ∧
    exec .rdCount t = .next (t.answers t.target { status := .ok, data := 0x00 })

/-- The writer addressed likewise; its sink has accepted nothing more. -/
def WriterEmptied (s t : State) : Prop :=
  ∃ w w', s.units[s.target]? = some (.writer w) ∧ t.units[s.target]? = some (.writer w') ∧
    w'.acc = 0x00 ∧ w'.filled = 0 ∧ w'.micro = .idle ∧ w'.accepted = w.accepted ∧
    exec .wrCount t = .next (t.answers t.target { status := .ok, data := 0x00 })

/-- The idle reader at `h` has lost the bits it held, and nothing else has changed in it. -/
def ReaderDrained (h : Nat) (s t : State) : Prop :=
  ∃ r, s.units[h]? = some (.reader r) ∧ t.units[h]? = some (.reader r.drained) ∧ r.micro = .idle

/-- The idle writer at `h` has lost the bits it held, and nothing else has changed in it. -/
def WriterRejected (h : Nat) (s t : State) : Prop :=
  ∃ w, s.units[h]? = some (.writer w) ∧ t.units[h]? = some (.writer w.afterRejected) ∧ w.micro = .idle

section Emptied

variable {s t : State} {h : Nat} {e : ExtErr} {d : Byte}

/-- A command that is done has reached an idle reader. -/
theorem asReader_done {α : Type} {f : Reader → Ran α} {a : α} (hd : asReader h s f = .done a t) :
    ∃ r, s.units[h]? = some (.reader r) ∧ r.micro = .idle := by
  have key : (asReader h s f).Post (fun _ _ => ∃ r, s.units[h]? = some (.reader r) ∧ r.micro = .idle)
      fun _ => ∃ r, s.units[h]? = some (.reader r) ∧ r.micro = .idle :=
    asReader_post fun r hu hi => Ran.post_of_forall _ fun _ => ⟨r, hu, hi⟩
  rw [hd] at key
  exact key

/-- A command that is done has reached an idle writer. -/
theorem asWriter_done {α : Type} {f : Writer → Ran α} {a : α} (hd : asWriter h s f = .done a t) :
    ∃ w, s.units[h]? = some (.writer w) ∧ w.micro = .idle := by
  have key : (asWriter h s f).Post (fun _ _ => ∃ w, s.units[h]? = some (.writer w) ∧ w.micro = .idle)
      fun _ => ∃ w, s.units[h]? = some (.writer w) ∧ w.micro = .idle :=
    asWriter_post fun w hu hi => Ran.post_of_forall _ fun _ => ⟨w, hu, hi⟩
  rw [hd] at key
  exact key

/-- RD.BITS that ends in an error has emptied its reader. -/
theorem rdBits_error {N : Nat} (ok : s.Ok) (hd : rdBits h N s = .done { status := .err e, data := d } t) :
    d = 0x00 ∧ ReaderDrained h s t := by
  obtain ⟨r, hu, hi⟩ := asReader_done hd
  obtain ⟨_, hu', -, -, -, ⟨hst, -⟩ | ⟨e', he, rfl, -⟩⟩ := rdBits_reads hu hi (ok.reader hu) hd
  · cases hst
  · cases he
    exact ⟨rfl, r, hu, hu', hi⟩

/-- WR.BITS that ends in an error has emptied its writer. -/
theorem wrBits_error {V N : Nat} (ok : s.Ok) (hd : wrBits h V N s = .done { status := .err e, data := d } t) :
    d = 0x00 ∧ WriterRejected h s t := by
  obtain ⟨w, hu, hi⟩ := asWriter_done hd
  obtain ⟨_, hu', -, -, -, ⟨hok, -⟩ | ⟨e', he, rfl, -⟩⟩ := wrBits_writes hu hi (ok.writer hu) hd
  · cases hok
  · cases he
    exact ⟨rfl, w, hu, hu', hi⟩

/-- WR.FLUSH that ends in an error has emptied its writer. -/
theorem wrFlush_error (hd : wrFlush h s = .done { status := .err e, data := d } t) :
    d = 0x00 ∧ WriterRejected h s t := by
  obtain ⟨w, hu, hi⟩ := asWriter_done hd
  obtain ⟨_, hu', -, -, ⟨hok, -⟩ | ⟨e', he, rfl, -⟩⟩ := wrFlush_writes hu hi hd
  · cases hok
  · cases he
    exact ⟨rfl, w, hu, hu', hi⟩

/-- RD.COUNT on an EMPTY reader. -/
theorem exec_rdCount_empty {r : Reader} (hu : t.units[t.target]? = some (.reader r)) (hi : r.micro = .idle)
    (hc : r.count = 0) : exec .rdCount t = .next (t.answers t.target { status := .ok, data := 0x00 }) := by
  rw [exec, execRdCount, rdCount, asReader_of_idle hu hi, hc]
  rfl

/-- WR.COUNT on an EMPTY writer. -/
theorem exec_wrCount_empty {w : Writer} (hu : t.units[t.target]? = some (.writer w)) (hi : w.micro = .idle)
    (hf : w.filled = 0) : exec .wrCount t = .next (t.answers t.target { status := .ok, data := 0x00 }) := by
  rw [exec, execWrCount, wrCount, asWriter_of_idle hu hi, hf]
  rfl

variable (hr : t.returned = some (.response { status := .err e, data := d }))
include hr

/-- A command that has returned an error response was done with it. -/
theorem Ran.done_of_returned_error {m : Ran Response} (ht : m.finish .response = .next t) :
    ∃ u, m = .done { status := .err e, data := d } u ∧ t.units = u.units ∧ t.target = u.target := by
  obtain ⟨a, u, rfl, rfl⟩ | ⟨u, rfl, rfl⟩ := Ran.finish_next ht
  · cases hr
    exact ⟨u, rfl, rfl, rfl⟩
  · cases hr

theorem rdBits_emptied {N : Nat} (ok : s.Ok) (ht : (rdBits s.target N s).finish .response = .next t) :
    d = 0x00 ∧ ReaderEmptied s t := by
  obtain ⟨u, hd, htu, htt⟩ := Ran.done_of_returned_error hr ht
  have frame := rdBits_frame s.target N s
  rw [hd] at frame
  obtain ⟨hzero, r, hu, hu', hi⟩ := rdBits_error ok hd
  rw [← htu] at hu'
  refine ⟨hzero, r, r.drained, hu, hu', rfl, rfl, hi, rfl, exec_rdCount_empty (r := r.drained) ?_ hi rfl⟩
  rw [htt, frame.target, hu']

/-- The commands of a writer that can end in an error. -/
theorem writing_emptied {m : Ran Response} (frame : m.KeepsWrite (s.target + 1) s)
    (error : ∀ {u}, m = .done { status := .err e, data := d } u → d = 0x00 ∧ WriterRejected s.target s u)
    (ht : m.finish .response = .next t) : d = 0x00 ∧ WriterEmptied s t := by
  obtain ⟨u, hd, htu, htt⟩ := Ran.done_of_returned_error hr ht
  rw [hd] at frame
  obtain ⟨hzero, w, hu, hu', hi⟩ := error hd
  rw [← htu] at hu'
  refine ⟨hzero, w, w.afterRejected, hu, hu', rfl, rfl, hi, rfl, exec_wrCount_empty (w := w.afterRejected) ?_ hi rfl⟩
  rw [htt, frame.target, hu']

theorem wrBits_emptied {V N : Nat} (ok : s.Ok) (ht : (wrBits s.target V N s).finish .response = .next t) :
    d = 0x00 ∧ WriterEmptied s t :=
  writing_emptied hr (wrBits_frame s.target V N s) (wrBits_error ok) ht

theorem wrFlush_emptied (ht : (wrFlush s.target s).finish .response = .next t) : d = 0x00 ∧ WriterEmptied s t :=
  writing_emptied hr (wrFlush_frame s.target s) wrFlush_error ht

end Emptied

/-- Settles O37: RD.BITS that fails leaves its reader drained, and WR.BITS or WR.FLUSH its writer rejected and EMPTY; the
counts never fail, and the other operations return no response. -/
theorem stateAfterAnError : Obligations.StateAfterAnError := by
  intro i s t e d ok ht hr
  cases i with
  | rdBits N => exact (rdBits_emptied hr ok ht).imp_right fun emptied => .inl ⟨rfl, emptied⟩
  | rdBit => exact (rdBits_emptied hr ok ht).imp_right fun emptied => .inl ⟨rfl, emptied⟩
  | wrBits V N => exact (wrBits_emptied hr ok ht).imp_right fun emptied => .inr ⟨rfl, emptied⟩
  | wrBit b => exact (wrBits_emptied hr ok ht).imp_right fun emptied => .inr ⟨rfl, emptied⟩
  | wrBool v => exact (wrBits_emptied hr ok ht).imp_right fun emptied => .inr ⟨rfl, emptied⟩
  | wrFlush => exact (wrFlush_emptied hr ht).imp_right fun emptied => .inr ⟨rfl, emptied⟩
  | rdCount =>
    obtain ⟨r, -, hok⟩ := Ran.post_returned (rdCount_data s.target s) hr ht
    cases hok
  | wrCount =>
    obtain ⟨w, -, hok⟩ := Ran.post_returned (wrCount_data s.target s) hr ht
    cases hok
  | _ =>
    obtain ⟨a, u, -, ha, -⟩ := Ran.done_of_returned ht hr
    cases ha

/-! ## No command after the first error response (R102, R103) -/

/-- What a command or a call that ends with a status delivers after the responses that are OK. -/
def Status.failure : Status → List Response
  | .ok => []
  | .err e => [{ status := .err e, data := 0x00 }]

/-- From `s` to `t` the unit at `h` has delivered responses that are OK, and then the error of `st` if it is one. -/
def Delivered (h : Nat) (s t : State) (st : Status) : Prop :=
  ∃ l, t.responsesOf h = s.responsesOf h ++ (l ++ st.failure) ∧ ∀ r ∈ l, r.status = .ok

/-- An operation on the unit at `h` that stops at its first error: done, it has delivered what its `status` says; waiting,
only responses that are OK. -/
abbrev Ran.Delivers {α : Type} (h : Nat) (status : α → Status) (s : State) (m : Ran α) : Prop :=
  m.Post (fun a t => Delivered h s t (status a)) fun t => Delivered h s t .ok

section Delivers

variable {h : Nat} {s t u : State} {st : Status}

theorem delivered_none (hr : t.responsesOf h = s.responsesOf h) : Delivered h s t .ok :=
  ⟨[], hr.trans (List.append_nil _).symm, nofun⟩

theorem Delivered.trans (h1 : Delivered h s t .ok) (h2 : Delivered h t u st) : Delivered h s u st := by
  obtain ⟨l1, e1, ok1⟩ := h1
  obtain ⟨l2, e2, ok2⟩ := h2
  refine ⟨l1 ++ l2, ?_, fun r hr => (List.mem_append.mp hr).elim (ok1 r) (ok2 r)⟩
  simp only [e2, e1, Status.failure, List.append_nil, List.append_assoc]

/-- Responses that are OK may come before. -/
theorem Delivered.ran {α : Type} {status : α → Status} {m : Ran α} (hd : Delivered h s t .ok)
    (hm : m.Delivers h status t) : m.Delivers h status s :=
  Ran.post_mono hm (fun _ _ => hd.trans) fun _ => hd.trans

/-- One response, whose data is 0x00 where it is an error. -/
theorem delivered_response {a : Response} (hr : t.responsesOf h = s.responsesOf h ++ [a])
    (hz : a.status ≠ .ok → a.data = 0x00) : Delivered h s t a.status := by
  obtain ⟨st, d⟩ := a
  cases st with
  | ok => exact ⟨_, hr.trans (by rw [Status.failure, List.append_nil]), by simp⟩
  | err e =>
    obtain rfl := hz nofun
    exact ⟨[], hr, nofun⟩

/-- A command delivers one response, or none where it waits. -/
theorem command_delivers {m : Ran Response} {waits : State → Prop}
    (response : ∀ {a t}, m = .done a t → t.responsesOf h = s.responsesOf h ++ [a])
    (zero : m.Post (fun a _ => a.status ≠ .ok → a.data = 0x00) fun _ => True) (ends : m.EndsCommand h waits s) :
    m.Delivers h Response.status s := by
  cases m with
  | done a t => exact delivered_response (response rfl) zero
  | blocked t => exact delivered_none ends.1
  | fault f => trivial
  | refused q => trivial

theorem rdBits_delivers (h N : Nat) (s : State) : (rdBits h N s).Delivers h Response.status s :=
  command_delivers rdBits_response (Ran.post_mono (rdBits_dataFits h N s) (fun _ _ fits => fits.2) fun _ => id)
    (rdBits_ends h N s)

theorem wrBits_delivers (h V N : Nat) (s : State) : (wrBits h V N s).Delivers h Response.status s :=
  command_delivers wrBits_response (Ran.post_mono (wrBits_noData h V N s) (fun _ _ zero _ => zero) fun _ => id)
    (wrBits_ends h V N s)

theorem wrFlush_delivers (h : Nat) (s : State) : (wrFlush h s).Delivers h Response.status s :=
  command_delivers wrFlush_response (Ran.post_mono (wrFlush_noData h s) (fun _ _ zero _ => zero) fun _ => id)
    (wrFlush_ends h s)

theorem rdCount_delivers (h : Nat) (s : State) : (rdCount h s).Delivers h Response.status s :=
  asReader_post fun _ _ _ => delivered_response (responsesOf_addResponse s h _) fun hne => absurd rfl hne

theorem wrCount_delivers (h : Nat) (s : State) : (wrCount h s).Delivers h Response.status s :=
  asWriter_post fun _ _ _ => delivered_response (responsesOf_addResponse s h _) fun hne => absurd rfl hne

/-! ### The calls -/

theorem readBools_delivers (h m : Nat) : ∀ s, (readBools h m s).Delivers h Prod.snd s := by
  induction m with
  | zero => exact fun _ => delivered_none rfl
  | succ m ih =>
    refine fun s => Ran.post_bind (rdBits_delivers h 1 s) fun resp t ht => ?_
    split
    · next e hst => exact hst ▸ ht
    · next hst => exact Ran.post_bind ((hst ▸ ht : Delivered h s t .ok).ran (ih t)) fun _ _ hu => hu

theorem readBytes_delivers (h b m : Nat) : ∀ i s, (readBytes h b m i s).Delivers h Prod.snd s := by
  induction m with
  | zero => exact fun _ _ => delivered_none rfl
  | succ m ih =>
    refine fun i s => Ran.post_bind (rdBits_delivers h 8 s) fun resp t ht => ?_
    split
    · next e hst => exact (hst ▸ ht : Delivered h s t (.err e))
    · next hst => exact (hst ▸ ht : Delivered h s t .ok).ran (t := t.bufWrite b i resp.data) (ih (i + 1) _)

theorem readBitsInto_delivers (h b totalBits : Nat) (s : State) :
    (readBitsInto h b totalBits s).Delivers h Prod.snd s := by
  refine Ran.post_bind (readBytes_delivers h b _ 0 s) fun p t ht => ?_
  split
  · next e hst => exact hst ▸ ht
  · next hst =>
    have whole : Delivered h s t .ok := hst ▸ ht
    split
    · exact whole
    · refine Ran.post_bind (whole.ran (rdBits_delivers h _ t)) fun resp u hu => ?_
      split
      · next e hst => exact (hst ▸ hu : Delivered h s u (.err e))
      · next hst => exact (hst ▸ hu : Delivered h s u .ok)

theorem writeBytes_delivers (h : Nat) (bytes : List Byte) : ∀ i s, (writeBytes h bytes i s).Delivers h Prod.snd s := by
  induction bytes with
  | nil => exact fun _ _ => delivered_none rfl
  | cons v bytes ih =>
    refine fun i s => Ran.post_bind (wrBits_delivers h _ 8 s) fun resp t ht => ?_
    split
    · next e hst => exact hst ▸ ht
    · next hst => exact (hst ▸ ht : Delivered h s t .ok).ran (ih (i + 1) t)

theorem writeBitsFrom_delivers (h b totalBits : Nat) (s : State) :
    (writeBitsFrom h b totalBits s).Delivers h Prod.snd s := by
  refine Ran.post_bind (writeBytes_delivers h _ 0 s) fun p t ht => ?_
  split
  · next e hst => exact hst ▸ ht
  · next hst =>
    have whole : Delivered h s t .ok := hst ▸ ht
    split
    · exact whole
    · refine Ran.post_bind (whole.ran (wrBits_delivers h _ _ t)) fun resp u hu => ?_
      split
      · next e hst => exact hst ▸ hu
      · next hst => exact hst ▸ hu

theorem writeBools_delivers (h : Nat) (seq : List Bool) : ∀ s, (writeBools h seq s).Delivers h id s := by
  induction seq with
  | nil => exact fun _ => delivered_none rfl
  | cons v seq ih =>
    refine fun s => Ran.post_bind (wrBits_delivers h _ 1 s) fun resp t ht => ?_
    split
    · next e hst => exact hst ▸ ht
    · next hst => exact (hst ▸ ht : Delivered h s t .ok).ran (ih t)

/-! ### The operations -/

/-- From `s` to `t` the unit at `h` has delivered no response after an error, and the status returned is that of the last. -/
def StoppedAtFirstError (h : Nat) (s t : State) : Prop :=
  ∃ l, t.responsesOf h = s.responsesOf h ++ l ∧
    (∀ r ∈ l.dropLast, r.status = .ok) ∧
    (∀ x st, t.returned = some x → x.status? = some st →
      (st = .ok → ∀ r ∈ l, r.status = .ok) ∧
      (∀ e, st = .err e → l.getLast? = some { status := .err e, data := 0x00 }))

theorem Delivered.stopped (hd : Delivered h s t st)
    (hret : ∀ x st', t.returned = some x → x.status? = some st' → st' = st) : StoppedAtFirstError h s t := by
  obtain ⟨l, hl, hok⟩ := hd
  refine ⟨l ++ st.failure, hl, ?_⟩
  cases st with
  | ok =>
    rw [Status.failure, List.append_nil]
    refine ⟨fun r hr => hok r (List.mem_of_mem_dropLast hr), fun x st hx hst => ⟨fun _ => hok, fun e he => ?_⟩⟩
    cases he.symm.trans (hret x st hx hst)
  | err e =>
    refine ⟨by rwa [Status.failure, List.dropLast_concat], fun x st hx hst => ?_⟩
    obtain rfl := hret x st hx hst
    exact ⟨nofun, fun e' he => by cases he; exact List.getLast?_concat⟩

/-- What an operation that stops at its first error comes to, where it returns its status. -/
theorem Ran.Delivers.finish {α : Type} {status : α → Status} {m : Ran α} {ret : α → Returned}
    (hm : m.Delivers h status s) (hret : ∀ a, (ret a).status? = some (status a)) (ht : m.finish ret = .next t) :
    StoppedAtFirstError h s t := by
  obtain ⟨a, u, rfl, rfl⟩ | ⟨u, rfl, rfl⟩ := Ran.finish_next ht
  · refine Delivered.stopped (st := status a) hm fun x st' hx hst => ?_
    cases hx
    exact Option.some.inj (hst.symm.trans (hret a))
  · exact Delivered.stopped (st := .ok) hm nofun

end Delivers

/-- Settles O39: every command delivers one response or waits (`command_delivers`), so that a call, which goes on only after a
response that is OK, delivers OKs and then at most the error it returns. -/
theorem operationsStopAtTheFirstError : Obligations.OperationsStopAtTheFirstError := by
  intro i s t h ha ht
  cases i with
  | rdBits N => cases ha; exact (rdBits_delivers _ N s).finish (fun _ => rfl) ht
  | rdCount => cases ha; exact (rdCount_delivers _ s).finish (fun _ => rfl) ht
  | wrBits V N => cases ha; exact (wrBits_delivers _ V N s).finish (fun _ => rfl) ht
  | wrFlush => cases ha; exact (wrFlush_delivers _ s).finish (fun _ => rfl) ht
  | wrCount => cases ha; exact (wrCount_delivers _ s).finish (fun _ => rfl) ht
  | rdBit => cases ha; exact (rdBits_delivers _ 1 s).finish (fun _ => rfl) ht
  | rdBool => cases ha; exact (rdBits_delivers _ 1 s).finish (fun _ => rfl) ht
  | wrBit b => cases ha; exact (wrBits_delivers _ b 1 s).finish (fun _ => rfl) ht
  | wrBool v => cases ha; exact (wrBits_delivers _ _ 1 s).finish (fun _ => rfl) ht
  | readBoolSequence r n =>
    cases ha
    have call : ((readBools h n s).bind fun p s1 => .done p.2 (s1.newSequence p.1 n)).Delivers h id s :=
      Ran.post_bind (readBools_delivers h n s) fun _ _ hu => hu
    exact call.finish (fun _ => rfl) ht
  | readByteStream r b => cases ha; exact (readBytes_delivers h b _ 0 s).finish (fun _ => rfl) ht
  | readBitSequenceInto r b totalBits => cases ha; exact (readBitsInto_delivers h b totalBits s).finish (fun _ => rfl) ht
  | writeByteStream w b => cases ha; exact (writeBytes_delivers h _ 0 s).finish (fun _ => rfl) ht
  | writeBitSequenceFrom w b totalBits => cases ha; exact (writeBitsFrom_delivers h b totalBits s).finish (fun _ => rfl) ht
  | writeBoolSequence w q => cases ha; exact (writeBools_delivers h _ s).finish (fun _ => rfl) ht
  | wrapReader src => cases ha
  | wrapWriter snk => cases ha

end Sys2Proof.Machine

/-! PROOFS. The statements about reset and hazards (`70_reset_and_hazards.md`): the machine before any creation, commands to
a unit inside another command, and operations over streams that answer. -/

namespace Sys2Proof.Machine

/-! ## Before any creation (R111, R113) -/

theorem reset_ok : State.reset.Ok :=
  ⟨nofun, ⟨.nil, nofun⟩, ⟨.nil, nofun⟩⟩

/-- There is no unit that could be inside a command, and no stream listed that could be silent. -/
theorem reset_fair : State.reset.Fair :=
  ⟨reset_ok, rfl, nofun, nofun⟩

/-- Settles O47: the lists of the reset state are empty, so all that is said of their members holds, and a step finds
nothing queued (`step_empty`). -/
theorem resetHasNoInstance : Obligations.ResetHasNoInstance :=
  ⟨rfl, rfl, rfl, rfl, reset_ok, reset_fair, step_empty rfl⟩

/-! ## Commands to a unit inside another command (R116) -/

section Inside

variable {α : Type} {s : State} {h : Nat} {u : BitUnit}

/-- The operation is refused by the unit at `h`, as busy or as of the wrong kind. -/
def Ran.RefusedBy (h : Nat) (m : Ran α) : Prop := m = .refused (.busy h) ∨ m = .refused (.wrongKind h)

theorem Ran.RefusedBy.finish {m : Ran α} (hm : m.RefusedBy h) (ret : α → Returned) :
    m.finish ret = .refused (.busy h) ∨ m.finish ret = .refused (.wrongKind h) :=
  hm.imp (congrArg (Ran.finish ret)) (congrArg (Ran.finish ret))

variable (hu : s.units[h]? = some u) (hin : s.insideCommand h = true)
include hu hin

theorem asReader_refusedBy (f : Reader → Ran α) : (asReader h s f).RefusedBy h := by
  cases u with
  | reader r =>
    have notIdle : r.micro ≠ .idle := by simpa [State.insideCommand, hu] using hin
    exact .inl (asReader_of_busy hu notIdle f)
  | writer w => exact .inr (asReader_wrongKind hu nofun f)

theorem asWriter_refusedBy (f : Writer → Ran α) : (asWriter h s f).RefusedBy h := by
  cases u with
  | reader r => exact .inr (asWriter_wrongKind hu nofun f)
  | writer w =>
    have notIdle : w.micro ≠ .idle := by simpa [State.insideCommand, hu] using hin
    exact .inl (asWriter_of_busy hu notIdle f)

end Inside

/-- Settles O40: every command reaches its unit by `asReader` or `asWriter`, which refuse one that is inside a command;
the calls have no command word. -/
theorem busyInstancesRefuseCommands : Obligations.BusyInstancesRefuseCommands := by
  intro s u i hu hin command
  cases i with
  | rdBits N => exact (asReader_refusedBy hu hin _).finish _
  | rdCount => exact (asReader_refusedBy hu hin _).finish _
  | wrBits V N => exact (asWriter_refusedBy hu hin _).finish _
  | wrFlush => exact (asWriter_refusedBy hu hin _).finish _
  | wrCount => exact (asWriter_refusedBy hu hin _).finish _
  | rdBit => exact (asReader_refusedBy hu hin _).finish _
  | rdBool => exact (asReader_refusedBy hu hin _).finish _
  | wrBit b => exact (asWriter_refusedBy hu hin _).finish _
  | wrBool t => exact (asWriter_refusedBy hu hin _).finish _
  | wrapReader _ => cases command
  | readBoolSequence _ _ => cases command
  | readByteStream _ _ => cases command
  | readBitSequenceInto _ _ _ => cases command
  | wrapWriter _ => cases command
  | writeByteStream _ _ => cases command
  | writeBitSequenceFrom _ _ _ => cases command
  | writeBoolSequence _ _ => cases command

/-! ## Operations over streams that answer (R120, R121) -/

/-- The operations the host has still to issue are as they were. -/
def QueueKept (s t : State) : Prop := t.queue = s.queue

section Queue

variable {s t : State} {h : Nat}

theorem KeepsReading.queueKept (hk : KeepsReading s h t) : QueueKept s t := by
  obtain ⟨-, -, -, -, -, -, -, queue, -⟩ := hk
  exact queue

theorem KeepsWriting.queueKept (hk : KeepsWriting s h t) : QueueKept s t := by
  obtain ⟨-, -, -, -, -, -, -, queue, -⟩ := hk
  exact queue

theorem UnitAdded.queueKept (ht : UnitAdded s t) : QueueKept s t := by
  obtain rfl | ⟨u, rfl⟩ := ht
  · rfl
  · rfl

theorem rdBits_queueKept (h N : Nat) (s : State) : (rdBits h N s).Leads QueueKept s :=
  Ran.post_mono (rdBits_frame h N s) (fun _ _ => ReadFrame.queue) fun _ => ReadFrame.queue

theorem wrBits_queueKept (h V N : Nat) (s : State) : (wrBits h V N s).Leads QueueKept s :=
  Ran.post_mono (wrBits_frame h V N s) (fun _ _ => WriteFrame.queue) fun _ => WriteFrame.queue

theorem wrFlush_queueKept (h : Nat) (s : State) : (wrFlush h s).Leads QueueKept s :=
  Ran.post_mono (wrFlush_frame h s) (fun _ _ => WriteFrame.queue) fun _ => WriteFrame.queue

theorem rdCount_queueKept (h : Nat) (s : State) : (rdCount h s).Leads QueueKept s :=
  asReader_post fun _ _ _ => rfl

theorem wrCount_queueKept (h : Nat) (s : State) : (wrCount h s).Leads QueueKept s :=
  asWriter_post fun _ _ _ => rfl

theorem wrapReader_queueKept (src : StreamHandle) (s : State) : (wrapReader src s).Leads QueueKept s :=
  Ran.post_mono (wrapReader_unitAdded src s) (fun _ _ => UnitAdded.queueKept) fun _ => UnitAdded.queueKept

theorem wrapWriter_queueKept (snk : StreamHandle) (s : State) : (wrapWriter snk s).Leads QueueKept s :=
  Ran.post_mono (wrapWriter_unitAdded snk s) (fun _ _ => UnitAdded.queueKept) fun _ => UnitAdded.queueKept

theorem readBoolSequence_queueKept (n : Nat) (hr : hasReader s.units h = true) :
    ((readBools h n s).bind fun p s1 => .done p.2 (s1.newSequence p.1 n)).Leads QueueKept s :=
  Ran.post_bind (Ran.post_mono (readBools_keepsReading n (get_of_hasReader hr)) (fun _ _ kept => kept.1.queueKept)
    fun _ => KeepsReading.queueKept) fun _ _ kept => kept

theorem readBytes_queueKept (b m i : Nat) (hr : hasReader s.units h = true) :
    (readBytes h b m i s).Leads QueueKept s :=
  Ran.post_mono (readBytes_keepsReading b m i (get_of_hasReader hr)) (fun _ _ kept => kept.1.queueKept)
    fun _ => KeepsReading.queueKept

theorem readBitsInto_queueKept (b totalBits : Nat) (hr : hasReader s.units h = true) :
    (readBitsInto h b totalBits s).Leads QueueKept s :=
  Ran.post_mono (readBitsInto_keepsReading b totalBits (get_of_hasReader hr)) (fun _ _ kept => kept.1.queueKept)
    fun _ => KeepsReading.queueKept

theorem writeBytes_queueKept (bytes : List Byte) (i : Nat) (hw : hasWriter s.units h = true) :
    (writeBytes h bytes i s).Leads QueueKept s :=
  Ran.post_mono (writeBytes_keepsWriting bytes i (get_of_hasWriter hw)) (fun _ _ => KeepsWriting.queueKept)
    fun _ => KeepsWriting.queueKept

theorem writeBitsFrom_queueKept (b totalBits : Nat) (hw : hasWriter s.units h = true) :
    (writeBitsFrom h b totalBits s).Leads QueueKept s :=
  Ran.post_mono (writeBitsFrom_keepsWriting b totalBits (get_of_hasWriter hw)) (fun _ _ => KeepsWriting.queueKept)
    fun _ => KeepsWriting.queueKept

theorem writeBools_queueKept (seq : List Bool) (hw : hasWriter s.units h = true) :
    (writeBools h seq s).Leads QueueKept s :=
  Ran.post_mono (writeBools_keepsWriting seq (get_of_hasWriter hw)) (fun _ _ => KeepsWriting.queueKept)
    fun _ => KeepsWriting.queueKept

/-- The record of what an operation returned is not part of the queue. -/
theorem Ran.finish_queueKept {α : Type} {m : Ran α} (hm : m.Leads QueueKept s) {ret : α → Returned}
    (ht : m.finish ret = .next t) : QueueKept s t :=
  Ran.post_finish hm (fun _ _ kept => kept) ht

theorem exec_queueKept {i : Instr} (ha : i.applies s = true) (ht : exec i s = .next t) : QueueKept s t := by
  cases i with
  | rdBits N => exact Ran.finish_queueKept (rdBits_queueKept _ N s) ht
  | rdCount => exact Ran.finish_queueKept (rdCount_queueKept _ s) ht
  | wrBits V N => exact Ran.finish_queueKept (wrBits_queueKept _ V N s) ht
  | wrFlush => exact Ran.finish_queueKept (wrFlush_queueKept _ s) ht
  | wrCount => exact Ran.finish_queueKept (wrCount_queueKept _ s) ht
  | rdBit => exact Ran.finish_queueKept (rdBits_queueKept _ 1 s) ht
  | rdBool => exact Ran.finish_queueKept (rdBits_queueKept _ 1 s) ht
  | wrBit b => exact Ran.finish_queueKept (wrBits_queueKept _ b 1 s) ht
  | wrBool v => exact Ran.finish_queueKept (wrBits_queueKept _ _ 1 s) ht
  | wrapReader src => exact Ran.finish_queueKept (wrapReader_queueKept src s) ht
  | readBoolSequence r n => exact Ran.finish_queueKept (readBoolSequence_queueKept n ha) ht
  | readByteStream r b => exact Ran.finish_queueKept (readBytes_queueKept b _ 0 ha) ht
  | readBitSequenceInto r b totalBits => exact Ran.finish_queueKept (readBitsInto_queueKept b totalBits ha) ht
  | wrapWriter snk => exact Ran.finish_queueKept (wrapWriter_queueKept snk s) ht
  | writeByteStream w b => exact Ran.finish_queueKept (writeBytes_queueKept _ 0 ha) ht
  | writeBitSequenceFrom w b totalBits => exact Ran.finish_queueKept (writeBitsFrom_queueKept b totalBits ha) ht
  | writeBoolSequence w q => exact Ran.finish_queueKept (writeBools_queueKept _ ha) ht

end Queue

/-- From a fair state an operation neither waits nor stops: it gives a fair state and returns to the host. -/
theorem OutcomeGood.next {o : Host.Outcome State Fault Refusal} (good : OutcomeGood True o) :
    ∃ t, o = .next t ∧ t.Fair ∧ t.returned.isSome = true := by
  cases o with
  | next t =>
    obtain ⟨⟨ok, idleAndAnswered⟩, returned⟩ := good
    exact ⟨t, rfl, ⟨ok, idleAndAnswered trivial⟩, returned trivial⟩
  | fault f =>
    obtain ⟨-, -, unfair⟩ := good
    exact absurd trivial unfair
  | refused q => exact absurd trivial good

/-- Settles O44: from a fair state an instruction that applies comes to a fair next state (`exec_good`), and it leaves
the queue (`exec_queueKept`). -/
theorem fairStreamsLetEveryOperationEnd : Obligations.FairStreamsLetEveryOperationEnd := by
  intro i s fair applies
  obtain ⟨t, ht, fairAfter, returned⟩ := (exec_good i fair.keeps fun _ => applies).next
  exact ⟨t, ht, fairAfter, returned, exec_queueKept applies ht⟩

end Sys2Proof.Machine
